-- ==== Sys2Proof/Config.lean ====
section
/-! DEFINITION. What an implementation of the block fixes (R9) and the constants the document fixes (R8).
The two open parameters are the fields of `Config`; State carries one `Config` that no step changes, so that
every statement holds for every size and place of the block (log 1). -/

namespace Sys2Proof

/-- The two OPEN parameters of R9. -/
structure Config where
  /-- DMEM_SIZE: bytes of data memory. -/
  dmemSize : Nat
  /-- BLOCK_BASE: host address of the block's register window. -/
  blockBase : Nat
deriving DecidableEq, Repr

/-- The range R9 gives DMEM_SIZE. -/
abbrev Config.ok (c : Config) : Prop := 64 ≤ c.dmemSize ∧ c.dmemSize ≤ 65536

/-- R9's reference DMEM_SIZE. DESIGN CHOICE (log 1): the spec gives BLOCK_BASE no reference value; 0 here. -/
def Config.reference : Config := { dmemSize := 4096, blockBase := 0 }

/-- CC_LEN: the colour code's length in bits (R8). -/
def ccLen : Nat := 30

/-- TAPS: the scrambler's taps (R8, R151). -/
def taps : List Nat := [1, 2, 4, 5, 7, 8, 10, 11, 12, 16, 22, 23, 26, 32]

/-- PAD: the trailing erasures of a depunctured array (R8). -/
def pad : Nat := 16

/-- ERASURE: the soft bit that carries no information (R8). -/
def erasure : BitVec 8 := 0x80

/-- G[0]..G[3]: the generators of the mother code, in the document's order (R8, R220). -/
def generators : List (BitVec 5) := [0b10011, 0b11101, 0b10111, 0b11011]

/-- POLY (R8). -/
def crcPoly : BitVec 16 := 0x8408

/-- CRC_INIT (R8). -/
def crcInit : BitVec 16 := 0xFFFF

/-- CRC_XOROUT (R8). -/
def crcXorOut : BitVec 16 := 0xFFFF

/-- A_DEFAULT: IL_DEPTH's reset value (R8, R42). -/
def depthDefault : BitVec 16 := 11

/-- UINT_MAX_BITS (R9, R285). -/
def uintMaxBits : Nat := 64

/-- DESC_SIZE: bytes of one schema descriptor (R9, R112). -/
def descSize : Nat := 8

/-- Offset of the DMEM window from BLOCK_BASE (R71). -/
def dmemWindow : Nat := 0x10000

end Sys2Proof
end

