-- ==== Sys2Proof/Word.lean ====
section
/-! DEFINITION. The word types of the block: 32-bit register words and bytes (spec R10). -/

namespace Sys2Proof

/-- A `u32`: a register of the window, an argument, a command word (R10, R33, R100). -/
abbrev Word := BitVec 32

/-- A `u8`: one element of a bit sequence, one byte of DMEM (R10, R48). -/
abbrev Byte := BitVec 8

end Sys2Proof
end

