-- ==== Sys2Proof/Syntax.lean ====
section
/-! DEFINITION. The commands of the block (one constructor per row of spec/opcode_table.json), its registers as the
host names them, and the operations and source lines of the host agent (R33, R104, R113, R114). -/

namespace Sys2Proof

/-- The commands (R104, R105, R115). Operands are not part of a command: they stand in ARG registers and IL_DEPTH
(R102). Only DPN carries a field, its rate code, because every MODE decodes for it (R103, R202). -/
inductive Instr where
  | h2s
  | s2h
  | scrseq
  | scrHard
  | scrSoft
  | dil
  /-- `rate` is the MODE field: 0 is rate 2/3, 1 to 15 name other rates (R202). -/
  | dpn (rate : Nat)
  | vitZero
  | vitMin
  | crc16
  | crcchk
  | unp
deriving DecidableEq, Repr

/-- The registers of the window (R33). -/
inductive Reg where
  | ctrl
  | status
  | cmd
  | ilDepth
  | arg (k : Fin 8)
  | result0
  | result1
deriving DecidableEq, Repr

/-- One operation of the host agent on the bus (R71, R72, R79). `bytes` is the access width, `addr` the host address. -/
inductive HostOp where
  | load (bytes addr : Nat)
  /-- A store carries its value in a word; a byte store uses the low eight bits (log 12). -/
  | store (bytes addr : Nat) (data : Word)
  /-- WAIT: read STATUS until BUSY reads 0 (R114). -/
  | wait
deriving DecidableEq, Repr

/-- One line of a host program, in the syntax of R113 and R114. -/
inductive HostLine where
  | wr (r : Reg) (imm : Word)
  | rd (r : Reg)
  | sb (addr : Nat) (imm : Byte)
  | lb (addr : Nat)
  | wrCmd (i : Instr)
  | wait
  /-- RUN <MNEMONIC>, v0, v1, ..., vk. -/
  | run (i : Instr) (operands : List Word)
  /-- SBS and SBH: consecutive bytes from one address (their two spellings of the bytes are notation). -/
  | sbs (addr : Nat) (values : List Byte)
  | clrDone
deriving DecidableEq, Repr

/-- Whose turn a step is: the run is one total order of host steps and block steps (R82), into which the platform may
put a reset (R350). -/
inductive Turn where
  | host
  | block
  | reset
deriving DecidableEq, Repr

end Sys2Proof
end

