-- ==== Sys2Proof/Machine/State.lean ====
section
/-! DEFINITION. The state of the block as plain data (R30), the two agents' part of it, the reasons a step can stop, and
the state after reset (R350, R351). -/

namespace Sys2Proof.Machine

/-- CTRL (R34). Bits 31:1 are reserved, read 0 and ignore writes (R45), so they are not stored (log 11). -/
structure Ctrl where
  irqEn : Bool
deriving DecidableEq, Repr

/-- STATUS, field by field (R35). Bits 3:2 and 31:10 are reserved and not stored (R45, log 11). -/
structure Status where
  busy : Bool
  done : Bool
  /-- The 4-bit status code (R38, R310). -/
  err : BitVec 4
  crcOk : Bool
  pduValid : Bool
deriving DecidableEq, Repr

/-- ARG0..ARG7 (R43). -/
structure ArgFile where
  arg0 : Word
  arg1 : Word
  arg2 : Word
  arg3 : Word
  arg4 : Word
  arg5 : Word
  arg6 : Word
  arg7 : Word
deriving DecidableEq, Repr

/-- DMEM: the written bytes by rising address; an address not listed is unwritten (R48, R351). -/
abbrev Memory := List Host.Cell

/-- FAULTS: the set of model faults met since reset, by membership (R52, R330). -/
structure ModelFaults where
  bus : Bool
  hazard : Bool
  uninit : Bool
deriving DecidableEq, Repr

/-- The state of the block (R30), its configuration (R9), and the host's and the platform's remaining actions. -/
structure State where
  /-- DMEM_SIZE and BLOCK_BASE; no step changes them (R9, log 1). -/
  cfg : Config
  ctrl : Ctrl
  status : Status
  /-- CMD: the last word written (R41). -/
  cmd : Word
  /-- IL_DEPTH[15:0]; bits 31:16 are reserved (R42, log 11). -/
  ilDepth : BitVec 16
  args : ArgFile
  result0 : Word
  result1 : Word
  dmem : Memory
  /-- PENDING: the latched command word (R49). -/
  pending : Word
  /-- FAULTS (R52). -/
  faults : ModelFaults
  /-- The MODEL's own: the block met MF_UNINIT and has no further step (R331, log 5). -/
  stuck : Bool
  /-- The MODEL's own: what the host has still to do, in order (R7, log 2). -/
  hostProgram : List HostOp
  /-- The MODEL's own: what the host's latest load returned, if it returned a value (R72, R330, log 2). -/
  hostData : Option Word
  /-- The MODEL's own: whose turns come next, in order (R82, R362, log 2). -/
  schedule : List Turn
deriving DecidableEq, Repr

/-- Why the machine stops. -/
inductive Fault where
  /-- Raised by a step that gives the block its turn after it met MF_UNINIT: "the block has no further step" (R331).
  SAFE: the model stops where real memory would return some byte. -/
  | blockStuck
deriving DecidableEq, Repr

/-- Why a step has no meaning. No meaning of this model answers with a refusal. -/
inductive Refusal where
  /-- An instruction without a meaning yet, by its mnemonic; raised by no arm of `exec`. SAFE. -/
  | notModelled (mnemonic : String)
deriving DecidableEq, Repr

/-- The machine right after reset (R350, R351), at the reference parameters (R9, log 1), with nothing for the host and
the platform to do (log 2). -/
def State.reset : State :=
  { cfg := Config.reference
    ctrl := { irqEn := false }
    status := { busy := false, done := false, err := 0, crcOk := false, pduValid := false }
    cmd := 0
    ilDepth := depthDefault
    args := { arg0 := 0, arg1 := 0, arg2 := 0, arg3 := 0, arg4 := 0, arg5 := 0, arg6 := 0, arg7 := 0 }
    result0 := 0
    result1 := 0
    dmem := []
    pending := 0
    faults := { bus := false, hazard := false, uninit := false }
    stuck := false
    hostProgram := []
    hostData := none
    schedule := [] }

end Sys2Proof.Machine
end

