-- ==== Sys2Proof/Machine/Flags.lean ====
section
/-! DEFINITION. The status codes, the flag computations, the irq output and the words a host reads from CTRL and STATUS
(R34, R35, R39, R40, R53, R310). -/

namespace Sys2Proof.Machine

/-- The status codes a command produces (R310); 5 and 8 to 15 are reserved and never produced (R311). -/
inductive ErrCode where
  | ok
  | illegalCmd
  | invalidArgument
  | lengthMismatch
  | unsupported
  | address
  | overlap
deriving DecidableEq, Repr

/-- The numbers of R310. -/
def ErrCode.code : ErrCode → BitVec 4
  | .ok => 0
  | .illegalCmd => 1
  | .invalidArgument => 2
  | .lengthMismatch => 3
  | .unsupported => 4
  | .address => 6
  | .overlap => 7

/-- A bit as a word (R11). -/
def bitWord (b : Bool) : Word := if b then 1 else 0

/-- The word a host reads from CTRL (R34, R45). -/
def Ctrl.word (c : Ctrl) : Word := bitWord c.irqEn

/-- The word a host reads from STATUS: the fields at their places, reserved bits 0 (R35, R45). -/
def Status.word (t : Status) : Word :=
  bitWord t.busy ||| bitWord t.done <<< 1 ||| t.err.zeroExtend 32 <<< 4 ||| bitWord t.crcOk <<< 8
    ||| bitWord t.pduValid <<< 9

/-- The interrupt output (R53, R324). -/
def State.irq (s : State) : Bool := s.ctrl.irqEn && s.status.done

/-- CRC_OK: the computed bits equal the received ones (R39, R263). -/
def crcOkFlag (computed received : List Byte) : Bool := decide (computed = received)

/-- PDU_VALID: no constant field mismatches (R40, R287). -/
def pduValidFlag (mismatches : Nat) : Bool := decide (mismatches = 0)

end Sys2Proof.Machine
end

