-- ==== Sys2Proof/Machine/Ops.lean ====
section
/-! DEFINITION. The shared operations: DMEM, the argument registers, starting a command, and the three ways a block step
ends (R15, R16, R41, R48, R320-R322, R331). -/

namespace Sys2Proof.Machine

/-! DMEM. -/

/-- The byte at an address, or none where nothing has written (R48). -/
def Memory.read : Memory → Nat → Option Byte
  | [], _ => none
  | (k, v) :: rest, a => if k = a then some v else Memory.read rest a

/-- A store to one byte; the list stays sorted by address (R48, R72). -/
def Memory.write : Memory → Nat → Byte → Memory
  | [], a, v => [(a, v)]
  | (k, w) :: rest, a, v =>
    if a < k then (a, v) :: (k, w) :: rest
    else if a = k then (a, v) :: rest
    else (k, w) :: Memory.write rest a v

/-- MemRead(addr, n) (R15): the bytes in address order, or none where one of them is unwritten (R76). -/
def Memory.readRange (m : Memory) : Nat → Nat → Option (List Byte)
  | _, 0 => some []
  | a, n + 1 =>
    match m.read a, Memory.readRange m (a + 1) n with
    | some b, some bs => some (b :: bs)
    | _, _ => none

/-- MemWrite(addr, n, v) (R15): element i of v to addr + i (R77). -/
def Memory.writeRange : Memory → Nat → List Byte → Memory
  | m, _, [] => m
  | m, a, b :: bs => Memory.writeRange (m.write a b) (a + 1) bs

/-- The canonical form: addresses strictly rising. -/
abbrev Memory.wf (m : Memory) : Prop := m.Pairwise (fun c d => c.1 < d.1)

/-- Only addresses of DMEM are listed (R48, R70). -/
abbrev Memory.within (m : Memory) (size : Nat) : Prop := ∀ c ∈ m, c.1 < size

/-! The argument registers (R43). -/

/-- ARG[k] (R14). -/
def ArgFile.get (f : ArgFile) (k : Fin 8) : Word :=
  match k with
  | 0 => f.arg0
  | 1 => f.arg1
  | 2 => f.arg2
  | 3 => f.arg3
  | 4 => f.arg4
  | 5 => f.arg5
  | 6 => f.arg6
  | 7 => f.arg7

/-- ARG[k] <- v (R14). -/
def ArgFile.set (f : ArgFile) (k : Fin 8) (v : Word) : ArgFile :=
  match k with
  | 0 => { f with arg0 := v }
  | 1 => { f with arg1 := v }
  | 2 => { f with arg2 := v }
  | 3 => { f with arg3 := v }
  | 4 => { f with arg4 := v }
  | 5 => { f with arg5 := v }
  | 6 => { f with arg6 := v }
  | 7 => { f with arg7 := v }

/-! Starting a command. -/

/-- What a CMD write does while BUSY = 0 (R41). -/
def State.startCommand (s : State) (w : Word) : State :=
  { s with
    cmd := w
    pending := w
    status := { busy := true, done := false, err := ErrCode.ok.code, crcOk := false, pduValid := false } }

/-! The three ends of a block step (R320). -/

/-- raise Err(code) (R16, R322): the error completion, the block's only report of an error (R323). -/
def State.raiseErr (s : State) (e : ErrCode) : State :=
  { s with
    result0 := 0
    result1 := 0
    status := { s.status with busy := false, done := true, err := e.code } }

/-- MemWrite(dst, ., out) and complete(r0, r1) (R16, R321). RESULT registers hold 32 bits (R44, log 13). -/
def State.complete (s : State) (dst : Nat) (out : List Byte) (r0 r1 : Nat) : State :=
  { s with
    dmem := s.dmem.writeRange dst out
    result0 := BitVec.ofNat 32 r0
    result1 := BitVec.ofNat 32 r1
    status := { s.status with busy := false, done := true, err := ErrCode.ok.code } }

/-- STATUS.CRC_OK <- b (R263). -/
def State.setCrcOk (s : State) (b : Bool) : State := { s with status := { s.status with crcOk := b } }

/-- STATUS.PDU_VALID <- b (R288). -/
def State.setPduValid (s : State) (b : Bool) : State := { s with status := { s.status with pduValid := b } }

/-- A block step that meets an unwritten byte: MF_UNINIT joins FAULTS, nothing else of the block changes, and the block
has no further step (R331, log 5). -/
def State.meetUninit (s : State) : State :=
  { s with faults := { s.faults with uninit := true }, stuck := true }

/-! The platform's reset input. -/

/-- Reset (R350, R351): the block as after reset, whatever it was doing; its parameters and what the host and the
platform have still to do are outside it (log 9). -/
def State.resetBlock (s : State) : State :=
  { State.reset with
    cfg := s.cfg
    hostProgram := s.hostProgram
    hostData := s.hostData
    schedule := s.schedule }

end Sys2Proof.Machine
end

