-- ==== Sys2Proof/Machine/Operands.lean ====
section
/-! DEFINITION. Operand forms: argument registers as numbers, regions, the in-range and overlap tests, hard elements,
little-endian fields (R12, R74, R75, R78, R102). -/

namespace Sys2Proof.Machine

/-- ARG[k] as an address, a length or a count: unsigned, zero-extended to Nat (R102). -/
def State.argNat (s : State) (k : Fin 8) : Nat := (s.args.get k).toNat

/-- IL_DEPTH[15:0] as a number (R102, R181). -/
def State.depth (s : State) : Nat := s.ilDepth.toNat

/-- inRange(a, n): empty, or inside DMEM, computed without wrap-around (R74). -/
def State.inRange (s : State) (a n : Nat) : Bool := n == 0 || decide (a + n ≤ s.cfg.dmemSize)

/-- overlaps((a1, n1), (a2, n2)): the regions share a byte (R75). An empty region overlaps nothing. -/
def overlaps (a1 n1 a2 n2 : Nat) : Bool :=
  n1 != 0 && n2 != 0 && decide (a1 < a2 + n2) && decide (a2 < a1 + n1)

/-- hard(b): b is 0 or 1 (R12). -/
def hard (b : Byte) : Bool := b == 0 || b == 1

/-- Every element of the sequence is hard (R12). -/
def allHard (bs : List Byte) : Bool := bs.all hard

/-- A hard element from a bit. -/
def hardBit (b : Bool) : Byte := if b then 1 else 0

/-- LE16, LE32, LE64: the bytes read as a little-endian number (R15, R78). -/
def littleEndian : List Byte → Nat
  | [] => 0
  | b :: bs => b.toNat + 256 * littleEndian bs

/-- toLE64(v): byte j is (v >> 8j) & 0xFF (R78). -/
def toLE64 (v : Nat) : List Byte := (List.range 8).map (fun j => BitVec.ofNat 8 (v >>> (8 * j)))

end Sys2Proof.Machine
end

