-- ==== Sys2Proof/Machine/Crc.lean ====
section
/-! DEFINITION. The CRC-16 checker: CRC16 and CRCCHK (45_crc16.md, R260-R265). -/

namespace Sys2Proof.Machine

/-- One bit through the CRC register (R260). -/
def crcStep (crc : BitVec 16) (b : Byte) : BitVec 16 :=
  (crc >>> 1) ^^^ (if (b.zeroExtend 16 ^^^ crc) &&& 1 = 1 then crcPoly else 0)

/-- The register after the bits of m (R260). -/
def crcRegister (m : List Byte) : BitVec 16 := m.foldl crcStep crcInit

/-- crc16(m) (R260). -/
def crc16 (m : List Byte) : BitVec 16 := crcRegister m ^^^ crcXorOut

/-- crcbits(m): the value's bits, least-significant first (R261). -/
def crcbits (m : List Byte) : List Byte := (List.range 16).map (fun i => hardBit ((crc16 m).getLsbD i))

/-- CRC16 (R262). -/
def execCrc16 (s : State) : Host.Outcome State Fault Refusal :=
  let src := s.argNat 0
  let n := s.argNat 1
  let dst := s.argNat 2
  if !(s.inRange src n && s.inRange dst 16) then .next (s.raiseErr .address)
  else if overlaps dst 16 src n then .next (s.raiseErr .overlap)
  else match s.dmem.readRange src n with
    | none => .next s.meetUninit
    | some m =>
      if !allHard m then .next (s.raiseErr .invalidArgument)
      else .next (s.complete dst (crcbits m) 16 (crc16 m).toNat)

/-- CRCCHK (R263): the payload and the sixteen received bits after it; writes no DMEM. -/
def execCrcchk (s : State) : Host.Outcome State Fault Refusal :=
  let src := s.argNat 0
  let n := s.argNat 1
  if !s.inRange src (n + 16) then .next (s.raiseErr .address)
  else match s.dmem.readRange src (n + 16) with
    | none => .next s.meetUninit
    | some v =>
      if !allHard v then .next (s.raiseErr .invalidArgument)
      else .next ((s.complete 0 [] 0 (crc16 (v.take n)).toNat).setCrcOk
        (crcOkFlag (crcbits (v.take n)) (v.drop n)))

end Sys2Proof.Machine
end

