-- ==== Sys2Proof/Machine/Deinterleaver.lean ====
section
/-! DEFINITION. The bit deinterleaver: DIL (42_deinterleaver.md, R180-R185). -/

namespace Sys2Proof.Machine

/-- pattern(K, a)[i] = (a * (i + 1)) mod K, for 0 ≤ i < K (R180). -/
def interleavePattern (k a : Nat) : List Nat := (List.range k).map (fun i => a * (i + 1) % k)

/-- output[i] = bits[pattern[i]] (R183). Every index of the pattern lies below K (R180), so the default is not used. -/
def gather (bits : List Byte) (pattern : List Nat) : List Byte := pattern.map (fun j => bits.getD j 0)

/-- DIL (R183), with the depth from IL_DEPTH (R181). -/
def execDil (s : State) : Host.Outcome State Fault Refusal :=
  let src := s.argNat 0
  let k := s.argNat 1
  let dst := s.argNat 2
  let a := s.depth
  if !(k == 0 || Nat.gcd a k == 1) then .next (s.raiseErr .unsupported)
  else if !(s.inRange src k && s.inRange dst k) then .next (s.raiseErr .address)
  else if overlaps dst k src k then .next (s.raiseErr .overlap)
  else match s.dmem.readRange src k with
    | none => .next s.meetUninit
    | some b => .next (s.complete dst (gather b (interleavePattern k a)) k 0)

end Sys2Proof.Machine
end

