-- ==== Sys2Proof/Machine/Depuncturer.lean ====
section
/-! DEFINITION. The convolutional depuncturer: DPN (43_depuncturer.md, R200-R205). -/

namespace Sys2Proof.Machine

/-- P[1] = 1, P[2] = 2, P[3] = 5 (R8, R200). -/
def punctureOffset : Nat → Nat
  | 1 => 1
  | 2 => 2
  | _ => 5

/-- U = 4 * K2 with K2 = (2 * K3) div 3 (R200). -/
def unpuncturedLength (k3 : Nat) : Nat := 4 * (2 * k3 / 3)

/-- T[j - 1] = 8 * g + P[j - 3 * g] - 1 with g = (j - 1) div 3, for the 1-indexed j (R200). -/
def punctureTarget (j : Nat) : Nat := 8 * ((j - 1) / 3) + punctureOffset (j - 3 * ((j - 1) / 3)) - 1

/-- T for K3 punctured bits (R200). -/
def punctureTargets (k3 : Nat) : List Nat := (List.range k3).map (fun i => punctureTarget (i + 1))

/-- out[T[j]] <- s[j], in order (R203). -/
def scatter : List Byte → List (Nat × Byte) → List Byte
  | out, [] => out
  | out, (t, b) :: rest => scatter (out.set t b) rest

/-- depuncture: U + 16 erasures with the punctured bits at their targets (R203). -/
def depuncture (bits : List Byte) : List Byte :=
  scatter (List.replicate (unpuncturedLength bits.length + pad) erasure)
    ((punctureTargets bits.length).zip bits)

/-- DPN (R203), with its rate code (R202). -/
def execDpn (rate : Nat) (s : State) : Host.Outcome State Fault Refusal :=
  let src := s.argNat 0
  let k3 := s.argNat 1
  let dst := s.argNat 2
  let u := unpuncturedLength k3
  if rate ≠ 0 then .next (s.raiseErr .unsupported)
  else if k3 % 3 = 1 then .next (s.raiseErr .unsupported)
  else if !(s.inRange src k3 && s.inRange dst (u + pad)) then .next (s.raiseErr .address)
  else if overlaps dst (u + pad) src k3 then .next (s.raiseErr .overlap)
  else match s.dmem.readRange src k3 with
    | none => .next s.meetUninit
    | some b => .next (s.complete dst (depuncture b) (u + pad) u)

end Sys2Proof.Machine
end

