-- ==== Sys2Proof/Machine/Primitives.lean ====
section
/-! DEFINITION. Bit and soft-bit primitives: H2S and S2H (40_primitives.md, R130, R131). -/

namespace Sys2Proof.Machine

/-- hard_to_soft: 0 to 0x00, 1 to 0xFF (R130). -/
def hardToSoft (b : Byte) : Byte := if b = 1 then 0xFF else 0x00

/-- soft_to_hard: the threshold at 0x80 (R131). -/
def softToHard (b : Byte) : Byte := if 0x80 ≤ b.toNat then 1 else 0

/-- H2S (R130). -/
def execH2S (s : State) : Host.Outcome State Fault Refusal :=
  let src := s.argNat 0
  let n := s.argNat 1
  let dst := s.argNat 2
  if !(s.inRange src n && s.inRange dst n) then .next (s.raiseErr .address)
  else if overlaps dst n src n then .next (s.raiseErr .overlap)
  else match s.dmem.readRange src n with
    | none => .next s.meetUninit
    | some b =>
      if !allHard b then .next (s.raiseErr .invalidArgument)
      else .next (s.complete dst (b.map hardToSoft) n 0)

/-- S2H (R131). -/
def execS2H (s : State) : Host.Outcome State Fault Refusal :=
  let src := s.argNat 0
  let n := s.argNat 1
  let dst := s.argNat 2
  if !(s.inRange src n && s.inRange dst n) then .next (s.raiseErr .address)
  else if overlaps dst n src n then .next (s.raiseErr .overlap)
  else match s.dmem.readRange src n with
    | none => .next s.meetUninit
    | some b => .next (s.complete dst (b.map softToHard) n 0)

end Sys2Proof.Machine
end

