-- ==== Sys2Proof/Machine/Scrambler.lean ====
section
/-! DEFINITION. The LFSR scrambler: the scrambling sequence, SCRSEQ and SCR (41_scrambler.md, R150-R157). -/

namespace Sys2Proof.Machine

/-- p[k] from the earlier elements, newest first: the mod-2 sum of p[k-t] over the taps (R151). -/
def nextScrambleBit (history : List Byte) : Byte :=
  taps.foldl (fun acc t => acc ^^^ history.getD (t - 1) 0) 0

/-- The next elements of the working buffer p, from its elements so far, newest first (R151). -/
def scrambleFrom (history : List Byte) : Nat → List Byte
  | 0 => []
  | n + 1 => nextScrambleBit history :: scrambleFrom (nextScrambleBit history :: history) n

/-- p[0 ..< 32]: two ones, then the colour code (R151). -/
def initialBuffer (cc : List Byte) : List Byte := 1 :: 1 :: cc

/-- scrseq(cc, L) = p[32 ..< 32 + L] (R151). -/
def scrseq (cc : List Byte) (len : Nat) : List Byte := scrambleFrom (initialBuffer cc).reverse len

/-- parity(x): the XOR of the bits of x (R11). -/
def parity {w : Nat} (x : BitVec w) : Bool := (List.range w).foldl (fun p i => p ^^ x.getLsbD i) false

/-- The tap mask of the register form (R154). -/
def tapMask : Word := 0x82608EDB

/-- One step of the 32-bit register form: its output bit and its next register (R154). -/
def registerStep (r : Word) : Bool × Word :=
  let b := parity (r &&& tapMask)
  (b, (r <<< 1) ||| bitWord b)

/-- The start register: bit 29 - i is cc[i], bits 31 and 30 are ones (R154). -/
def initialRegister (cc : List Byte) : Word :=
  0xC0000000 ||| (List.range 30).foldl (fun acc i => acc ||| (cc.getD i 0).zeroExtend 32 <<< (29 - i)) 0

/-- The register form's outputs from a register (R154). -/
def registerOutputs (r : Word) : Nat → List Byte
  | 0 => []
  | n + 1 => hardBit (registerStep r).1 :: registerOutputs (registerStep r).2 n

/-- SCRSEQ (R152). -/
def execScrseq (s : State) : Host.Outcome State Fault Refusal :=
  let cc := s.argNat 0
  let ccLength := s.argNat 1
  let dst := s.argNat 2
  let len := s.argNat 3
  if ccLength ≠ ccLen then .next (s.raiseErr .invalidArgument)
  else if !(s.inRange cc ccLen && s.inRange dst len) then .next (s.raiseErr .address)
  else if overlaps dst len cc ccLen then .next (s.raiseErr .overlap)
  else match s.dmem.readRange cc ccLen with
    | none => .next s.meetUninit
    | some c =>
      if !allHard c then .next (s.raiseErr .invalidArgument)
      else .next (s.complete dst (scrseq c len) len 0)

/-- HARD: output[i] = bits[i] ⊕ seq[i] (R155). -/
def scrambleHard (b q : Byte) : Byte := b ^^^ q

/-- SOFT: output[i] = bits[i] ⊕ (seq[i] ? 0xFF : 0x00), the bitwise complement (R155, R157). -/
def scrambleSoft (b q : Byte) : Byte := b ^^^ (if q = 1 then 0xFF else 0x00)

/-- SCR (R155): `mix` is the variant's element rule, `hardData` whether the data too must be hard. -/
def scrambleCommand (mix : Byte → Byte → Byte) (hardData : Bool) (s : State) :
    Host.Outcome State Fault Refusal :=
  let src := s.argNat 0
  let n := s.argNat 1
  let sq := s.argNat 2
  let ns := s.argNat 3
  let dst := s.argNat 4
  if n ≠ ns then .next (s.raiseErr .lengthMismatch)
  else if !(s.inRange src n && s.inRange sq n && s.inRange dst n) then .next (s.raiseErr .address)
  else if overlaps dst n src n || overlaps dst n sq n then .next (s.raiseErr .overlap)
  else match s.dmem.readRange src n, s.dmem.readRange sq n with
    | some b, some q =>
      if !allHard q then .next (s.raiseErr .invalidArgument)
      else if hardData && !allHard b then .next (s.raiseErr .invalidArgument)
      else .next (s.complete dst (List.zipWith mix b q) n 0)
    | _, _ => .next s.meetUninit

/-- SCR.HARD (R155). -/
def execScrHard (s : State) : Host.Outcome State Fault Refusal := scrambleCommand scrambleHard true s

/-- SCR.SOFT (R155). -/
def execScrSoft (s : State) : Host.Outcome State Fault Refusal := scrambleCommand scrambleSoft false s

end Sys2Proof.Machine
end

