-- ==== Sys2Proof/Machine/Unpacker.lean ====
section
/-! DEFINITION. The PDU bit unpacker: schema descriptors, value encodings and UNP (46_pdu_unpacker.md, R280-R289;
30_encoding.md, R111, R112). -/

namespace Sys2Proof.Machine

/-- The value kinds of R112. -/
inductive FieldKind where
  | bitArray
  | byteArray
  | uint
deriving DecidableEq, Repr

/-- One field of a schema (R280). -/
structure Field where
  /-- LEN: bit-length. -/
  len : Nat
  kind : FieldKind
  /-- IS_CONST. -/
  isConst : Bool
  /-- DEF: address of the default value, used only for a constant field. -/
  defAddr : Nat
deriving DecidableEq, Repr

/-- KIND's legal values (R112). -/
def fieldKind (k : Byte) : Option FieldKind :=
  if k = 0 then some .bitArray else if k = 1 then some .byteArray else if k = 2 then some .uint else none

/-- The field of one descriptor, none where KIND > 2 or FLAGS[7:1] ≠ 0 (R112, R288). -/
def fieldOf (lenBytes : List Byte) (kind flags : Byte) (defBytes : List Byte) : Option Field :=
  match fieldKind kind with
  | none => none
  | some k =>
    if flags >>> 1 ≠ 0 then none
    else some
      { len := littleEndian lenBytes, kind := k, isConst := flags.getLsbD 0, defAddr := littleEndian defBytes }

/-- The schema in the descriptor bytes, in order; none where a descriptor is bad (R111, R112, R288). -/
def schemaOf : List Byte → Option (List Field)
  | d0 :: d1 :: d2 :: d3 :: d4 :: d5 :: d6 :: d7 :: rest =>
    match fieldOf [d0, d1] d2 d3 [d4, d5, d6, d7], schemaOf rest with
    | some f, some fs => some (f :: fs)
    | _, _ => none
  | _ => some []

/-- vsize_f (R281). -/
def Field.size (f : Field) : Nat :=
  match f.kind with
  | .bitArray => f.len
  | .byteArray => (f.len + 7) / 8
  | .uint => 8

/-- An unsigned-integer field wider than UINT_MAX_BITS (R285). -/
def Field.tooWide (f : Field) : Bool := f.kind == .uint && decide (uintMaxBits < f.len)

/-- Ntot = Σ LEN_f (R280). -/
def totalBits (fs : List Field) : Nat := (fs.map Field.len).sum

/-- W = Σ vsize_f (R281). -/
def totalSize (fs : List Field) : Nat := (fs.map Field.size).sum

/-- byte_k = Σ_{j<8} (8k + j < LEN ? x[8k + j] : 0) << (7 - j) (R283). -/
def packedByte (x : List Byte) (k : Nat) : Byte :=
  BitVec.ofNat 8 (((List.range 8).map (fun j => (x.getD (8 * k + j) 0).toNat <<< (7 - j))).sum)

/-- The packed bytes of a byte-array field (R283). -/
def packBytes (x : List Byte) : List Byte := (List.range ((x.length + 7) / 8)).map (packedByte x)

/-- v, accumulated most-significant bit first (R284). -/
def uintValue (x : List Byte) : Nat := x.foldl (fun v b => (v <<< 1) ||| b.toNat) 0

/-- A field's value in its DMEM encoding (R282). -/
def encodeValue (kind : FieldKind) (x : List Byte) : List Byte :=
  match kind with
  | .bitArray => x
  | .byteArray => packBytes x
  | .uint => toLE64 (uintValue x)

/-- val_f for every field: the cursor advances by each field's length (R280, R288). -/
def decodeFields : List Field → List Byte → List (List Byte)
  | [], _ => []
  | f :: fs, bits => encodeValue f.kind (bits.take f.len) :: decodeFields fs (bits.drop f.len)

/-- The default values of the constant fields, by field; none where one of their bytes is unwritten (R287, R288). -/
def readDefaults (m : Memory) : List Field → Option (List (Option (List Byte)))
  | [] => some []
  | f :: fs =>
    match readDefaults m fs with
    | none => none
    | some ds =>
      if f.isConst then
        match m.readRange f.defAddr f.size with
        | none => none
        | some d => some (some d :: ds)
      else some (none :: ds)

/-- mism: how many constant fields differ from their default (R287). -/
def mismatchCount : List (List Byte) → List (Option (List Byte)) → Nat
  | v :: vs, some d :: ds => (if v = d then 0 else 1) + mismatchCount vs ds
  | _ :: vs, none :: ds => mismatchCount vs ds
  | _, _ => 0

/-- Some constant field's default region satisfies p (R288's "exists f in C"). -/
def anyConstant (fs : List Field) (p : Nat → Nat → Bool) : Bool := fs.any (fun f => f.isConst && p f.defAddr f.size)

/-- UNP once its schema is read and legal (R288, from the width check on). -/
def unpackFields (fs : List Field) (s : State) : Host.Outcome State Fault Refusal :=
  let src := s.argNat 0
  let n := s.argNat 1
  let sch := s.argNat 2
  let count := s.argNat 3
  let dst := s.argNat 4
  let w := totalSize fs
  if fs.any Field.tooWide then .next (s.raiseErr .unsupported)
  else if totalBits fs ≠ n then .next (s.raiseErr .lengthMismatch)
  else if !(s.inRange src n && s.inRange dst w) || anyConstant fs (fun a k => !s.inRange a k) then
    .next (s.raiseErr .address)
  else if overlaps dst w src n || overlaps dst w sch (descSize * count)
      || anyConstant fs (fun a k => overlaps dst w a k) then
    .next (s.raiseErr .overlap)
  else match s.dmem.readRange src n, readDefaults s.dmem fs with
    | some bits, some defaults =>
      if !allHard bits then .next (s.raiseErr .invalidArgument)
      else
        let values := decodeFields fs bits
        let mism := mismatchCount values defaults
        .next ((s.complete dst values.flatten w mism).setPduValid (pduValidFlag mism))
    | _, _ => .next s.meetUninit

/-- UNP (R288). -/
def execUnp (s : State) : Host.Outcome State Fault Refusal :=
  let sch := s.argNat 2
  let count := s.argNat 3
  if !s.inRange sch (descSize * count) then .next (s.raiseErr .address)
  else match s.dmem.readRange sch (descSize * count) with
    | none => .next s.meetUninit
    | some desc =>
      match schemaOf desc with
      | none => .next (s.raiseErr .invalidArgument)
      | some fs => unpackFields fs s

end Sys2Proof.Machine
end

