-- ==== Sys2Proof/Machine/Viterbi.lean ====
section
/-! DEFINITION. The Viterbi decoder: the mother code, the metrics, the add-compare-select recursion, the traceback, and
VIT (44_viterbi.md, R220-R233). The orientation of the trellis, the output order and the initial metrics are the spec's
own, from general knowledge (R221, R222, R225, log 10). -/

namespace Sys2Proof.Machine

/-- A trellis state: the last four input bits, bit 0 the newest (R221). -/
abbrev Trellis := BitVec 4

/-- A path metric: a natural number, or none for ∞ (R224). -/
abbrev Metric := Option Nat

/-- The sixteen states in number order (R220). -/
def trellisStates : List Trellis := (List.range 16).map (BitVec.ofNat 4)

/-- The register of a step from state p with input bit b (R221). -/
def stepRegister (p : Trellis) (b : Bool) : BitVec 5 := (p.zeroExtend 5 <<< 1) ||| (if b then 1 else 0)

/-- The state after a step: bits 3:0 of its register (R221). -/
def nextState (r : BitVec 5) : Trellis := r.truncate 4

/-- p_x: the predecessor of s whose oldest bit is x (R221). -/
def predecessor (s : Trellis) (x : Bool) : Trellis := (s >>> 1) ||| (if x then 8 else 0)

/-- The register of the transition from p_x into s (R221). -/
def incomingRegister (s : Trellis) (x : Bool) : BitVec 5 := s.zeroExtend 5 ||| (if x then 16 else 0)

/-- c_0(r)..c_3(r): the expected output bits (R222). -/
def expectedBits (r : BitVec 5) : List Bool := generators.map (fun g => parity (r &&& g))

/-- One sample's cost: |y - (expected ? 255 : 0)| (R13, R223). -/
def bitCost (expected : Bool) (y : Byte) : Nat := if expected then 255 - y.toNat else y.toNat

/-- BM(t, r), from the four samples of step t (R223). -/
def branchMetric (y : List Byte) (r : BitVec 5) : Nat := (List.zipWith bitCost (expectedBits r) y).sum

/-- The mother code of an input sequence from state p: four bits a step, in step order (R222). -/
def convFrom (p : Trellis) : List Bool → List Bool
  | [] => []
  | b :: bs => expectedBits (stepRegister p b) ++ convFrom (nextState (stepRegister p b)) bs

/-- conv(u): the codeword of u from the start state 0 (R221, R222). -/
def conv (u : List Bool) : List Bool := convFrom 0 u

/-- ∞ + n = ∞ (R224). -/
def Metric.plus (m : Metric) (n : Nat) : Metric := m.map (· + n)

/-- n < ∞ for every n; ∞ is not below anything (R224). -/
def Metric.less : Metric → Metric → Bool
  | some a, some b => decide (a < b)
  | some _, none => true
  | none, _ => false

/-- PM(s), from the metrics of the sixteen states in number order. -/
def metricOf (pm : List Metric) (s : Trellis) : Metric := pm.getD s.toNat none

/-- PM_0 (R225). -/
def initialMetrics : List Metric := trellisStates.map (fun s => if s = 0 then some 0 else none)

/-- cand_x for state s (R224). -/
def candidate (pm : List Metric) (y : List Byte) (s : Trellis) (x : Bool) : Metric :=
  (metricOf pm (predecessor s x)).plus (branchMetric y (incomingRegister s x))

/-- D_t(s): 1 only where cand_1 < cand_0 (R224, R226). -/
def decision (pm : List Metric) (y : List Byte) (s : Trellis) : Bool :=
  (candidate pm y s true).less (candidate pm y s false)

/-- D_t, over the sixteen states (R226). -/
def decisions (pm : List Metric) (y : List Byte) : List Bool := trellisStates.map (decision pm y)

/-- PM_{t+1}, over the sixteen states (R224). -/
def nextMetrics (pm : List Metric) (y : List Byte) : List Metric :=
  trellisStates.map (fun s => candidate pm y s (decision pm y s))

/-- The recursion over all steps (R224): the last metrics and the decision record, newest step first (R226). -/
def forwardPass : List Byte → List Metric → List (List Bool) → List Metric × List (List Bool)
  | y0 :: y1 :: y2 :: y3 :: rest, pm, record =>
    forwardPass rest (nextMetrics pm [y0, y1, y2, y3]) (decisions pm [y0, y1, y2, y3] :: record)
  | _, pm, record => (pm, record)

/-- The traceback (R228): from the state after the newest step, the decoded bits put before those already found. -/
def traceback : List (List Bool) → Trellis → List Byte → List Byte
  | [], _, out => out
  | d :: older, s, out =>
    traceback older (predecessor s (d.getD s.toNat false)) (hardBit (s.getLsbD 0) :: out)

/-- VIT.ZERO's final state: the flush state (R227). -/
def flushState (_ : List Metric) : Trellis := 0

/-- VIT.MIN's final state: the least metric, the lowest-numbered state on a tie (R227). -/
def leastState (pm : List Metric) : Trellis :=
  trellisStates.foldl (fun best s => if (metricOf pm s).less (metricOf pm best) then s else best) 0

/-- The decoded bits û and the metric PM_N(s_N), for a rule that picks the final state (R227, R228, R230). -/
def viterbi (final : List Metric → Trellis) (y : List Byte) : List Byte × Metric :=
  let run := forwardPass y initialMetrics []
  (traceback run.2 (final run.1) [], metricOf run.1 (final run.1))

/-- VIT (R231) with the final-state policy of its MODE (R227). PM_N(s_N) is always finite (R230), so the 0 is not used. -/
def viterbiCommand (final : List Metric → Trellis) (s : State) : Host.Outcome State Fault Refusal :=
  let src := s.argNat 0
  let nIn := s.argNat 1
  let dst := s.argNat 2
  let nOut := s.argNat 3
  if nIn = 0 ∨ nIn % 4 ≠ 0 then .next (s.raiseErr .invalidArgument)
  else if nOut > nIn / 4 then .next (s.raiseErr .invalidArgument)
  else if !(s.inRange src nIn && s.inRange dst nOut) then .next (s.raiseErr .address)
  else if overlaps dst nOut src nIn then .next (s.raiseErr .overlap)
  else match s.dmem.readRange src nIn with
    | none => .next s.meetUninit
    | some y => .next (s.complete dst ((viterbi final y).1.take nOut) nOut ((viterbi final y).2.getD 0))

/-- VIT.ZERO (R231). -/
def execVitZero (s : State) : Host.Outcome State Fault Refusal := viterbiCommand flushState s

/-- VIT.MIN (R231). -/
def execVitMin (s : State) : Host.Outcome State Fault Refusal := viterbiCommand leastState s

end Sys2Proof.Machine
end

