-- ==== Sys2Proof/Machine/Dispatch.lean ====
section
/-! DEFINITION. What each command does when the block performs it (R312, R320): one arm per constructor of Instr. -/

namespace Sys2Proof.Machine

def exec (i : Instr) (s : State) : Host.Outcome State Fault Refusal :=
  match i with
  | .h2s => Sys2Proof.Machine.execH2S s
  | .s2h => Sys2Proof.Machine.execS2H s
  | .scrseq => Sys2Proof.Machine.execScrseq s
  | .scrHard => Sys2Proof.Machine.execScrHard s
  | .scrSoft => Sys2Proof.Machine.execScrSoft s
  | .dil => Sys2Proof.Machine.execDil s
  | .dpn rate => Sys2Proof.Machine.execDpn rate s
  | .vitZero => Sys2Proof.Machine.execVitZero s
  | .vitMin => Sys2Proof.Machine.execVitMin s
  | .crc16 => Sys2Proof.Machine.execCrc16 s
  | .crcchk => Sys2Proof.Machine.execCrcchk s
  | .unp => Sys2Proof.Machine.execUnp s

end Sys2Proof.Machine
end

