-- ==== Sys2Proof/WellFormed.lean ====
section
/-! DEFINITION. Which commands have an encoding: DPN's rate code is a 4-bit MODE field (R101); a host program's RUN
names at most the eight argument registers (R114). -/

namespace Sys2Proof

/-- The rate code fits MODE[3:0] (R101, R202). Every other command has no field to check. -/
def Instr.wellFormed : Instr → Bool
  | .h2s => true
  | .s2h => true
  | .scrseq => true
  | .scrHard => true
  | .scrSoft => true
  | .dil => true
  | .dpn rate => decide (rate < 16)
  | .vitZero => true
  | .vitMin => true
  | .crc16 => true
  | .crcchk => true
  | .unp => true

/-- A line names registers that exist and commands that have an encoding (R43, R113, R114). -/
def HostLine.wellFormed : HostLine → Bool
  | .wr _ _ => true
  | .rd _ => true
  | .sb _ _ => true
  | .lb _ => true
  | .wrCmd i => i.wellFormed
  | .wait => true
  | .run i operands => i.wellFormed && decide (operands.length ≤ 8)
  | .sbs _ _ => true
  | .clrDone => true

end Sys2Proof
end

