-- ==== Sys2Proof/Decode.lean ====
section
/-! DEFINITION. The command word: its fields, its decoder (total, rejecting by name) and its encoder (R100-R106, R115). -/

namespace Sys2Proof

/-- Why a word selects no command, in the order of R103's checks. -/
inductive DecodeError where
  /-- RSV ≠ 0 (R103 check 1). -/
  | reservedBits
  /-- OPC not in R104 (R103 check 2). -/
  | unknownOpcode
  /-- MODE not legal for the opcode by R105 (R103 check 3). -/
  | illegalMode
deriving DecidableEq, Repr

/-- OPC, bits 7:0 (R101). -/
def opcField (w : Word) : Nat := w.toNat % 256

/-- MODE, bits 11:8 (R101). -/
def modeField (w : Word) : Nat := w.toNat / 256 % 16

/-- RSV, bits 31:12 (R101). -/
def rsvField (w : Word) : Nat := w.toNat / 4096

/-- For an opcode whose only legal MODE is 0 (R105). -/
def onlyModeZero (mode : Nat) (i : Instr) : Except DecodeError Instr :=
  if mode = 0 then .ok i else .error .illegalMode

/-- For an opcode with the two modes 0 and 1 (R105). -/
def modeZeroOrOne (mode : Nat) (i0 i1 : Instr) : Except DecodeError Instr :=
  if mode = 0 then .ok i0 else if mode = 1 then .ok i1 else .error .illegalMode

/-- R103: the decoder, total on every word; the three checks in their order. -/
def decode (w : Word) : Except DecodeError Instr :=
  if rsvField w ≠ 0 then .error .reservedBits
  else match opcField w with
    | 0x01 => onlyModeZero (modeField w) .h2s
    | 0x02 => onlyModeZero (modeField w) .s2h
    | 0x10 => onlyModeZero (modeField w) .scrseq
    | 0x11 => modeZeroOrOne (modeField w) .scrHard .scrSoft
    | 0x20 => onlyModeZero (modeField w) .dil
    | 0x30 => .ok (.dpn (modeField w))
    | 0x40 => modeZeroOrOne (modeField w) .vitZero .vitMin
    | 0x50 => onlyModeZero (modeField w) .crc16
    | 0x51 => onlyModeZero (modeField w) .crcchk
    | 0x60 => onlyModeZero (modeField w) .unp
    | _ => .error .unknownOpcode

/-- R101: the word with RSV = 0 and the given MODE and OPC. -/
def commandWord (mode opc : Nat) : Word := BitVec.ofNat 32 (mode % 16 * 256 + opc % 256)

/-- The command word of each command (R104, R105, R115). -/
def encode : Instr → Word
  | .h2s => commandWord 0 0x01
  | .s2h => commandWord 0 0x02
  | .scrseq => commandWord 0 0x10
  | .scrHard => commandWord 0 0x11
  | .scrSoft => commandWord 1 0x11
  | .dil => commandWord 0 0x20
  | .dpn rate => commandWord rate 0x30
  | .vitZero => commandWord 0 0x40
  | .vitMin => commandWord 1 0x40
  | .crc16 => commandWord 0 0x50
  | .crcchk => commandWord 0 0x51
  | .unp => commandWord 0 0x60

/-- The command the decoder reads from the first `nbits` bits of `w`, numbered as spec/opcode_table.json numbers them;
the bits above are 0. -/
def decodeTableWord (nbits w : Nat) : Option Instr :=
  match decode (BitVec.ofNat 32 (w % 2 ^ nbits)) with
  | .ok i => some i
  | .error _ => none

end Sys2Proof
end

