-- ==== Sys2Proof/Machine/Host.lean ====
section
/-! DEFINITION. The host agent: the address map, register and DMEM accesses, the hazard of a busy block, and the
expansion of a host program's lines (R33-R46, R71-R73, R113, R114, R330, R360). -/

namespace Sys2Proof.Machine

/-- What a bus access names (R71). -/
inductive Target where
  | reg (r : Reg)
  | dmem (a : Nat)
  /-- No listed register as a whole word and no DMEM byte as a byte: model fault MF_BUS (R46, R71, R72). -/
  | unmapped
deriving DecidableEq, Repr

/-- A register's offset from BLOCK_BASE (R33). -/
def regOffset : Reg → Nat
  | .ctrl => 0x00
  | .status => 0x04
  | .cmd => 0x08
  | .ilDepth => 0x0C
  | .arg k => 0x10 + 4 * k.val
  | .result0 => 0x30
  | .result1 => 0x34

/-- The register at an offset (R33, R46). -/
def regAt : Nat → Option Reg
  | 0x00 => some .ctrl
  | 0x04 => some .status
  | 0x08 => some .cmd
  | 0x0C => some .ilDepth
  | 0x10 => some (.arg 0)
  | 0x14 => some (.arg 1)
  | 0x18 => some (.arg 2)
  | 0x1C => some (.arg 3)
  | 0x20 => some (.arg 4)
  | 0x24 => some (.arg 5)
  | 0x28 => some (.arg 6)
  | 0x2C => some (.arg 7)
  | 0x30 => some .result0
  | 0x34 => some .result1
  | _ => none

/-- What an access of a width names at an offset from BLOCK_BASE (R46, R71, R72). -/
def targetAt (c : Config) (bytes off : Nat) : Target :=
  if dmemWindow ≤ off ∧ off < dmemWindow + c.dmemSize then
    if bytes = 1 then .dmem (off - dmemWindow) else .unmapped
  else if bytes = 4 then
    match regAt off with
    | some r => .reg r
    | none => .unmapped
  else .unmapped

/-- What an access at a host address names; below BLOCK_BASE nothing is mapped (R71, log 8). -/
def busTarget (c : Config) (bytes addr : Nat) : Target :=
  if addr < c.blockBase then .unmapped else targetAt c bytes (addr - c.blockBase)

/-- The registers the host may access while BUSY = 1 (R360). -/
def openWhileBusy : Reg → Bool
  | .ctrl => true
  | .status => true
  | _ => false

/-- MF_BUS joins FAULTS (R330). -/
def State.addBus (s : State) : State := { s with faults := { s.faults with bus := true } }

/-- MF_HAZARD joins FAULTS (R330, R360). -/
def State.addHazard (s : State) : State := { s with faults := { s.faults with hazard := true } }

/-- MF_UNINIT joins FAULTS at a host load of an unwritten byte (R48, log 6). -/
def State.addUninit (s : State) : State := { s with faults := { s.faults with uninit := true } }

/-- An access to nothing mapped: MF_BUS, and MF_HAZARD too while BUSY = 1 (R46, R360, log 7). -/
def State.refuseUnmapped (s : State) : State := if s.status.busy then s.addBus.addHazard else s.addBus

/-- What a load returns, or that it returns no value (R72, R330). -/
def State.setHostData (s : State) (d : Option Word) : State := { s with hostData := d }

/-- The word a host reads from a register; reserved bits read 0 (R33, R41, R45). -/
def readReg (s : State) : Reg → Word
  | .ctrl => s.ctrl.word
  | .status => s.status.word
  | .cmd => s.cmd
  | .ilDepth => s.ilDepth.zeroExtend 32
  | .arg k => s.args.get k
  | .result0 => s.result0
  | .result1 => s.result1

/-- A host write to a register; reserved bits and read-only registers ignore it (R33, R34, R37, R41-R45). -/
def writeReg (s : State) (r : Reg) (w : Word) : State :=
  match r with
  | .ctrl => { s with ctrl := { irqEn := w.getLsbD 0 } }
  | .status => { s with status := { s.status with done := s.status.done && !w.getLsbD 1 } }
  | .cmd => s.startCommand w
  | .ilDepth => { s with ilDepth := w.truncate 16 }
  | .arg k => { s with args := s.args.set k w }
  | .result0 => s
  | .result1 => s

/-- A host load (R46, R72, R73, R330, R360). -/
def hostLoad (s : State) : Target → State
  | .unmapped => s.refuseUnmapped.setHostData none
  | .reg r =>
    if s.status.busy && !openWhileBusy r then s.addHazard.setHostData none
    else s.setHostData (some (readReg s r))
  | .dmem a =>
    if s.status.busy then s.addHazard.setHostData none
    else match s.dmem.read a with
      | some b => s.setHostData (some (b.zeroExtend 32))
      | none => s.addUninit.setHostData none

/-- A host store (R41, R46, R72, R73, R330, R360). -/
def hostStore (s : State) (t : Target) (w : Word) : State :=
  match t with
  | .unmapped => s.refuseUnmapped
  | .reg r => if s.status.busy && !openWhileBusy r then s.addHazard else writeReg s r w
  | .dmem a =>
    if s.status.busy then s.addHazard else { s with dmem := s.dmem.write a (w.truncate 8) }

/-- The host has done the first operation of its program. -/
def State.popHost (s : State) : State := { s with hostProgram := s.hostProgram.tail }

/-- The host's turn: its next operation; with nothing left to do, nothing changes. WAIT stays until BUSY reads 0 (R114). -/
def hostTurn (s : State) : State :=
  match s.hostProgram with
  | [] => s
  | .load bytes addr :: _ => hostLoad s.popHost (busTarget s.cfg bytes addr)
  | .store bytes addr w :: _ => hostStore s.popHost (busTarget s.cfg bytes addr) w
  | .wait :: _ =>
    if s.status.busy then hostLoad s (.reg .status) else hostLoad s.popHost (.reg .status)

/-! Host programs (R113, R114). -/

/-- WR: a 32-bit write to a register (R113). -/
def writeOp (c : Config) (r : Reg) (w : Word) : HostOp := .store 4 (c.blockBase + regOffset r) w

/-- RD: a 32-bit read of a register (R113). -/
def readOp (c : Config) (r : Reg) : HostOp := .load 4 (c.blockBase + regOffset r)

/-- SB: a DMEM byte store (R72, R113). -/
def storeByteOp (c : Config) (a : Nat) (b : Byte) : HostOp :=
  .store 1 (c.blockBase + dmemWindow + a) (b.zeroExtend 32)

/-- LB: a DMEM byte load (R72, R113). -/
def loadByteOp (c : Config) (a : Nat) : HostOp := .load 1 (c.blockBase + dmemWindow + a)

/-- SBS, SBH: one SB a value, at consecutive addresses (R114). -/
def storeBytesOps (c : Config) : Nat → List Byte → List HostOp
  | _, [] => []
  | a, b :: bs => storeByteOp c a b :: storeBytesOps c (a + 1) bs

/-- RUN's writes of ARG0, ARG1, ... (R114). -/
def writeArgsOps (c : Config) : List (Fin 8) → List Word → List HostOp
  | k :: ks, v :: vs => writeOp c (.arg k) v :: writeArgsOps c ks vs
  | _, _ => []

/-- A line's operations on the bus (R113, R114). -/
def expandLine (c : Config) : HostLine → List HostOp
  | .wr r w => [writeOp c r w]
  | .rd r => [readOp c r]
  | .sb a b => [storeByteOp c a b]
  | .lb a => [loadByteOp c a]
  | .wrCmd i => [writeOp c .cmd (encode i)]
  | .wait => [.wait]
  | .run i vs => writeArgsOps c [0, 1, 2, 3, 4, 5, 6, 7] vs ++ [writeOp c .cmd (encode i), .wait]
  | .sbs a bs => storeBytesOps c a bs
  | .clrDone => [writeOp c .status 0x00000002]

/-- A program's operations on the bus. -/
def expandProgram (c : Config) (lines : List HostLine) : List HostOp := lines.flatMap (expandLine c)

end Sys2Proof.Machine
end

