-- ==== Sys2Proof/Machine/Block.lean ====
section
/-! DEFINITION. The block agent's turn, and whose turn a step is (R82, R320, R331, R337, R362). -/

namespace Sys2Proof.Machine

/-- The block performs the command in PENDING (R103, R106, R320). Idle, it changes nothing (R337); stuck, it has no
further step (R331). -/
def blockTurn (s : State) : Host.Outcome State Fault Refusal :=
  if !s.status.busy then .next s
  else if s.stuck then .fault .blockStuck
  else match decode s.pending with
    | .error _ => .next (s.raiseErr .illegalCmd)
    | .ok i => exec i s

/-- Whose turn it is: the schedule's first; after it, the block's while a command is pending, else the host's, so that a
pending command is always performed in the end (R320, R362, log 2). -/
def nextTurn (s : State) : Turn :=
  match s.schedule with
  | t :: _ => t
  | [] => if s.status.busy then .block else .host

/-- The turn is taken off the schedule. -/
def State.popTurn (s : State) : State := { s with schedule := s.schedule.tail }

/-- One agent's turn. -/
def takeTurn (t : Turn) (s : State) : Host.Outcome State Fault Refusal :=
  match t with
  | .host => .next (hostTurn s)
  | .block => blockTurn s
  | .reset => .next s.resetBlock

/-- The command word w pending, with the block's turn next, as after the host's CMD write of w (R41, log 3). -/
def State.commandPending (s : State) (w : Word) : State :=
  { s.startCommand w with stuck := false, schedule := .block :: s.schedule }

end Sys2Proof.Machine
end

