-- ==== Sys2Proof/Machine/Step.lean ====
section
/-! DEFINITION. One step of the machine: one turn of the host, the block or the platform (R82). -/

namespace Sys2Proof.Machine

/-- The next state, or the fault of a stuck block. -/
def step (s : State) : Host.Outcome State Fault Refusal := takeTurn (nextTurn s) s.popTurn

/-- s with the command word w (its first nbits bits; those above are 0) written to CMD and the block's turn next (log 3). -/
def State.withFetchWord (s : State) (nbits w : Nat) : State :=
  s.commandPending (BitVec.ofNat 32 (w % 2 ^ nbits))

end Sys2Proof.Machine
end

