-- ==== Sys2Proof/Safety.lean ====
section
/-! DEFINITION. The terms claims are stated in: regions of DMEM and what they hold, how a command ends, which words are
illegal, and the invariant of the machine. Written over single bytes of DMEM, apart from the operations of the meanings. -/

namespace Sys2Proof.Machine

/-- The region (a, n) is in range (R74). -/
abbrev Fits (s : State) (a n : Nat) : Prop := n = 0 ∨ a + n ≤ s.cfg.dmemSize

/-- The two regions share a byte (R75). -/
abbrev SharesByte (a1 n1 a2 n2 : Nat) : Prop := ∃ x, x < a1 + n1 ∧ a1 ≤ x ∧ a2 ≤ x ∧ x < a2 + n2

/-- The region at a holds the sequence bs: element i is DMEM[a + i] (R77). -/
abbrev Holds (s : State) (a : Nat) (bs : List Byte) : Prop :=
  ∀ i, i < bs.length → s.dmem.read (a + i) = bs[i]?

/-- The region (a, n) has an unwritten byte (R48, R76). -/
abbrev HasUnwritten (s : State) (a n : Nat) : Prop := ∃ i, i < n ∧ s.dmem.read (a + i) = none

/-- Every element is 0 or 1 (R12). -/
abbrev HardBits (bs : List Byte) : Prop := ∀ b ∈ bs, b = 0 ∨ b = 1

/-- From s to t, the region at dst comes to hold out and every other byte reads as before (R81). -/
abbrev WritesOnly (s t : State) (dst : Nat) (out : List Byte) : Prop :=
  Holds t dst out ∧ ∀ a, a < dst ∨ dst + out.length ≤ a → t.dmem.read a = s.dmem.read a

/-- Success completion with the flags as given: apart from DMEM, only RESULT0, RESULT1 and STATUS change (R321). -/
abbrev SucceedsWithFlags (s t : State) (r0 r1 : Nat) (crcOk pduValid : Bool) : Prop :=
  t = { s with
    dmem := t.dmem
    result0 := BitVec.ofNat 32 r0
    result1 := BitVec.ofNat 32 r1
    status := { busy := false, done := true, err := 0, crcOk := crcOk, pduValid := pduValid } }

/-- Success completion of a command that leaves both flags alone (R47, R321). -/
abbrev Succeeds (s t : State) (r0 r1 : Nat) : Prop :=
  SucceedsWithFlags s t r0 r1 s.status.crcOk s.status.pduValid

/-- Error completion with a status code: only RESULT0, RESULT1 and STATUS change (R322). -/
abbrev FailsWith (s t : State) (code : BitVec 4) : Prop :=
  t = { s with
    result0 := 0
    result1 := 0
    status := { s.status with busy := false, done := true, err := code } }

/-- The block met an unwritten byte: MF_UNINIT joins FAULTS, nothing else of the block changes, and it is stuck (R331). -/
abbrev MeetsUninit (s t : State) : Prop :=
  t = { s with faults := { s.faults with uninit := true }, stuck := true }

/-- exec answers a next state that P describes. -/
abbrev Ends (i : Instr) (s : State) (P : State → Prop) : Prop := ∃ t, exec i s = .next t ∧ P t

/-! Schema descriptors by index (R111, R112), over the descriptor bytes as a list. -/

/-- LEN of descriptor f: LE16 at offset 0 (R112). -/
def descLen (desc : List Byte) (f : Nat) : Nat :=
  (desc.getD (8 * f) 0).toNat + 256 * (desc.getD (8 * f + 1) 0).toNat

/-- KIND of descriptor f, at offset 2 (R112). -/
def descKind (desc : List Byte) (f : Nat) : Byte := desc.getD (8 * f + 2) 0

/-- FLAGS of descriptor f, at offset 3 (R112). -/
def descFlags (desc : List Byte) (f : Nat) : Byte := desc.getD (8 * f + 3) 0

/-- DEF of descriptor f: LE32 at offset 4 (R112). -/
def descDef (desc : List Byte) (f : Nat) : Nat :=
  (desc.getD (8 * f + 4) 0).toNat + 256 * (desc.getD (8 * f + 5) 0).toNat
    + 65536 * (desc.getD (8 * f + 6) 0).toNat + 16777216 * (desc.getD (8 * f + 7) 0).toNat

/-- IS_CONST of descriptor f (R112). -/
def descConst (desc : List Byte) (f : Nat) : Bool := (descFlags desc f).getLsbD 0

/-- KIND > 2 or FLAGS[7:1] ≠ 0 (R112, R288). -/
abbrev descBad (desc : List Byte) (f : Nat) : Prop := 2 < (descKind desc f).toNat ∨ descFlags desc f >>> 1 ≠ 0

/-- vsize_f (R281). -/
def valueSize (desc : List Byte) (f : Nat) : Nat :=
  if descKind desc f = 0 then descLen desc f
  else if descKind desc f = 1 then (descLen desc f + 7) / 8
  else 8

/-- Σ_{g<f} LEN_g: off_f, and for f = F the total bit length (R280). -/
def bitOffset (desc : List Byte) (f : Nat) : Nat := ((List.range f).map (descLen desc)).sum

/-- Σ_{g<f} vsize_g: where value f starts in the output area, and for f = F its size W (R281). -/
def valueOffset (desc : List Byte) (f : Nat) : Nat := ((List.range f).map (valueSize desc)).sum

/-- The slice of field f and its value in the encoding of its KIND (R280, R282). -/
def fieldValue (desc bits : List Byte) (f : Nat) : List Byte :=
  let x := (bits.drop (bitOffset desc f)).take (descLen desc f)
  if descKind desc f = 0 then x
  else if descKind desc f = 1 then packBytes x
  else toLE64 (uintValue x)

/-- The region of every constant field's default satisfies P (R288's "exists f in C", negated). -/
abbrev ForConstants (desc : List Byte) (count : Nat) (P : Nat → Nat → Prop) : Prop :=
  ∀ f, f < count → descConst desc f = true → P (descDef desc f) (valueSize desc f)

/-- mism: the constant fields whose value differs from their default, the default of f being what its region holds (R287). -/
def mismatches (m : Memory) (desc bits : List Byte) (count : Nat) : Nat :=
  ((List.range count).filter (fun f => descConst desc f
    && decide (m.readRange (descDef desc f) (valueSize desc f) ≠ some (fieldValue desc bits f)))).length

/-- The opcodes of R104. -/
def opcodes : List Nat := [0x01, 0x02, 0x10, 0x11, 0x20, 0x30, 0x40, 0x50, 0x51, 0x60]

/-- MODE values the decoder accepts for an opcode: all for DPN, 0 and 1 for SCR and VIT, else 0 (R103, R105). -/
def modeAccepted (opc mode : Nat) : Bool :=
  opc == 0x30 || mode == 0 || (mode == 1 && (opc == 0x11 || opc == 0x40))

/-- A word that is illegal by R106, from its fields (R101). -/
abbrev illegalWord (w : Word) : Prop :=
  w >>> 12 ≠ 0 ∨ (w &&& 0xFF).toNat ∉ opcodes
    ∨ modeAccepted (w &&& 0xFF).toNat ((w >>> 8) &&& 0xF).toNat = false

/-- The status codes each command can produce besides OK, but for code 1, which decoding produces (R313). -/
def codesOf : Instr → List (BitVec 4)
  | .h2s => [6, 7, 2]
  | .s2h => [6, 7]
  | .scrseq => [2, 6, 7]
  | .scrHard => [3, 6, 7, 2]
  | .scrSoft => [3, 6, 7, 2]
  | .dil => [4, 6, 7]
  | .dpn _ => [4, 6, 7]
  | .vitZero => [2, 6, 7]
  | .vitMin => [2, 6, 7]
  | .crc16 => [6, 7, 2]
  | .crcchk => [6, 2]
  | .unp => [6, 2, 4, 3, 7]

/-- The ARG registers a command reads (R107). -/
def argsNamed : Instr → List (Fin 8)
  | .h2s => [0, 1, 2]
  | .s2h => [0, 1, 2]
  | .scrseq => [0, 1, 2, 3]
  | .scrHard => [0, 1, 2, 3, 4]
  | .scrSoft => [0, 1, 2, 3, 4]
  | .dil => [0, 1, 2]
  | .dpn _ => [0, 1, 2]
  | .vitZero => [0, 1, 2, 3]
  | .vitMin => [0, 1, 2, 3]
  | .crc16 => [0, 1, 2]
  | .crcchk => [0, 1]
  | .unp => [0, 1, 2, 3, 4]

/-- The cost of an input sequence against the samples: the sum over all output bits of the mother code (R222, R223). -/
def pathCost (u : List Bool) (y : List Byte) : Nat := (List.zipWith bitCost (conv u) y).sum

/-- The trellis state after an input sequence (R221). -/
def endState (u : List Bool) : Trellis := u.foldl (fun p b => nextState (stepRegister p b)) 0

/-- A run has met no model fault: the premise of every claim about a run (R330). -/
abbrev State.clean (s : State) : Prop := s.faults = { bus := false, hazard := false, uninit := false }

/-- A final state. That a state with a model fault is none is R52's and R330's; which of the others are final the spec does
not say. DESIGN CHOICE (log 15): those with nothing pending and nothing left for the host and the platform to do. -/
abbrev State.final (s : State) : Prop :=
  s.clean ∧ s.status.busy = false ∧ s.hostProgram = [] ∧ s.schedule = []

/-- The block's turn, with a command pending that it can perform (R320, R331). -/
abbrev BlockPerforms (s : State) : Prop := nextTurn s = .block ∧ s.status.busy = true ∧ s.stuck = false

/-- The host's turn, with op the next operation of its program. -/
abbrev HostDoes (s : State) (op : HostOp) : Prop := nextTurn s = .host ∧ s.hostProgram.head? = some op

/-- Every register and latch at its reset value, FAULTS empty, every DMEM byte unwritten (R350, R351). -/
abbrev IsReset (s : State) : Prop :=
  readReg s .ctrl = 0 ∧ readReg s .status = 0 ∧ readReg s .cmd = 0 ∧ readReg s .ilDepth = 11
    ∧ (∀ k, readReg s (.arg k) = 0) ∧ readReg s .result0 = 0 ∧ readReg s .result1 = 0
    ∧ s.pending = 0 ∧ s.clean ∧ s.irq = false ∧ ∀ a, s.dmem.read a = none

/-- The codes STATUS.ERR can hold (R310, R311). -/
abbrev legalErr (e : BitVec 4) : Prop := e = 0 ∨ e = 1 ∨ e = 2 ∨ e = 3 ∨ e = 4 ∨ e = 6 ∨ e = 7

/-- What holds of every state of a run. -/
structure State.Inv (s : State) : Prop where
  /-- DMEM is in its canonical form (log 4). -/
  memWf : s.dmem.wf
  /-- Only bytes of DMEM are written (R48, R70). -/
  memWithin : s.dmem.within s.cfg.dmemSize
  /-- R311. -/
  errLegal : legalErr s.status.err
  /-- While a command is pending the other fields are as its start left them (R36-R41). -/
  busyFresh : s.status.busy = true →
    s.status.done = false ∧ s.status.err = 0 ∧ s.status.crcOk = false ∧ s.status.pduValid = false
  /-- An error leaves results 0 and flags 0 (R39, R40, R322). -/
  errClears : s.status.err ≠ 0 →
    s.result0 = 0 ∧ s.result1 = 0 ∧ s.status.crcOk = false ∧ s.status.pduValid = false
  /-- CRC_OK is CRCCHK's and PDU_VALID is UNP's, so at most one is set (R39, R40). -/
  oneFlag : ¬(s.status.crcOk = true ∧ s.status.pduValid = true)
  /-- The latched word is the word in CMD (R41, R49). -/
  latched : s.pending = s.cmd
  /-- A stuck block keeps BUSY = 1 with MF_UNINIT recorded (R331). -/
  stuckBusy : s.stuck = true → s.status.busy = true ∧ s.faults.uninit = true

end Sys2Proof.Machine
end

