-- ==== Sys2Proof/Certificates/Slice0/Obligations.lean ====
section
/-! DEFINITION. The statements for the provers. Each docstring names the rules of spec/ it formalises or rests on; the
terms are those of Sys2Proof/Safety.lean. -/

open Sys2Proof Sys2Proof.Machine

/-! ## Decoding and the step -/

/-- R101, R103, R104, R105, R115: the decoder reads from a word exactly the command whose encoding the word is. -/
def Obligations.DecodeInvertsEncode : Prop :=
  ∀ (w : Word) (i : Instr), decode w = .ok i ↔ (i.wellFormed = true ∧ encode i = w)

/-- R103, R106: a word selects a command exactly when RSV, OPC and MODE are legal; performing an illegal word is the
error completion with code 1. -/
def Obligations.IllegalWordsCompleteWithError : Prop :=
  (∀ w, illegalWord w ↔ ¬∃ i, decode w = .ok i) ∧
  ∀ s, BlockPerforms s → illegalWord s.pending → ∃ t, step s = .next t ∧ FailsWith s.popTurn t 1

/-- R115: the command words of the mnemonics, and the DPN words of every rate code. -/
def Obligations.CommandWordsDecode : Prop :=
  decode 0x00000001 = .ok .h2s ∧ decode 0x00000002 = .ok .s2h ∧ decode 0x00000010 = .ok .scrseq
    ∧ decode 0x00000011 = .ok .scrHard ∧ decode 0x00000111 = .ok .scrSoft ∧ decode 0x00000020 = .ok .dil
    ∧ decode 0x00000030 = .ok (.dpn 0) ∧ decode 0x00000130 = .ok (.dpn 1) ∧ decode 0x00000F30 = .ok (.dpn 15)
    ∧ decode 0x00000040 = .ok .vitZero ∧ decode 0x00000140 = .ok .vitMin ∧ decode 0x00000050 = .ok .crc16
    ∧ decode 0x00000051 = .ok .crcchk ∧ decode 0x00000060 = .ok .unp

/-- R103, R320: when it is the block's turn and the pending word decodes to a command, the step is that command's
meaning, at the state with the turn taken off the schedule. -/
def Obligations.StepRunsThePendingCommand : Prop :=
  ∀ s i, BlockPerforms s → decode s.pending = .ok i →
    step s = exec i s.popTurn ∧ s.popTurn = { s with schedule := s.schedule.tail }

/-- R331, R337: the only fault of a step is the turn of a stuck block; no step refuses; an idle block and a host with
nothing to do change nothing but the schedule (the schedule and the fault are the model's: log 2, log 5). -/
def Obligations.StepFaultsOnlyWhenStuck : Prop :=
  (∀ s r, step s = .fault r ↔ (nextTurn s = .block ∧ s.status.busy = true ∧ s.stuck = true)) ∧
  (∀ s r, step s ≠ .refused r) ∧
  (∀ s, nextTurn s = .block → s.status.busy = false → step s = .next s.popTurn) ∧
  ∀ s, nextTurn s = .host → s.hostProgram = [] → step s = .next s.popTurn

/-! ## The commands -/

/-- R130: H2S in its check order, with its result. -/
def Obligations.H2SRule : Prop :=
  ∀ s : State,
    let src := s.argNat 0
    let n := s.argNat 1
    let dst := s.argNat 2
    let fits := Fits s src n ∧ Fits s dst n
    let apart := ¬SharesByte dst n src n
    (¬fits → Ends .h2s s (FailsWith s · 6)) ∧
    (fits → ¬apart → Ends .h2s s (FailsWith s · 7)) ∧
    (fits → apart → HasUnwritten s src n → Ends .h2s s (MeetsUninit s ·)) ∧
    ∀ b, b.length = n → Holds s src b → fits → apart →
      (¬HardBits b → Ends .h2s s (FailsWith s · 2)) ∧
      (HardBits b → Ends .h2s s fun t =>
        Succeeds s t n 0 ∧ WritesOnly s t dst (b.map fun v => if v = 1 then 0xFF else 0x00))

/-- R131: S2H in its check order, with its result. -/
def Obligations.S2HRule : Prop :=
  ∀ s : State,
    let src := s.argNat 0
    let n := s.argNat 1
    let dst := s.argNat 2
    let fits := Fits s src n ∧ Fits s dst n
    let apart := ¬SharesByte dst n src n
    (¬fits → Ends .s2h s (FailsWith s · 6)) ∧
    (fits → ¬apart → Ends .s2h s (FailsWith s · 7)) ∧
    (fits → apart → HasUnwritten s src n → Ends .s2h s (MeetsUninit s ·)) ∧
    ∀ b, b.length = n → Holds s src b → fits → apart →
      Ends .s2h s fun t =>
        Succeeds s t n 0 ∧ WritesOnly s t dst (b.map fun v => if v.toNat < 0x80 then 0 else 1)

/-- R151, R152: SCRSEQ in its check order; its output obeys the recurrence over the buffer p of R151. -/
def Obligations.ScrseqRule : Prop :=
  ∀ s : State,
    let cc := s.argNat 0
    let dst := s.argNat 2
    let n := s.argNat 3
    let fits := Fits s cc 30 ∧ Fits s dst n
    let apart := ¬SharesByte dst n cc 30
    (s.argNat 1 ≠ 30 → Ends .scrseq s (FailsWith s · 2)) ∧
    (s.argNat 1 = 30 → ¬fits → Ends .scrseq s (FailsWith s · 6)) ∧
    (s.argNat 1 = 30 → fits → ¬apart → Ends .scrseq s (FailsWith s · 7)) ∧
    (s.argNat 1 = 30 → fits → apart → HasUnwritten s cc 30 → Ends .scrseq s (MeetsUninit s ·)) ∧
    ∀ c, s.argNat 1 = 30 → c.length = 30 → Holds s cc c → fits → apart →
      (¬HardBits c → Ends .scrseq s (FailsWith s · 2)) ∧
      (HardBits c → Ends .scrseq s fun t => ∃ out, out.length = n ∧ Succeeds s t n 0 ∧ WritesOnly s t dst out ∧
        let p := fun k => (1 :: 1 :: c ++ out).getD k 0
        ∀ k, 32 ≤ k → k < 32 + n →
          p k = p (k - 1) ^^^ p (k - 2) ^^^ p (k - 4) ^^^ p (k - 5) ^^^ p (k - 7) ^^^ p (k - 8) ^^^ p (k - 10)
            ^^^ p (k - 11) ^^^ p (k - 12) ^^^ p (k - 16) ^^^ p (k - 22) ^^^ p (k - 23) ^^^ p (k - 26) ^^^ p (k - 32))

/-- R155: SCR.HARD in its check order, with its result. -/
def Obligations.ScrHardRule : Prop :=
  ∀ s : State,
    let src := s.argNat 0
    let n := s.argNat 1
    let sq := s.argNat 2
    let ns := s.argNat 3
    let dst := s.argNat 4
    let fits := Fits s src n ∧ Fits s sq n ∧ Fits s dst n
    let apart := ¬SharesByte dst n src n ∧ ¬SharesByte dst n sq n
    (n ≠ ns → Ends .scrHard s (FailsWith s · 3)) ∧
    (n = ns → ¬fits → Ends .scrHard s (FailsWith s · 6)) ∧
    (n = ns → fits → ¬apart → Ends .scrHard s (FailsWith s · 7)) ∧
    (n = ns → fits → apart → HasUnwritten s src n ∨ HasUnwritten s sq n → Ends .scrHard s (MeetsUninit s ·)) ∧
    ∀ b q, n = ns → b.length = n → q.length = n → Holds s src b → Holds s sq q → fits → apart →
      (¬HardBits q ∨ ¬HardBits b → Ends .scrHard s (FailsWith s · 2)) ∧
      (HardBits q → HardBits b → Ends .scrHard s fun t =>
        Succeeds s t n 0 ∧ WritesOnly s t dst (List.zipWith (fun v e => v ^^^ e) b q))

/-- R155: SCR.SOFT in its check order, with its result. -/
def Obligations.ScrSoftRule : Prop :=
  ∀ s : State,
    let src := s.argNat 0
    let n := s.argNat 1
    let sq := s.argNat 2
    let ns := s.argNat 3
    let dst := s.argNat 4
    let fits := Fits s src n ∧ Fits s sq n ∧ Fits s dst n
    let apart := ¬SharesByte dst n src n ∧ ¬SharesByte dst n sq n
    (n ≠ ns → Ends .scrSoft s (FailsWith s · 3)) ∧
    (n = ns → ¬fits → Ends .scrSoft s (FailsWith s · 6)) ∧
    (n = ns → fits → ¬apart → Ends .scrSoft s (FailsWith s · 7)) ∧
    (n = ns → fits → apart → HasUnwritten s src n ∨ HasUnwritten s sq n → Ends .scrSoft s (MeetsUninit s ·)) ∧
    ∀ b q, n = ns → b.length = n → q.length = n → Holds s src b → Holds s sq q → fits → apart →
      (¬HardBits q → Ends .scrSoft s (FailsWith s · 2)) ∧
      (HardBits q → Ends .scrSoft s fun t =>
        Succeeds s t n 0 ∧ WritesOnly s t dst (List.zipWith (fun v e => v ^^^ (if e = 1 then 0xFF else 0x00)) b q))

/-- R180, R181, R182, R183: DIL in its check order, with its result. -/
def Obligations.DilRule : Prop :=
  ∀ s : State,
    let src := s.argNat 0
    let n := s.argNat 1
    let dst := s.argNat 2
    let a := s.ilDepth.toNat
    let permutes := n = 0 ∨ Nat.gcd a n = 1
    let fits := Fits s src n ∧ Fits s dst n
    let apart := ¬SharesByte dst n src n
    (¬permutes → Ends .dil s (FailsWith s · 4)) ∧
    (permutes → ¬fits → Ends .dil s (FailsWith s · 6)) ∧
    (permutes → fits → ¬apart → Ends .dil s (FailsWith s · 7)) ∧
    (permutes → fits → apart → HasUnwritten s src n → Ends .dil s (MeetsUninit s ·)) ∧
    ∀ b, b.length = n → Holds s src b → permutes → fits → apart →
      Ends .dil s fun t => ∃ out, out.length = n ∧ (∀ i, i < n → out[i]? = b[a * (i + 1) % n]?) ∧
        Succeeds s t n 0 ∧ WritesOnly s t dst out

/-- R200, R201, R202, R203: DPN in its check order, with its result: the punctured bits at their targets, erasures
everywhere else. -/
def Obligations.DpnRule : Prop :=
  ∀ (s : State) (rate : Nat),
    let src := s.argNat 0
    let n := s.argNat 1
    let dst := s.argNat 2
    let u := 4 * (2 * n / 3)
    let target := fun j => 8 * (j / 3) + [0, 1, 4].getD (j % 3) 0
    let fits := Fits s src n ∧ Fits s dst (u + 16)
    let apart := ¬SharesByte dst (u + 16) src n
    (rate ≠ 0 → Ends (.dpn rate) s (FailsWith s · 4)) ∧
    (n % 3 = 1 → Ends (.dpn 0) s (FailsWith s · 4)) ∧
    (n % 3 ≠ 1 → ¬fits → Ends (.dpn 0) s (FailsWith s · 6)) ∧
    (n % 3 ≠ 1 → fits → ¬apart → Ends (.dpn 0) s (FailsWith s · 7)) ∧
    (n % 3 ≠ 1 → fits → apart → HasUnwritten s src n → Ends (.dpn 0) s (MeetsUninit s ·)) ∧
    ∀ b, b.length = n → Holds s src b → n % 3 ≠ 1 → fits → apart →
      Ends (.dpn 0) s fun t => ∃ out, out.length = u + 16 ∧ (∀ j, j < n → out[target j]? = b[j]?) ∧
        (∀ x, x < u + 16 → (∀ j, j < n → x ≠ target j) → out[x]? = some 0x80) ∧
        Succeeds s t (u + 16) u ∧ WritesOnly s t dst out

/-- R227, R229, R231: VIT in both modes, in its check order, with its result; what the decoded bits and the metric are
is said by the statements about `viterbi`. It rests on the trellis, output order and initial metrics of R221, R222 and
R225, which the spec marks as general knowledge (log 10). -/
def Obligations.VitRule : Prop :=
  ∀ (s : State) (i : Instr) (final : List Metric → Trellis),
    (i = .vitZero ∧ final = flushState) ∨ (i = .vitMin ∧ final = leastState) →
    let src := s.argNat 0
    let n := s.argNat 1
    let dst := s.argNat 2
    let m := s.argNat 3
    let lengths := n ≠ 0 ∧ n % 4 = 0 ∧ m ≤ n / 4
    let fits := Fits s src n ∧ Fits s dst m
    let apart := ¬SharesByte dst m src n
    (¬lengths → Ends i s (FailsWith s · 2)) ∧
    (lengths → ¬fits → Ends i s (FailsWith s · 6)) ∧
    (lengths → fits → ¬apart → Ends i s (FailsWith s · 7)) ∧
    (lengths → fits → apart → HasUnwritten s src n → Ends i s (MeetsUninit s ·)) ∧
    ∀ y, y.length = n → Holds s src y → lengths → fits → apart →
      Ends i s fun t => ∃ pm, (viterbi final y).2 = some pm ∧ (viterbi final y).1.length = n / 4 ∧
        Succeeds s t m pm ∧ WritesOnly s t dst ((viterbi final y).1.take m)

/-- R260, R261, R262: CRC16 in its check order, with its result. -/
def Obligations.Crc16Rule : Prop :=
  ∀ s : State,
    let src := s.argNat 0
    let n := s.argNat 1
    let dst := s.argNat 2
    let fits := Fits s src n ∧ Fits s dst 16
    let apart := ¬SharesByte dst 16 src n
    (¬fits → Ends .crc16 s (FailsWith s · 6)) ∧
    (fits → ¬apart → Ends .crc16 s (FailsWith s · 7)) ∧
    (fits → apart → HasUnwritten s src n → Ends .crc16 s (MeetsUninit s ·)) ∧
    ∀ b, b.length = n → Holds s src b → fits → apart →
      (¬HardBits b → Ends .crc16 s (FailsWith s · 2)) ∧
      (HardBits b → Ends .crc16 s fun t =>
        let register : BitVec 16 := b.foldl
          (fun c v => (c >>> 1) ^^^ (if c.getLsbD 0 = decide (v = 1) then 0 else 0x8408)) 0xFFFF
        let crc := register ^^^ 0xFFFF
        Succeeds s t 16 crc.toNat ∧
          WritesOnly s t dst ((List.range 16).map fun i => if crc.getLsbD i then 1 else 0))

/-- R263: CRCCHK in its check order, with its result; DMEM is untouched. -/
def Obligations.CrcchkRule : Prop :=
  ∀ s : State,
    let src := s.argNat 0
    let n := s.argNat 1
    let fits := Fits s src (n + 16)
    (¬fits → Ends .crcchk s (FailsWith s · 6)) ∧
    (fits → HasUnwritten s src (n + 16) → Ends .crcchk s (MeetsUninit s ·)) ∧
    ∀ b rx, b.length = n → rx.length = 16 → Holds s src (b ++ rx) → fits →
      (¬HardBits (b ++ rx) → Ends .crcchk s (FailsWith s · 2)) ∧
      (HardBits (b ++ rx) → Ends .crcchk s fun t =>
        SucceedsWithFlags s t 0 (crc16 b).toNat (decide (crcbits b = rx)) s.status.pduValid ∧ t.dmem = s.dmem)

/-- R288, its checks up to the reads: what UNP answers, in order, where it does not unpack. -/
def Obligations.UnpChecks : Prop :=
  ∀ s : State,
    let src := s.argNat 0
    let n := s.argNat 1
    let sch := s.argNat 2
    let count := s.argNat 3
    let dst := s.argNat 4
    (¬Fits s sch (8 * count) → Ends .unp s (FailsWith s · 6)) ∧
    (Fits s sch (8 * count) → HasUnwritten s sch (8 * count) → Ends .unp s (MeetsUninit s ·)) ∧
    ∀ desc, desc.length = 8 * count → Holds s sch desc → Fits s sch (8 * count) →
      let w := valueOffset desc count
      let legal := ∀ f, f < count → ¬descBad desc f
      let narrow := ∀ f, f < count → descKind desc f = 2 → descLen desc f ≤ 64
      let total := bitOffset desc count = n
      let fits := Fits s src n ∧ Fits s dst w ∧ ForConstants desc count (Fits s)
      let apart := ¬SharesByte dst w src n ∧ ¬SharesByte dst w sch (8 * count)
        ∧ ForConstants desc count (fun a k => ¬SharesByte dst w a k)
      (¬legal → Ends .unp s (FailsWith s · 2)) ∧
      (legal → ¬narrow → Ends .unp s (FailsWith s · 4)) ∧
      (legal → narrow → ¬total → Ends .unp s (FailsWith s · 3)) ∧
      (legal → narrow → total → ¬fits → Ends .unp s (FailsWith s · 6)) ∧
      (legal → narrow → total → fits → ¬apart → Ends .unp s (FailsWith s · 7)) ∧
      (legal → narrow → total → fits → apart →
        HasUnwritten s src n ∨ ¬ForConstants desc count (fun a k => ¬HasUnwritten s a k) →
        Ends .unp s (MeetsUninit s ·)) ∧
      ∀ bits, bits.length = n → Holds s src bits → ¬HardBits bits → legal → narrow → total → fits → apart →
        ForConstants desc count (fun a k => ¬HasUnwritten s a k) → Ends .unp s (FailsWith s · 2)

/-- R280, R281, R282, R287, R288: what UNP does with a legal schema and hard input: every field's value at its place,
the mismatch count and PDU_VALID. -/
def Obligations.UnpUnpacks : Prop :=
  ∀ (s : State) (desc bits : List Byte),
    let src := s.argNat 0
    let n := s.argNat 1
    let sch := s.argNat 2
    let count := s.argNat 3
    let dst := s.argNat 4
    let w := valueOffset desc count
    let mism := mismatches s.dmem desc bits count
    desc.length = 8 * count → Holds s sch desc → Fits s sch (8 * count) →
    (∀ f, f < count → ¬descBad desc f) →
    (∀ f, f < count → descKind desc f = 2 → descLen desc f ≤ 64) →
    bitOffset desc count = n → Fits s src n → Fits s dst w →
    ForConstants desc count (fun a k => Fits s a k ∧ ¬SharesByte dst w a k ∧ ¬HasUnwritten s a k) →
    ¬SharesByte dst w src n → ¬SharesByte dst w sch (8 * count) →
    bits.length = n → Holds s src bits → HardBits bits →
    Ends .unp s fun t => ∃ out, out.length = w ∧
      (∀ f, f < count → (out.drop (valueOffset desc f)).take (valueSize desc f) = fieldValue desc bits f) ∧
      SucceedsWithFlags s t w mism s.status.crcOk (decide (mism = 0)) ∧ WritesOnly s t dst out

/-! ## All commands -/

/-- R320, R321, R322, R331: a pending command always ends: completed, with BUSY = 0, DONE = 1 and no new model fault, or
stuck at MF_UNINIT. No command ends in a refusal, whatever the state. -/
def Obligations.EveryCommandEnds : Prop :=
  (∀ i s, ∃ t, exec i s = .next t) ∧
  ∀ s, BlockPerforms s → ∃ t, step s = .next t ∧
    ((t.status.busy = false ∧ t.status.done = true ∧ t.faults = s.faults ∧ t.stuck = false) ∨
      MeetsUninit s.popTurn t)

/-- R322: an error completion changes only STATUS and the result registers. The step starts with ERR = OK, as every
command does (R38). -/
def Obligations.ErrorCompletionIsPrecise : Prop :=
  ∀ s t, BlockPerforms s → s.status.err = 0 → step s = .next t → t.status.err ≠ 0 →
    FailsWith s.popTurn t t.status.err

/-- R313: the status codes each command can end with. -/
def Obligations.CommandsProduceTheirCodes : Prop :=
  ∀ i s t, exec i s = .next t → MeetsUninit s t ∨ t.status.err = 0 ∨ t.status.err ∈ codesOf i

/-- R311: no step leads to a reserved status code. -/
def Obligations.ReservedCodesAreNeverReached : Prop :=
  ∀ s t, legalErr s.status.err → step s = .next t → legalErr t.status.err

/-- R32, R43, R47, R70: what no command changes: its operands, the other registers, the parameters, what the host and the
platform have still to do, and MF_BUS and MF_HAZARD; only CRCCHK sets CRC_OK, only UNP sets PDU_VALID; CRCCHK writes no
DMEM; no command changes a byte outside DMEM. -/
def Obligations.CommandFrame : Prop :=
  ∀ i s t, exec i s = .next t →
    t = { s with dmem := t.dmem, result0 := t.result0, result1 := t.result1, status := t.status,
                 faults := { s.faults with uninit := t.faults.uninit }, stuck := t.stuck } ∧
    (i ≠ .crcchk → t.status.crcOk = s.status.crcOk) ∧
    (i ≠ .unp → t.status.pduValid = s.status.pduValid) ∧
    (i = .crcchk → t.dmem = s.dmem) ∧
    ∀ a, s.cfg.dmemSize ≤ a → t.dmem.read a = s.dmem.read a

/-- R51, R109, R315: two performances of one command with the same ARG registers, IL_DEPTH and DMEM end alike. -/
def Obligations.CommandsAreFunctionsOfTheirInputs : Prop :=
  ∀ i s₁ s₂ t₁ t₂, s₁.cfg = s₂.cfg → s₁.args = s₂.args → s₁.ilDepth = s₂.ilDepth → s₁.dmem = s₂.dmem →
    s₁.status = s₂.status → exec i s₁ = .next t₁ → exec i s₂ = .next t₂ →
    (MeetsUninit s₁ t₁ ∧ MeetsUninit s₂ t₂) ∨
      (t₁.dmem = t₂.dmem ∧ t₁.result0 = t₂.result0 ∧ t₁.result1 = t₂.result1 ∧ t₁.status = t₂.status
        ∧ t₁.faults = s₁.faults ∧ t₂.faults = s₂.faults)

/-- R43, R107: an ARG register that a command does not name, and IL_DEPTH for every command but DIL, may hold anything:
the command ends in the same state but for these registers. -/
def Obligations.UnnamedOperandsAreIgnored : Prop :=
  ∀ i s t, exec i s = .next t →
    (∀ other : ArgFile, (∀ k, k ∈ argsNamed i → other.get k = s.args.get k) →
      exec i { s with args := other } = .next { t with args := other }) ∧
    (i ≠ .dil → ∀ d, exec i { s with ilDepth := d } = .next { t with ilDepth := d })

/-- R331: a block step that leaves BUSY = 1 met MF_UNINIT and changed nothing else; the block then has no further step
(its turn is the model's fault blockStuck, log 5) until a reset. -/
def Obligations.UninitLeavesTheBlockStuck : Prop :=
  (∀ s t, BlockPerforms s → step s = .next t → t.status.busy = true →
    MeetsUninit s.popTurn t ∧ (nextTurn t = .block → step t = .fault .blockStuck)) ∧
  ∀ s t, s.stuck = true → s.status.busy = true → nextTurn s ≠ .reset → step s = .next t →
    t.stuck = true ∧ t.status.busy = true

/-! ## The host -/

/-- R33, R46, R71, R72: what an access names: a register only as a whole word at its offset, a DMEM byte only as a byte in
the window; addresses count from BLOCK_BASE. -/
def Obligations.AddressMap : Prop :=
  ∀ (c : Config) (bytes off : Nat),
    busTarget c bytes (c.blockBase + off) = targetAt c bytes off ∧
    (∀ r, targetAt c bytes off = .reg r ↔ bytes = 4 ∧ off = regOffset r) ∧
    ∀ a, targetAt c bytes off = .dmem a ↔ bytes = 1 ∧ a < c.dmemSize ∧ off = 0x10000 + a

/-- R46, R71, R330: an access to nothing mapped is refused: MF_BUS joins FAULTS and nothing else changes; a load returns
no value. That an address below BLOCK_BASE is MF_BUS is the model's choice (log 8); that MF_HAZARD joins too while
BUSY = 1 is the model's reading (log 7). -/
def Obligations.UnmappedAccessIsRefused : Prop :=
  ∀ s bytes addr, busTarget s.cfg bytes addr = .unmapped →
    let u := s.popTurn.popHost
    let faults : ModelFaults := { s.faults with bus := true, hazard := s.faults.hazard || s.status.busy }
    (HostDoes s (.load bytes addr) → step s = .next { u with faults := faults, hostData := none }) ∧
    ∀ w, HostDoes s (.store bytes addr w) → step s = .next { u with faults := faults }

/-- R360: while BUSY = 1 an access to CTRL or STATUS takes place, and any other mapped access only adds MF_HAZARD. -/
def Obligations.BusyBlockRefusesOtherAccesses : Prop :=
  ∀ s bytes addr, s.status.busy = true →
    let u := s.popTurn.popHost
    let refused : ModelFaults := { s.faults with hazard := true }
    (∀ r, r = .ctrl ∨ r = .status → busTarget s.cfg bytes addr = .reg r →
      (HostDoes s (.load bytes addr) → step s = .next { u with hostData := some (readReg s r) }) ∧
      ∀ w, HostDoes s (.store bytes addr w) → step s = .next (writeReg u r w)) ∧
    (busTarget s.cfg bytes addr ≠ .unmapped → busTarget s.cfg bytes addr ≠ .reg .ctrl →
      busTarget s.cfg bytes addr ≠ .reg .status →
      (HostDoes s (.load bytes addr) → step s = .next { u with faults := refused, hostData := none }) ∧
      ∀ w, HostDoes s (.store bytes addr w) → step s = .next { u with faults := refused })

/-- R41: a CMD write starts a command while BUSY = 0 and is MF_HAZARD while BUSY = 1; a read of CMD returns the word. -/
def Obligations.CmdWriteStartsACommand : Prop :=
  ∀ s w, HostDoes s (writeOp s.cfg .cmd w) →
    let u := s.popTurn.popHost
    (s.status.busy = false → step s = .next { u with
      cmd := w
      pending := w
      status := { busy := true, done := false, err := 0, crcOk := false, pduValid := false } }) ∧
    (s.status.busy = true → step s = .next { u with faults := { s.faults with hazard := true } }) ∧
    ∀ t, step s = .next t → s.status.busy = false → readReg t .cmd = w

/-- R37: a STATUS write with bit 1 set clears DONE; nothing else of a STATUS write has an effect. -/
def Obligations.StatusWriteClearsDone : Prop :=
  ∀ s w, HostDoes s (writeOp s.cfg .status w) →
    let u := s.popTurn.popHost
    (w.getLsbD 1 = true → step s = .next { u with status := { s.status with done := false } }) ∧
    (w.getLsbD 1 = false → step s = .next u)

/-- R35, R45: the STATUS word a host reads has its fields at their bits; the reserved bits of STATUS, CTRL and IL_DEPTH read
0 and ignore writes. -/
def Obligations.ReservedBitsReadZero : Prop :=
  (∀ s, (readReg s .status).getLsbD 0 = s.status.busy ∧ (readReg s .status).getLsbD 1 = s.status.done
    ∧ (readReg s .status).extractLsb' 4 4 = s.status.err ∧ (readReg s .status).getLsbD 8 = s.status.crcOk
    ∧ (readReg s .status).getLsbD 9 = s.status.pduValid ∧ readReg s .status &&& 0xFFFFFC0C = 0
    ∧ readReg s .ctrl &&& 0xFFFFFFFE = 0 ∧ readReg s .ilDepth &&& 0xFFFF0000 = 0) ∧
  ∀ s v w, (v &&& 0x1 = w &&& 0x1 → writeReg s .ctrl v = writeReg s .ctrl w) ∧
    (v &&& 0x2 = w &&& 0x2 → writeReg s .status v = writeReg s .status w) ∧
    (v &&& 0xFFFF = w &&& 0xFFFF → writeReg s .ilDepth v = writeReg s .ilDepth w)

/-- R33, R34, R42, R43, R44, R361: a read-write register reads back what was written to its bits, and writing it leaves
every other register and the rest of the state alone; writes to the result registers are ignored; the step of a host
that accesses a register of an idle block is that access. Where a load's value goes is the model's (log 2). -/
def Obligations.RegistersReadBack : Prop :=
  ∀ s w,
    (readReg (writeReg s .ctrl w) .ctrl = w &&& 0x1 ∧ readReg (writeReg s .ilDepth w) .ilDepth = w &&& 0xFFFF
      ∧ ∀ k, readReg (writeReg s (.arg k) w) (.arg k) = w) ∧
    (∀ r, r = .ctrl ∨ r = .ilDepth ∨ (∃ k, r = .arg k) →
      writeReg s r w = { s with
        ctrl := (writeReg s r w).ctrl
        ilDepth := (writeReg s r w).ilDepth
        args := (writeReg s r w).args } ∧
      ∀ q, q ≠ r → readReg (writeReg s r w) q = readReg s q) ∧
    (writeReg s .result0 w = s ∧ writeReg s .result1 w = s
      ∧ readReg s .result0 = s.result0 ∧ readReg s .result1 = s.result1) ∧
    ∀ r, s.status.busy = false →
      (HostDoes s (writeOp s.cfg r w) → step s = .next (writeReg s.popTurn.popHost r w)) ∧
      (HostDoes s (readOp s.cfg r) →
        step s = .next { s.popTurn.popHost with hostData := some (readReg s r) })

/-- R72, R330: a byte store makes the byte written with that value and changes no other byte; a byte load returns the
byte; another width in the DMEM window is MF_BUS, with nothing else changed and no value loaded. That the loaded byte is
zero-extended is the model's choice (log 12). R48, R351: a byte load of an unwritten byte is MF_UNINIT; that it is so for
a host load, without a value and without sticking the block, is the model's reading (log 6). An idle block (BUSY = 0). -/
def Obligations.HostByteAccess : Prop :=
  ∀ s a, a < s.cfg.dmemSize → s.status.busy = false →
    (∀ v, HostDoes s (storeByteOp s.cfg a v) → ∃ t, step s = .next t ∧
      t = { s.popTurn.popHost with dmem := t.dmem } ∧
      ∀ b, t.dmem.read b = if b = a then some v else s.dmem.read b) ∧
    (∀ v, HostDoes s (loadByteOp s.cfg a) → s.dmem.read a = some v →
      step s = .next { s.popTurn.popHost with hostData := some (v.zeroExtend 32) }) ∧
    (HostDoes s (loadByteOp s.cfg a) → s.dmem.read a = none →
      step s = .next { s.popTurn.popHost with faults := { s.faults with uninit := true }, hostData := none }) ∧
    ∀ bytes, bytes ≠ 1 →
      (HostDoes s (.load bytes (s.cfg.blockBase + 0x10000 + a)) →
        step s = .next { s.popTurn.popHost with faults := { s.faults with bus := true }, hostData := none }) ∧
      ∀ w, HostDoes s (.store bytes (s.cfg.blockBase + 0x10000 + a) w) →
        step s = .next { s.popTurn.popHost with faults := { s.faults with bus := true } }

/-- R52: no step removes a model fault but a reset, which removes them all. -/
def Obligations.ModelFaultsAreSticky : Prop :=
  ∀ s t, step s = .next t →
    (nextTurn s ≠ .reset → (s.faults.bus = true → t.faults.bus = true)
      ∧ (s.faults.hazard = true → t.faults.hazard = true) ∧ (s.faults.uninit = true → t.faults.uninit = true)) ∧
    (nextTurn s = .reset → t.clean)

/-- R36: only a host write to CMD sets BUSY, and only the block's step (or a reset) clears it. -/
def Obligations.BusyChangesOnlyByCommands : Prop :=
  ∀ s t, step s = .next t →
    (s.status.busy = false → t.status.busy = true → t.pending = t.cmd ∧
      ∃ addr, HostDoes s (.store 4 addr t.cmd) ∧ busTarget s.cfg 4 addr = .reg .cmd) ∧
    (s.status.busy = true → t.status.busy = false → nextTurn s = .block ∨ nextTurn s = .reset)

/-- R53, R324: the interrupt output: IRQ_EN & DONE, 0 after reset, raised alike by every completion, cleared by a STATUS
write with bit 1 set and by a CMD write. -/
def Obligations.InterruptLevel : Prop :=
  (∀ s : State, s.irq = (s.ctrl.irqEn && s.status.done)) ∧ State.reset.irq = false ∧
  (∀ i s t, exec i s = .next t → t.status.busy = false → s.status.busy = true → t.irq = s.ctrl.irqEn) ∧
  ∀ s w, (w.getLsbD 1 = true → (writeReg s .status w).irq = false) ∧ (writeReg s .cmd w).irq = false

/-- R350, R351: the reset state, and what a reset does to any state. What it leaves of the host's part is the model's
(log 9). -/
def Obligations.ResetValues : Prop :=
  IsReset State.reset ∧ ∀ s, nextTurn s = .reset → ∃ t, step s = .next t ∧ IsReset t

/-- R114: RUN writes ARG0.. in order, then CMD, and the command it names is then the pending one; WAIT stays until BUSY
reads 0. That the host moves while the block is idle, by an empty schedule, is the model's choice (log 2). -/
def Obligations.RunLineStartsItsCommand : Prop :=
  (∀ (s : State) i vs rest, s.schedule = [] → s.status.busy = false → vs.length ≤ 8 →
    s.hostProgram = expandLine s.cfg (.run i vs) ++ rest →
    ∃ t, Sys2Proof.core.run (vs.length + 1) s = .next t ∧
      t = { s with
        args := t.args
        hostProgram := .wait :: rest
        cmd := encode i
        pending := encode i
        status := { busy := true, done := false, err := 0, crcOk := false, pduValid := false } } ∧
      ∀ k : Fin 8, t.args.get k = vs.getD k.val (s.args.get k)) ∧
  ∀ s, HostDoes s .wait →
    step s = .next { s.popTurn with
      hostData := some (readReg s .status)
      hostProgram := if s.status.busy then s.hostProgram else s.hostProgram.tail }

/-- R81, R85, R362: a pending command is performed after at most as many other turns as the schedule holds, with the
operands, the DMEM and the word it was started with. The finite schedule is the model's (log 2). -/
def Obligations.PendingCommandIsPerformed : Prop :=
  ∀ s : State, s.status.busy = true → s.stuck = false → Turn.reset ∉ s.schedule →
    ∃ k t, k ≤ s.schedule.length ∧ Sys2Proof.core.run k s = .next t ∧ BlockPerforms t ∧
      t.pending = s.pending ∧ t.cmd = s.cmd ∧ t.args = s.args ∧ t.ilDepth = s.ilDepth ∧ t.dmem = s.dmem
      ∧ t.result0 = s.result0 ∧ t.result1 = s.result1

/-! ## The invariant -/

/-- The invariant holds after reset. -/
def Obligations.ResetMeetsTheInvariant : Prop :=
  State.reset.Inv

/-- Every step of the machine keeps the invariant and the parameters. -/
def Obligations.StepKeepsTheInvariant : Prop :=
  ∀ s t, s.Inv → step s = .next t → t.Inv ∧ t.cfg = s.cfg

/-! ## The transforms -/

/-- R151, R153: a shorter sequence is a prefix of a longer one, and every element is hard. -/
def Obligations.ScrseqPrefixAndHard : Prop :=
  ∀ c n m, (m ≤ n → (scrseq c n).take m = scrseq c m) ∧ (HardBits c → HardBits (scrseq c n))

/-- R154: the 32-bit register form gives the recurrence's sequence. -/
def Obligations.RegisterFormGivesTheSequence : Prop :=
  ∀ c n, c.length = 30 → HardBits c → registerOutputs (initialRegister c) n = scrseq c n

/-- R156: scrambling twice with one hard sequence returns the data, in both variants. -/
def Obligations.ScramblingIsSelfInverse : Prop :=
  ∀ b q, b.length = q.length → HardBits q →
    List.zipWith scrambleHard (List.zipWith scrambleHard b q) q = b ∧
    List.zipWith scrambleSoft (List.zipWith scrambleSoft b q) q = b

/-- R132, R157: S2H undoes H2S on hard sequences; a scrambling bit 1 maps a soft byte v to 255 - v, so the erasure crosses
S2H's threshold. -/
def Obligations.SoftBitLaws : Prop :=
  (∀ b, HardBits b → (b.map hardToSoft).map softToHard = b) ∧
  (∀ v, (scrambleSoft v 1).toNat = 255 - v.toNat) ∧ scrambleSoft 0x80 1 = 0x7F ∧
    softToHard 0x80 = 1 ∧ softToHard 0x7F = 0

/-- R182, R185: the interleaving pattern is a permutation of [0, K) exactly when K = 0 or gcd(a, K) = 1, and then the gather
with the inverse pattern undoes the deinterleaver. -/
def Obligations.PatternIsAPermutationIffCoprime : Prop :=
  (∀ k a, (interleavePattern k a).Perm (List.range k) ↔ (k = 0 ∨ Nat.gcd a k = 1)) ∧
  ∀ b q a, (b.length = 0 ∨ Nat.gcd a b.length = 1) → q.length = b.length →
    (∀ i, i < b.length → q[a * (i + 1) % b.length]? = some i) →
    gather (gather b (interleavePattern b.length a)) q = b

/-- R201: the puncturing targets rise strictly, and all lie below U exactly when K3 mod 3 ≠ 1. -/
def Obligations.PunctureTargetsAreDistinct : Prop :=
  ∀ k3, (punctureTargets k3).Pairwise (· < ·) ∧
    ((∀ x ∈ punctureTargets k3, x < unpuncturedLength k3) ↔ k3 % 3 ≠ 1)

/-- R205: the document's numbers for K3 = 120, and gathering at the targets recovers the punctured sequence. -/
def Obligations.GatheringRecoversThePuncturedBits : Prop :=
  2 * 120 / 3 = 80 ∧ unpuncturedLength 120 = 320 ∧ unpuncturedLength 120 + 16 = 336 ∧
  ∀ b, b.length % 3 ≠ 1 → gather (depuncture b) (punctureTargets b.length) = b

/-- R221, R222: the two transitions into each state, and the expected bits of every register, as the spec tabulates them
(from general knowledge, log 10). -/
def Obligations.TrellisAndExpectedBits : Prop :=
  (∀ (s : Trellis) (x : Bool), nextState (incomingRegister s x) = s ∧
    stepRegister (predecessor s x) (s.getLsbD 0) = incomingRegister s x) ∧
  (List.range 32).map (fun r => (expectedBits (BitVec.ofNat 5 r)).map (fun b => if b then 1 else 0)) =
    [[0, 0, 0, 0], [1, 1, 1, 1], [1, 0, 1, 1], [0, 1, 0, 0], [0, 1, 1, 0], [1, 0, 0, 1], [1, 1, 0, 1], [0, 0, 1, 0],
     [0, 1, 0, 1], [1, 0, 1, 0], [1, 1, 1, 0], [0, 0, 0, 1], [0, 0, 1, 1], [1, 1, 0, 0], [1, 0, 0, 0], [0, 1, 1, 1],
     [1, 1, 1, 1], [0, 0, 0, 0], [0, 1, 0, 0], [1, 0, 1, 1], [1, 0, 0, 1], [0, 1, 1, 0], [0, 0, 1, 0], [1, 1, 0, 1],
     [1, 0, 1, 0], [0, 1, 0, 1], [0, 0, 0, 1], [1, 1, 1, 0], [1, 1, 0, 0], [0, 0, 1, 1], [0, 1, 1, 1], [1, 0, 0, 0]]

/-- R223: the branch metric of four samples, its bound, and the cost of an erasure. -/
def Obligations.BranchMetricSum : Prop :=
  (∀ y0 y1 y2 y3 r, branchMetric [y0, y1, y2, y3] r =
    List.sum (List.zipWith (fun (g : BitVec 5) (y : Byte) =>
      let e := if parity (r &&& g) then 255 else 0
      (y.toNat - e) + (e - y.toNat)) [0b10011, 0b11101, 0b10111, 0b11011] [y0, y1, y2, y3])) ∧
  (∀ y r, branchMetric y r ≤ 1020) ∧ bitCost false 0x80 = 128 ∧ bitCost true 0x80 = 127

/-- R224: one add-compare-select step, state by state: candidate 1 wins only where it is strictly less, ∞ being
unreachable. -/
def Obligations.AddCompareSelect : Prop :=
  ∀ (pm : List Metric) (y : List Byte) (s : Trellis),
    let cand := fun x => (metricOf pm (predecessor s x)).map (· + branchMetric y (incomingRegister s x))
    let wins := ∃ m1, cand true = some m1 ∧ ∀ m0, cand false = some m0 → m1 < m0
    (wins → metricOf (nextMetrics pm y) s = cand true ∧ (decisions pm y)[s.toNat]? = some true) ∧
    (¬wins → metricOf (nextMetrics pm y) s = cand false ∧ (decisions pm y)[s.toNat]? = some false)

/-- R225, R230: the metric of the traceback's start state is finite and at most 1020 a step. -/
def Obligations.PathMetricsAreBounded : Prop :=
  ∀ n y final, (final = flushState ∨ final = leastState) → y.length = 4 * n →
    ∃ m, (viterbi final y).2 = some m ∧ m ≤ 1020 * n

/-- R224 to R228: VIT.ZERO's bits are those of a least-cost path among all that end in state 0, and its metric is that
cost. It rests on R221, R222 and R225, which the spec marks as general knowledge (log 10). -/
def Obligations.ViterbiZeroIsMaximumLikelihood : Prop :=
  ∀ n y, y.length = 4 * n → ∃ u : List Bool, u.length = n ∧ endState u = 0 ∧
    viterbi flushState y = (u.map hardBit, some (pathCost u y)) ∧
    ∀ v : List Bool, v.length = n → endState v = 0 → pathCost u y ≤ pathCost v y

/-- R224 to R228: VIT.MIN's bits are those of a least-cost path among all, one that ends in the lowest-numbered state any
least-cost path ends in, and its metric is that cost. It rests on R221, R222 and R225 (log 10). -/
def Obligations.ViterbiMinIsMaximumLikelihood : Prop :=
  ∀ n y, y.length = 4 * n → ∃ u : List Bool, u.length = n ∧
    viterbi leastState y = (u.map hardBit, some (pathCost u y)) ∧
    ∀ v : List Bool, v.length = n → pathCost u y ≤ pathCost v y ∧
      (pathCost v y = pathCost u y → (endState u).toNat ≤ (endState v).toNat)

/-- R232: an error-free codeword of a terminated sequence decodes to the sequence with metric 0, in both modes. It rests
on R221, R222 and R225, which the spec marks as general knowledge (log 10). -/
def Obligations.ErrorFreeCodewordsDecode : Prop :=
  ∀ u : List Bool, 4 ≤ u.length → (∀ i, u.length ≤ i + 4 → i < u.length → u[i]? = some false) →
    ∀ final, (final = flushState ∨ final = leastState) →
      viterbi final ((conv u).map fun b => if b then 0xFF else 0x00) = (u.map hardBit, some 0)

/-- R264: CRCCHK accepts every hard payload followed by its CRC bits, and the CRC over the two together is a constant. -/
def Obligations.AppendedCrcIsAccepted : Prop :=
  (∀ s b, b.length = s.argNat 1 → HardBits b → Holds s (s.argNat 0) (b ++ crcbits b) →
    Fits s (s.argNat 0) (s.argNat 1 + 16) →
    Ends .crcchk s fun t => t.status.crcOk = true ∧ t.status.err = 0) ∧
  ∀ b, HardBits b → crc16 (b ++ crcbits b) = 0x0F47

/-- R263's example, for every payload and every position: changing any one bit of a payload with its CRC is detected. -/
def Obligations.CrcDetectsEverySingleBitChange : Prop :=
  ∀ b k, HardBits b → k < b.length + 16 →
    let v := (b ++ crcbits b).modify k (· ^^^ 1)
    crcbits (v.take b.length) ≠ v.drop b.length

/-- R284: the unsigned-integer conversion accumulates most-significant bit first, so it is the positional value, below
2^LEN; LEN = 0 gives 0; it is stored as toLE64. -/
def Obligations.UintFieldIsPositional : Prop :=
  ∀ x, HardBits x →
    uintValue x = ((List.range x.length).map fun j => (x.getD j 0).toNat * 2 ^ (x.length - 1 - j)).sum ∧
    uintValue x < 2 ^ x.length ∧ uintValue [] = 0 ∧ encodeValue .uint x = toLE64 (uintValue x)

/-- R283: bit j of group k of the input is bit 7 - j of packed byte k; a partial byte is padded with zeros in its low
bits. -/
def Obligations.PackedBytesAreMsbFirst : Prop :=
  ∀ x, HardBits x → (packBytes x).length = (x.length + 7) / 8 ∧
    ∀ k j, k < (x.length + 7) / 8 → j < 8 →
      ((packBytes x).getD k 0).getLsbD (7 - j) = decide (8 * k + j < x.length ∧ x.getD (8 * k + j) 0 = 1)

/-- R78: toLE64 and the little-endian reading of eight bytes are inverse to each other. -/
def Obligations.LittleEndianIsInverse : Prop :=
  (∀ v, v < 2 ^ 64 → littleEndian (toLE64 v) = v) ∧ ∀ bs, bs.length = 8 → toLE64 (littleEndian bs) = bs
end

