-- ==== Sys2Proof/Laws/Memory.lean ====
section
/-! SUPPORT. What the operations over DMEM do: reads after writes, the canonical form, and the ranges of R15 in terms of
single bytes. -/

namespace Sys2Proof.Machine

/-! Single bytes. -/

theorem Memory.read_write (m : Memory) (a b : Nat) (v : Byte) :
    (m.write a v).read b = if b = a then some v else m.read b := by
  induction m with
  | nil => simp [Memory.write, Memory.read, eq_comm]
  | cons c rest ih =>
    obtain ⟨k, w⟩ := c
    simp only [Memory.write]
    split
    · simp [Memory.read, eq_comm]
    · split
      · next h => subst h; by_cases hb : b = a <;> simp [Memory.read, hb, eq_comm (a := a)]
      · next h =>
        simp only [Memory.read, ih]
        by_cases hb : b = a
        · simp [hb, Ne.symm h]
        · simp [hb]

theorem Memory.read_write_same (m : Memory) (a : Nat) (v : Byte) : (m.write a v).read a = some v := by
  simp [Memory.read_write]

theorem Memory.read_write_other (m : Memory) {a b : Nat} (v : Byte) (h : b ≠ a) :
    (m.write a v).read b = m.read b := by
  simp [Memory.read_write, h]

/-- The addresses a write lists are the old ones and its own. -/
theorem Memory.mem_write {m : Memory} {a : Nat} {v : Byte} {c : Host.Cell} (h : c ∈ m.write a v) :
    c.1 = a ∨ ∃ d ∈ m, d.1 = c.1 := by
  induction m with
  | nil => simp only [Memory.write, List.mem_singleton] at h; simp [h]
  | cons d rest ih =>
    obtain ⟨k, w⟩ := d
    simp only [Memory.write] at h
    split at h
    · rcases List.mem_cons.1 h with rfl | h
      · exact .inl rfl
      · exact .inr ⟨c, h, rfl⟩
    · split at h
      · rcases List.mem_cons.1 h with rfl | h
        · exact .inl rfl
        · exact .inr ⟨c, List.mem_cons_of_mem _ h, rfl⟩
      · rcases List.mem_cons.1 h with rfl | h
        · exact .inr ⟨(k, w), List.mem_cons_self, rfl⟩
        · rcases ih h with h | ⟨d, hd, he⟩
          · exact .inl h
          · exact .inr ⟨d, List.mem_cons_of_mem _ hd, he⟩

/-- A write keeps the canonical form. -/
theorem Memory.wf_write {m : Memory} (a : Nat) (v : Byte) (h : m.wf) : (m.write a v).wf := by
  induction m with
  | nil => simp [Memory.write, Memory.wf]
  | cons c rest ih =>
    obtain ⟨k, w⟩ := c
    obtain ⟨hk, hr⟩ := List.pairwise_cons.1 h
    simp only [Memory.write]
    split
    case isTrue hlt =>
      refine List.pairwise_cons.2 ⟨fun d hd => ?_, h⟩
      rcases List.mem_cons.1 hd with rfl | hd
      · exact hlt
      · exact Nat.lt_trans hlt (hk d hd)
    case isFalse hge =>
      split
      case isTrue heq => subst heq; exact List.pairwise_cons.2 ⟨hk, hr⟩
      case isFalse hne =>
        refine List.pairwise_cons.2 ⟨fun d hd => ?_, ih hr⟩
        rcases Memory.mem_write hd with he | ⟨e, he, hke⟩
        · simp only [he]; omega
        · rw [← hke]; exact hk e he

theorem Memory.within_write {m : Memory} {a size : Nat} (v : Byte) (h : m.within size) (ha : a < size) :
    (m.write a v).within size := by
  intro c hc
  rcases Memory.mem_write hc with he | ⟨d, hd, he⟩
  · omega
  · have := h d hd; omega

/-- In a memory within its size, a byte at or past the size is unwritten. -/
theorem Memory.read_past {m : Memory} {a size : Nat} (h : m.within size) (ha : size ≤ a) : m.read a = none := by
  induction m with
  | nil => rfl
  | cons c rest ih =>
    have hc : c.1 < size := h c List.mem_cons_self
    have hr : Memory.within rest size := fun d hd => h d (List.mem_cons_of_mem _ hd)
    simp only [Memory.read]
    rw [if_neg (by omega)]
    exact ih hr

/-! Ranges. -/

theorem Memory.wf_writeRange {m : Memory} (a : Nat) (bs : List Byte) (h : m.wf) : (m.writeRange a bs).wf := by
  induction bs generalizing m a with
  | nil => exact h
  | cons b bs ih => exact ih (a + 1) (Memory.wf_write a b h)

theorem Memory.within_writeRange {m : Memory} {a size : Nat} {bs : List Byte} (h : m.within size)
    (ha : bs.length = 0 ∨ a + bs.length ≤ size) : (m.writeRange a bs).within size := by
  induction bs generalizing m a with
  | nil => exact h
  | cons b bs ih =>
    simp only [List.length_cons] at ha
    exact ih (Memory.within_write b h (by omega)) (by omega)

/-- Outside its region a range write changes no byte (R15). -/
theorem Memory.read_writeRange_outside (m : Memory) {a x : Nat} {bs : List Byte}
    (h : x < a ∨ a + bs.length ≤ x) : (m.writeRange a bs).read x = m.read x := by
  induction bs generalizing m a with
  | nil => rfl
  | cons b bs ih =>
    simp only [List.length_cons] at h
    simp only [Memory.writeRange]
    rw [ih _ (by omega), Memory.read_write_other _ _ (by omega)]

/-- Inside its region a range write leaves element i at a + i (R15, R77). -/
theorem Memory.read_writeRange_inside (m : Memory) {a i : Nat} {bs : List Byte} (h : i < bs.length) :
    (m.writeRange a bs).read (a + i) = bs[i]? := by
  induction bs generalizing m a i with
  | nil => simp at h
  | cons b bs ih =>
    simp only [Memory.writeRange]
    cases i with
    | zero =>
      rw [Memory.read_writeRange_outside _ (by omega)]
      simp [Memory.read_write]
    | succ i =>
      have := ih (m.write a b) (a := a + 1) (i := i) (by simpa using h)
      rw [show a + (i + 1) = a + 1 + i by omega, this]
      simp

theorem Memory.readRange_length {m : Memory} {a n : Nat} {bs : List Byte} (h : m.readRange a n = some bs) :
    bs.length = n := by
  induction n generalizing a bs with
  | zero => simp only [Memory.readRange, Option.some.injEq] at h; simp [← h]
  | succ n ih =>
    simp only [Memory.readRange] at h
    split at h
    case h_1 b cs hb hc => simp only [Option.some.injEq] at h; simp [← h, ih hc]
    case h_2 => simp at h

/-- A range read answers bs exactly when bs is what the region holds (R15, R77). -/
theorem Memory.readRange_eq_some {m : Memory} {a n : Nat} {bs : List Byte} :
    m.readRange a n = some bs ↔ bs.length = n ∧ ∀ i, i < bs.length → m.read (a + i) = bs[i]? := by
  induction n generalizing a bs with
  | zero =>
    simp only [Memory.readRange, Option.some.injEq]
    constructor
    · rintro rfl; simp
    · rintro ⟨h, -⟩; exact (List.eq_nil_of_length_eq_zero h).symm
  | succ n ih =>
    constructor
    · intro h
      refine ⟨Memory.readRange_length h, fun i hi => ?_⟩
      simp only [Memory.readRange] at h
      split at h
      case h_1 b cs hb hc =>
        simp only [Option.some.injEq] at h
        subst h
        cases i with
        | zero => simpa using hb
        | succ i =>
          rw [show a + (i + 1) = a + 1 + i by omega]
          simpa using (ih.1 hc).2 i (by simpa using hi)
      case h_2 => simp at h
    · rintro ⟨hl, hr⟩
      cases bs with
      | nil => simp at hl
      | cons b cs =>
        have hb : m.read a = some b := by simpa using hr 0 (by simp)
        have hc : m.readRange (a + 1) n = some cs := ih.2 ⟨by simpa using hl, fun i hi => by
          have := hr (i + 1) (by simpa using hi)
          rw [show a + 1 + i = a + (i + 1) by omega]
          simpa using this⟩
        simp [Memory.readRange, hb, hc]

/-- A range read answers nothing exactly when a byte of the region is unwritten (R76). -/
theorem Memory.readRange_eq_none {m : Memory} {a n : Nat} :
    m.readRange a n = none ↔ ∃ i, i < n ∧ m.read (a + i) = none := by
  induction n generalizing a with
  | zero => simp [Memory.readRange]
  | succ n ih =>
    constructor
    · intro h
      simp only [Memory.readRange] at h
      split at h
      case h_1 => simp at h
      case h_2 hx =>
        rcases hb : m.read a with - | b
        · exact ⟨0, by omega, hb⟩
        · rcases hc : m.readRange (a + 1) n with - | cs
          · obtain ⟨i, hi, h⟩ := ih.1 hc
            exact ⟨i + 1, by omega, by rw [← h]; congr 1; omega⟩
          · exact absurd hc (hx b cs hb)
    · rintro ⟨i, hi, h⟩
      cases i with
      | zero => simp [Memory.readRange, show m.read a = none from h]
      | succ i =>
        have hc : m.readRange (a + 1) n = none := ih.2 ⟨i, by omega, by rw [← h]; congr 1; omega⟩
        simp [Memory.readRange, hc]

/-- The reset memory has the canonical form. -/
theorem Memory.wf_reset : State.reset.dmem.wf := by simp [State.reset, Memory.wf]

end Sys2Proof.Machine
end

