-- ==== Sys2Proof/Laws/State.lean ====
section
/-! SUPPORT. What each update of State leaves in each field: one lemma per field per update, all true by rfl. -/

namespace Sys2Proof.Machine

/-! startCommand -/

@[simp] theorem State.startCommand_cfg (s : State) (w : Word) : (s.startCommand w).cfg = s.cfg := rfl
@[simp] theorem State.startCommand_ctrl (s : State) (w : Word) : (s.startCommand w).ctrl = s.ctrl := rfl
@[simp] theorem State.startCommand_status (s : State) (w : Word) :
    (s.startCommand w).status = { busy := true, done := false, err := 0, crcOk := false, pduValid := false } := rfl
@[simp] theorem State.startCommand_cmd (s : State) (w : Word) : (s.startCommand w).cmd = w := rfl
@[simp] theorem State.startCommand_ilDepth (s : State) (w : Word) : (s.startCommand w).ilDepth = s.ilDepth := rfl
@[simp] theorem State.startCommand_args (s : State) (w : Word) : (s.startCommand w).args = s.args := rfl
@[simp] theorem State.startCommand_result0 (s : State) (w : Word) : (s.startCommand w).result0 = s.result0 := rfl
@[simp] theorem State.startCommand_result1 (s : State) (w : Word) : (s.startCommand w).result1 = s.result1 := rfl
@[simp] theorem State.startCommand_dmem (s : State) (w : Word) : (s.startCommand w).dmem = s.dmem := rfl
@[simp] theorem State.startCommand_pending (s : State) (w : Word) : (s.startCommand w).pending = w := rfl
@[simp] theorem State.startCommand_faults (s : State) (w : Word) : (s.startCommand w).faults = s.faults := rfl
@[simp] theorem State.startCommand_stuck (s : State) (w : Word) : (s.startCommand w).stuck = s.stuck := rfl
@[simp] theorem State.startCommand_hostProgram (s : State) (w : Word) :
    (s.startCommand w).hostProgram = s.hostProgram := rfl
@[simp] theorem State.startCommand_hostData (s : State) (w : Word) : (s.startCommand w).hostData = s.hostData := rfl
@[simp] theorem State.startCommand_schedule (s : State) (w : Word) : (s.startCommand w).schedule = s.schedule := rfl

/-! raiseErr -/

@[simp] theorem State.raiseErr_cfg (s : State) (e : ErrCode) : (s.raiseErr e).cfg = s.cfg := rfl
@[simp] theorem State.raiseErr_ctrl (s : State) (e : ErrCode) : (s.raiseErr e).ctrl = s.ctrl := rfl
@[simp] theorem State.raiseErr_status (s : State) (e : ErrCode) :
    (s.raiseErr e).status = { s.status with busy := false, done := true, err := e.code } := rfl
@[simp] theorem State.raiseErr_cmd (s : State) (e : ErrCode) : (s.raiseErr e).cmd = s.cmd := rfl
@[simp] theorem State.raiseErr_ilDepth (s : State) (e : ErrCode) : (s.raiseErr e).ilDepth = s.ilDepth := rfl
@[simp] theorem State.raiseErr_args (s : State) (e : ErrCode) : (s.raiseErr e).args = s.args := rfl
@[simp] theorem State.raiseErr_result0 (s : State) (e : ErrCode) : (s.raiseErr e).result0 = 0 := rfl
@[simp] theorem State.raiseErr_result1 (s : State) (e : ErrCode) : (s.raiseErr e).result1 = 0 := rfl
@[simp] theorem State.raiseErr_dmem (s : State) (e : ErrCode) : (s.raiseErr e).dmem = s.dmem := rfl
@[simp] theorem State.raiseErr_pending (s : State) (e : ErrCode) : (s.raiseErr e).pending = s.pending := rfl
@[simp] theorem State.raiseErr_faults (s : State) (e : ErrCode) : (s.raiseErr e).faults = s.faults := rfl
@[simp] theorem State.raiseErr_stuck (s : State) (e : ErrCode) : (s.raiseErr e).stuck = s.stuck := rfl
@[simp] theorem State.raiseErr_hostProgram (s : State) (e : ErrCode) :
    (s.raiseErr e).hostProgram = s.hostProgram := rfl
@[simp] theorem State.raiseErr_hostData (s : State) (e : ErrCode) : (s.raiseErr e).hostData = s.hostData := rfl
@[simp] theorem State.raiseErr_schedule (s : State) (e : ErrCode) : (s.raiseErr e).schedule = s.schedule := rfl

/-! complete -/

@[simp] theorem State.complete_cfg (s : State) (dst : Nat) (out : List Byte) (r0 r1 : Nat) :
    (s.complete dst out r0 r1).cfg = s.cfg := rfl
@[simp] theorem State.complete_ctrl (s : State) (dst : Nat) (out : List Byte) (r0 r1 : Nat) :
    (s.complete dst out r0 r1).ctrl = s.ctrl := rfl
@[simp] theorem State.complete_status (s : State) (dst : Nat) (out : List Byte) (r0 r1 : Nat) :
    (s.complete dst out r0 r1).status = { s.status with busy := false, done := true, err := 0 } := rfl
@[simp] theorem State.complete_cmd (s : State) (dst : Nat) (out : List Byte) (r0 r1 : Nat) :
    (s.complete dst out r0 r1).cmd = s.cmd := rfl
@[simp] theorem State.complete_ilDepth (s : State) (dst : Nat) (out : List Byte) (r0 r1 : Nat) :
    (s.complete dst out r0 r1).ilDepth = s.ilDepth := rfl
@[simp] theorem State.complete_args (s : State) (dst : Nat) (out : List Byte) (r0 r1 : Nat) :
    (s.complete dst out r0 r1).args = s.args := rfl
@[simp] theorem State.complete_result0 (s : State) (dst : Nat) (out : List Byte) (r0 r1 : Nat) :
    (s.complete dst out r0 r1).result0 = BitVec.ofNat 32 r0 := rfl
@[simp] theorem State.complete_result1 (s : State) (dst : Nat) (out : List Byte) (r0 r1 : Nat) :
    (s.complete dst out r0 r1).result1 = BitVec.ofNat 32 r1 := rfl
@[simp] theorem State.complete_dmem (s : State) (dst : Nat) (out : List Byte) (r0 r1 : Nat) :
    (s.complete dst out r0 r1).dmem = s.dmem.writeRange dst out := rfl
@[simp] theorem State.complete_pending (s : State) (dst : Nat) (out : List Byte) (r0 r1 : Nat) :
    (s.complete dst out r0 r1).pending = s.pending := rfl
@[simp] theorem State.complete_faults (s : State) (dst : Nat) (out : List Byte) (r0 r1 : Nat) :
    (s.complete dst out r0 r1).faults = s.faults := rfl
@[simp] theorem State.complete_stuck (s : State) (dst : Nat) (out : List Byte) (r0 r1 : Nat) :
    (s.complete dst out r0 r1).stuck = s.stuck := rfl
@[simp] theorem State.complete_hostProgram (s : State) (dst : Nat) (out : List Byte) (r0 r1 : Nat) :
    (s.complete dst out r0 r1).hostProgram = s.hostProgram := rfl
@[simp] theorem State.complete_hostData (s : State) (dst : Nat) (out : List Byte) (r0 r1 : Nat) :
    (s.complete dst out r0 r1).hostData = s.hostData := rfl
@[simp] theorem State.complete_schedule (s : State) (dst : Nat) (out : List Byte) (r0 r1 : Nat) :
    (s.complete dst out r0 r1).schedule = s.schedule := rfl

/-! setCrcOk -/

@[simp] theorem State.setCrcOk_cfg (s : State) (b : Bool) : (s.setCrcOk b).cfg = s.cfg := rfl
@[simp] theorem State.setCrcOk_ctrl (s : State) (b : Bool) : (s.setCrcOk b).ctrl = s.ctrl := rfl
@[simp] theorem State.setCrcOk_status (s : State) (b : Bool) :
    (s.setCrcOk b).status = { s.status with crcOk := b } := rfl
@[simp] theorem State.setCrcOk_cmd (s : State) (b : Bool) : (s.setCrcOk b).cmd = s.cmd := rfl
@[simp] theorem State.setCrcOk_ilDepth (s : State) (b : Bool) : (s.setCrcOk b).ilDepth = s.ilDepth := rfl
@[simp] theorem State.setCrcOk_args (s : State) (b : Bool) : (s.setCrcOk b).args = s.args := rfl
@[simp] theorem State.setCrcOk_result0 (s : State) (b : Bool) : (s.setCrcOk b).result0 = s.result0 := rfl
@[simp] theorem State.setCrcOk_result1 (s : State) (b : Bool) : (s.setCrcOk b).result1 = s.result1 := rfl
@[simp] theorem State.setCrcOk_dmem (s : State) (b : Bool) : (s.setCrcOk b).dmem = s.dmem := rfl
@[simp] theorem State.setCrcOk_pending (s : State) (b : Bool) : (s.setCrcOk b).pending = s.pending := rfl
@[simp] theorem State.setCrcOk_faults (s : State) (b : Bool) : (s.setCrcOk b).faults = s.faults := rfl
@[simp] theorem State.setCrcOk_stuck (s : State) (b : Bool) : (s.setCrcOk b).stuck = s.stuck := rfl
@[simp] theorem State.setCrcOk_hostProgram (s : State) (b : Bool) : (s.setCrcOk b).hostProgram = s.hostProgram := rfl
@[simp] theorem State.setCrcOk_hostData (s : State) (b : Bool) : (s.setCrcOk b).hostData = s.hostData := rfl
@[simp] theorem State.setCrcOk_schedule (s : State) (b : Bool) : (s.setCrcOk b).schedule = s.schedule := rfl

/-! setPduValid -/

@[simp] theorem State.setPduValid_cfg (s : State) (b : Bool) : (s.setPduValid b).cfg = s.cfg := rfl
@[simp] theorem State.setPduValid_ctrl (s : State) (b : Bool) : (s.setPduValid b).ctrl = s.ctrl := rfl
@[simp] theorem State.setPduValid_status (s : State) (b : Bool) :
    (s.setPduValid b).status = { s.status with pduValid := b } := rfl
@[simp] theorem State.setPduValid_cmd (s : State) (b : Bool) : (s.setPduValid b).cmd = s.cmd := rfl
@[simp] theorem State.setPduValid_ilDepth (s : State) (b : Bool) : (s.setPduValid b).ilDepth = s.ilDepth := rfl
@[simp] theorem State.setPduValid_args (s : State) (b : Bool) : (s.setPduValid b).args = s.args := rfl
@[simp] theorem State.setPduValid_result0 (s : State) (b : Bool) : (s.setPduValid b).result0 = s.result0 := rfl
@[simp] theorem State.setPduValid_result1 (s : State) (b : Bool) : (s.setPduValid b).result1 = s.result1 := rfl
@[simp] theorem State.setPduValid_dmem (s : State) (b : Bool) : (s.setPduValid b).dmem = s.dmem := rfl
@[simp] theorem State.setPduValid_pending (s : State) (b : Bool) : (s.setPduValid b).pending = s.pending := rfl
@[simp] theorem State.setPduValid_faults (s : State) (b : Bool) : (s.setPduValid b).faults = s.faults := rfl
@[simp] theorem State.setPduValid_stuck (s : State) (b : Bool) : (s.setPduValid b).stuck = s.stuck := rfl
@[simp] theorem State.setPduValid_hostProgram (s : State) (b : Bool) :
    (s.setPduValid b).hostProgram = s.hostProgram := rfl
@[simp] theorem State.setPduValid_hostData (s : State) (b : Bool) : (s.setPduValid b).hostData = s.hostData := rfl
@[simp] theorem State.setPduValid_schedule (s : State) (b : Bool) : (s.setPduValid b).schedule = s.schedule := rfl

/-! meetUninit -/

@[simp] theorem State.meetUninit_cfg (s : State) : (s.meetUninit).cfg = s.cfg := rfl
@[simp] theorem State.meetUninit_ctrl (s : State) : (s.meetUninit).ctrl = s.ctrl := rfl
@[simp] theorem State.meetUninit_status (s : State) : (s.meetUninit).status = s.status := rfl
@[simp] theorem State.meetUninit_cmd (s : State) : (s.meetUninit).cmd = s.cmd := rfl
@[simp] theorem State.meetUninit_ilDepth (s : State) : (s.meetUninit).ilDepth = s.ilDepth := rfl
@[simp] theorem State.meetUninit_args (s : State) : (s.meetUninit).args = s.args := rfl
@[simp] theorem State.meetUninit_result0 (s : State) : (s.meetUninit).result0 = s.result0 := rfl
@[simp] theorem State.meetUninit_result1 (s : State) : (s.meetUninit).result1 = s.result1 := rfl
@[simp] theorem State.meetUninit_dmem (s : State) : (s.meetUninit).dmem = s.dmem := rfl
@[simp] theorem State.meetUninit_pending (s : State) : (s.meetUninit).pending = s.pending := rfl
@[simp] theorem State.meetUninit_faults (s : State) : (s.meetUninit).faults = { s.faults with uninit := true } := rfl
@[simp] theorem State.meetUninit_stuck (s : State) : (s.meetUninit).stuck = true := rfl
@[simp] theorem State.meetUninit_hostProgram (s : State) : (s.meetUninit).hostProgram = s.hostProgram := rfl
@[simp] theorem State.meetUninit_hostData (s : State) : (s.meetUninit).hostData = s.hostData := rfl
@[simp] theorem State.meetUninit_schedule (s : State) : (s.meetUninit).schedule = s.schedule := rfl

/-! addBus -/

@[simp] theorem State.addBus_cfg (s : State) : (s.addBus).cfg = s.cfg := rfl
@[simp] theorem State.addBus_ctrl (s : State) : (s.addBus).ctrl = s.ctrl := rfl
@[simp] theorem State.addBus_status (s : State) : (s.addBus).status = s.status := rfl
@[simp] theorem State.addBus_cmd (s : State) : (s.addBus).cmd = s.cmd := rfl
@[simp] theorem State.addBus_ilDepth (s : State) : (s.addBus).ilDepth = s.ilDepth := rfl
@[simp] theorem State.addBus_args (s : State) : (s.addBus).args = s.args := rfl
@[simp] theorem State.addBus_result0 (s : State) : (s.addBus).result0 = s.result0 := rfl
@[simp] theorem State.addBus_result1 (s : State) : (s.addBus).result1 = s.result1 := rfl
@[simp] theorem State.addBus_dmem (s : State) : (s.addBus).dmem = s.dmem := rfl
@[simp] theorem State.addBus_pending (s : State) : (s.addBus).pending = s.pending := rfl
@[simp] theorem State.addBus_faults (s : State) : (s.addBus).faults = { s.faults with bus := true } := rfl
@[simp] theorem State.addBus_stuck (s : State) : (s.addBus).stuck = s.stuck := rfl
@[simp] theorem State.addBus_hostProgram (s : State) : (s.addBus).hostProgram = s.hostProgram := rfl
@[simp] theorem State.addBus_hostData (s : State) : (s.addBus).hostData = s.hostData := rfl
@[simp] theorem State.addBus_schedule (s : State) : (s.addBus).schedule = s.schedule := rfl

/-! addHazard -/

@[simp] theorem State.addHazard_cfg (s : State) : (s.addHazard).cfg = s.cfg := rfl
@[simp] theorem State.addHazard_ctrl (s : State) : (s.addHazard).ctrl = s.ctrl := rfl
@[simp] theorem State.addHazard_status (s : State) : (s.addHazard).status = s.status := rfl
@[simp] theorem State.addHazard_cmd (s : State) : (s.addHazard).cmd = s.cmd := rfl
@[simp] theorem State.addHazard_ilDepth (s : State) : (s.addHazard).ilDepth = s.ilDepth := rfl
@[simp] theorem State.addHazard_args (s : State) : (s.addHazard).args = s.args := rfl
@[simp] theorem State.addHazard_result0 (s : State) : (s.addHazard).result0 = s.result0 := rfl
@[simp] theorem State.addHazard_result1 (s : State) : (s.addHazard).result1 = s.result1 := rfl
@[simp] theorem State.addHazard_dmem (s : State) : (s.addHazard).dmem = s.dmem := rfl
@[simp] theorem State.addHazard_pending (s : State) : (s.addHazard).pending = s.pending := rfl
@[simp] theorem State.addHazard_faults (s : State) : (s.addHazard).faults = { s.faults with hazard := true } := rfl
@[simp] theorem State.addHazard_stuck (s : State) : (s.addHazard).stuck = s.stuck := rfl
@[simp] theorem State.addHazard_hostProgram (s : State) : (s.addHazard).hostProgram = s.hostProgram := rfl
@[simp] theorem State.addHazard_hostData (s : State) : (s.addHazard).hostData = s.hostData := rfl
@[simp] theorem State.addHazard_schedule (s : State) : (s.addHazard).schedule = s.schedule := rfl

/-! addUninit -/

@[simp] theorem State.addUninit_cfg (s : State) : (s.addUninit).cfg = s.cfg := rfl
@[simp] theorem State.addUninit_ctrl (s : State) : (s.addUninit).ctrl = s.ctrl := rfl
@[simp] theorem State.addUninit_status (s : State) : (s.addUninit).status = s.status := rfl
@[simp] theorem State.addUninit_cmd (s : State) : (s.addUninit).cmd = s.cmd := rfl
@[simp] theorem State.addUninit_ilDepth (s : State) : (s.addUninit).ilDepth = s.ilDepth := rfl
@[simp] theorem State.addUninit_args (s : State) : (s.addUninit).args = s.args := rfl
@[simp] theorem State.addUninit_result0 (s : State) : (s.addUninit).result0 = s.result0 := rfl
@[simp] theorem State.addUninit_result1 (s : State) : (s.addUninit).result1 = s.result1 := rfl
@[simp] theorem State.addUninit_dmem (s : State) : (s.addUninit).dmem = s.dmem := rfl
@[simp] theorem State.addUninit_pending (s : State) : (s.addUninit).pending = s.pending := rfl
@[simp] theorem State.addUninit_faults (s : State) : (s.addUninit).faults = { s.faults with uninit := true } := rfl
@[simp] theorem State.addUninit_stuck (s : State) : (s.addUninit).stuck = s.stuck := rfl
@[simp] theorem State.addUninit_hostProgram (s : State) : (s.addUninit).hostProgram = s.hostProgram := rfl
@[simp] theorem State.addUninit_hostData (s : State) : (s.addUninit).hostData = s.hostData := rfl
@[simp] theorem State.addUninit_schedule (s : State) : (s.addUninit).schedule = s.schedule := rfl

/-! setHostData -/

@[simp] theorem State.setHostData_cfg (s : State) (d : Option Word) : (s.setHostData d).cfg = s.cfg := rfl
@[simp] theorem State.setHostData_ctrl (s : State) (d : Option Word) : (s.setHostData d).ctrl = s.ctrl := rfl
@[simp] theorem State.setHostData_status (s : State) (d : Option Word) : (s.setHostData d).status = s.status := rfl
@[simp] theorem State.setHostData_cmd (s : State) (d : Option Word) : (s.setHostData d).cmd = s.cmd := rfl
@[simp] theorem State.setHostData_ilDepth (s : State) (d : Option Word) : (s.setHostData d).ilDepth = s.ilDepth := rfl
@[simp] theorem State.setHostData_args (s : State) (d : Option Word) : (s.setHostData d).args = s.args := rfl
@[simp] theorem State.setHostData_result0 (s : State) (d : Option Word) : (s.setHostData d).result0 = s.result0 := rfl
@[simp] theorem State.setHostData_result1 (s : State) (d : Option Word) : (s.setHostData d).result1 = s.result1 := rfl
@[simp] theorem State.setHostData_dmem (s : State) (d : Option Word) : (s.setHostData d).dmem = s.dmem := rfl
@[simp] theorem State.setHostData_pending (s : State) (d : Option Word) : (s.setHostData d).pending = s.pending := rfl
@[simp] theorem State.setHostData_faults (s : State) (d : Option Word) : (s.setHostData d).faults = s.faults := rfl
@[simp] theorem State.setHostData_stuck (s : State) (d : Option Word) : (s.setHostData d).stuck = s.stuck := rfl
@[simp] theorem State.setHostData_hostProgram (s : State) (d : Option Word) :
    (s.setHostData d).hostProgram = s.hostProgram := rfl
@[simp] theorem State.setHostData_hostData (s : State) (d : Option Word) : (s.setHostData d).hostData = d := rfl
@[simp] theorem State.setHostData_schedule (s : State) (d : Option Word) :
    (s.setHostData d).schedule = s.schedule := rfl

/-! popHost -/

@[simp] theorem State.popHost_cfg (s : State) : (s.popHost).cfg = s.cfg := rfl
@[simp] theorem State.popHost_ctrl (s : State) : (s.popHost).ctrl = s.ctrl := rfl
@[simp] theorem State.popHost_status (s : State) : (s.popHost).status = s.status := rfl
@[simp] theorem State.popHost_cmd (s : State) : (s.popHost).cmd = s.cmd := rfl
@[simp] theorem State.popHost_ilDepth (s : State) : (s.popHost).ilDepth = s.ilDepth := rfl
@[simp] theorem State.popHost_args (s : State) : (s.popHost).args = s.args := rfl
@[simp] theorem State.popHost_result0 (s : State) : (s.popHost).result0 = s.result0 := rfl
@[simp] theorem State.popHost_result1 (s : State) : (s.popHost).result1 = s.result1 := rfl
@[simp] theorem State.popHost_dmem (s : State) : (s.popHost).dmem = s.dmem := rfl
@[simp] theorem State.popHost_pending (s : State) : (s.popHost).pending = s.pending := rfl
@[simp] theorem State.popHost_faults (s : State) : (s.popHost).faults = s.faults := rfl
@[simp] theorem State.popHost_stuck (s : State) : (s.popHost).stuck = s.stuck := rfl
@[simp] theorem State.popHost_hostProgram (s : State) : (s.popHost).hostProgram = s.hostProgram.tail := rfl
@[simp] theorem State.popHost_hostData (s : State) : (s.popHost).hostData = s.hostData := rfl
@[simp] theorem State.popHost_schedule (s : State) : (s.popHost).schedule = s.schedule := rfl

/-! popTurn -/

@[simp] theorem State.popTurn_cfg (s : State) : (s.popTurn).cfg = s.cfg := rfl
@[simp] theorem State.popTurn_ctrl (s : State) : (s.popTurn).ctrl = s.ctrl := rfl
@[simp] theorem State.popTurn_status (s : State) : (s.popTurn).status = s.status := rfl
@[simp] theorem State.popTurn_cmd (s : State) : (s.popTurn).cmd = s.cmd := rfl
@[simp] theorem State.popTurn_ilDepth (s : State) : (s.popTurn).ilDepth = s.ilDepth := rfl
@[simp] theorem State.popTurn_args (s : State) : (s.popTurn).args = s.args := rfl
@[simp] theorem State.popTurn_result0 (s : State) : (s.popTurn).result0 = s.result0 := rfl
@[simp] theorem State.popTurn_result1 (s : State) : (s.popTurn).result1 = s.result1 := rfl
@[simp] theorem State.popTurn_dmem (s : State) : (s.popTurn).dmem = s.dmem := rfl
@[simp] theorem State.popTurn_pending (s : State) : (s.popTurn).pending = s.pending := rfl
@[simp] theorem State.popTurn_faults (s : State) : (s.popTurn).faults = s.faults := rfl
@[simp] theorem State.popTurn_stuck (s : State) : (s.popTurn).stuck = s.stuck := rfl
@[simp] theorem State.popTurn_hostProgram (s : State) : (s.popTurn).hostProgram = s.hostProgram := rfl
@[simp] theorem State.popTurn_hostData (s : State) : (s.popTurn).hostData = s.hostData := rfl
@[simp] theorem State.popTurn_schedule (s : State) : (s.popTurn).schedule = s.schedule.tail := rfl

/-! resetBlock -/

@[simp] theorem State.resetBlock_cfg (s : State) : (s.resetBlock).cfg = s.cfg := rfl
@[simp] theorem State.resetBlock_ctrl (s : State) : (s.resetBlock).ctrl = State.reset.ctrl := rfl
@[simp] theorem State.resetBlock_status (s : State) : (s.resetBlock).status = State.reset.status := rfl
@[simp] theorem State.resetBlock_cmd (s : State) : (s.resetBlock).cmd = State.reset.cmd := rfl
@[simp] theorem State.resetBlock_ilDepth (s : State) : (s.resetBlock).ilDepth = State.reset.ilDepth := rfl
@[simp] theorem State.resetBlock_args (s : State) : (s.resetBlock).args = State.reset.args := rfl
@[simp] theorem State.resetBlock_result0 (s : State) : (s.resetBlock).result0 = State.reset.result0 := rfl
@[simp] theorem State.resetBlock_result1 (s : State) : (s.resetBlock).result1 = State.reset.result1 := rfl
@[simp] theorem State.resetBlock_dmem (s : State) : (s.resetBlock).dmem = State.reset.dmem := rfl
@[simp] theorem State.resetBlock_pending (s : State) : (s.resetBlock).pending = State.reset.pending := rfl
@[simp] theorem State.resetBlock_faults (s : State) : (s.resetBlock).faults = State.reset.faults := rfl
@[simp] theorem State.resetBlock_stuck (s : State) : (s.resetBlock).stuck = State.reset.stuck := rfl
@[simp] theorem State.resetBlock_hostProgram (s : State) : (s.resetBlock).hostProgram = s.hostProgram := rfl
@[simp] theorem State.resetBlock_hostData (s : State) : (s.resetBlock).hostData = s.hostData := rfl
@[simp] theorem State.resetBlock_schedule (s : State) : (s.resetBlock).schedule = s.schedule := rfl

/-! commandPending -/

@[simp] theorem State.commandPending_cfg (s : State) (w : Word) : (s.commandPending w).cfg = s.cfg := rfl
@[simp] theorem State.commandPending_ctrl (s : State) (w : Word) : (s.commandPending w).ctrl = s.ctrl := rfl
@[simp] theorem State.commandPending_status (s : State) (w : Word) :
    (s.commandPending w).status = { busy := true, done := false, err := 0, crcOk := false, pduValid := false } := rfl
@[simp] theorem State.commandPending_cmd (s : State) (w : Word) : (s.commandPending w).cmd = w := rfl
@[simp] theorem State.commandPending_ilDepth (s : State) (w : Word) : (s.commandPending w).ilDepth = s.ilDepth := rfl
@[simp] theorem State.commandPending_args (s : State) (w : Word) : (s.commandPending w).args = s.args := rfl
@[simp] theorem State.commandPending_result0 (s : State) (w : Word) : (s.commandPending w).result0 = s.result0 := rfl
@[simp] theorem State.commandPending_result1 (s : State) (w : Word) : (s.commandPending w).result1 = s.result1 := rfl
@[simp] theorem State.commandPending_dmem (s : State) (w : Word) : (s.commandPending w).dmem = s.dmem := rfl
@[simp] theorem State.commandPending_pending (s : State) (w : Word) : (s.commandPending w).pending = w := rfl
@[simp] theorem State.commandPending_faults (s : State) (w : Word) : (s.commandPending w).faults = s.faults := rfl
@[simp] theorem State.commandPending_stuck (s : State) (w : Word) : (s.commandPending w).stuck = false := rfl
@[simp] theorem State.commandPending_hostProgram (s : State) (w : Word) :
    (s.commandPending w).hostProgram = s.hostProgram := rfl
@[simp] theorem State.commandPending_hostData (s : State) (w : Word) :
    (s.commandPending w).hostData = s.hostData := rfl
@[simp] theorem State.commandPending_schedule (s : State) (w : Word) :
    (s.commandPending w).schedule = .block :: s.schedule := rfl

end Sys2Proof.Machine
end

