-- ==== Sys2Proof/Laws/Operands.lean ====
section
/-! SUPPORT. The operand tests of the meanings in the terms claims are stated in (Safety.lean). -/

namespace Sys2Proof.Machine

theorem inRange_iff {s : State} {a n : Nat} : s.inRange a n = true ↔ Fits s a n := by
  simp [State.inRange, Fits]

theorem overlaps_iff {a1 n1 a2 n2 : Nat} : overlaps a1 n1 a2 n2 = true ↔ SharesByte a1 n1 a2 n2 := by
  simp only [overlaps, Bool.and_eq_true, bne_iff_ne, ne_eq, decide_eq_true_eq, SharesByte]
  constructor
  · rintro ⟨⟨⟨h1, h2⟩, h3⟩, h4⟩
    exact ⟨max a1 a2, by omega, by omega, by omega, by omega⟩
  · rintro ⟨x, h1, h2, h3, h4⟩
    omega

theorem allHard_iff {bs : List Byte} : allHard bs = true ↔ HardBits bs := by
  simp [allHard, hard, HardBits]

theorem readRange_iff_holds {s : State} {a n : Nat} {bs : List Byte} :
    s.dmem.readRange a n = some bs ↔ bs.length = n ∧ Holds s a bs :=
  Memory.readRange_eq_some

theorem readRange_iff_unwritten {s : State} {a n : Nat} :
    s.dmem.readRange a n = none ↔ HasUnwritten s a n :=
  Memory.readRange_eq_none

@[simp] theorem ArgFile.get_set_same (f : ArgFile) (k : Fin 8) (v : Word) : (f.set k v).get k = v := by
  fin_cases k <;> rfl

theorem ArgFile.get_set_other (f : ArgFile) {j k : Fin 8} (v : Word) (h : j ≠ k) :
    (f.set k v).get j = f.get j := by
  fin_cases k <;> fin_cases j <;> first | rfl | exact absurd rfl h

/-- What `complete` leaves in DMEM: `out` at `dst`, every other byte as before (R321). -/
theorem complete_writesOnly (s : State) (dst : Nat) (out : List Byte) (r0 r1 : Nat) :
    WritesOnly s (s.complete dst out r0 r1) dst out :=
  ⟨fun _ hi => Memory.read_writeRange_inside _ hi, fun _ ha => Memory.read_writeRange_outside _ ha⟩

/-- What `complete` leaves in the registers (R321). -/
theorem complete_succeeds (s : State) (dst : Nat) (out : List Byte) (r0 r1 : Nat) :
    Succeeds s (s.complete dst out r0 r1) r0 r1 := rfl

/-- What `raiseErr` leaves (R322). -/
theorem raiseErr_failsWith (s : State) (e : ErrCode) : FailsWith s (s.raiseErr e) e.code := rfl

/-- What `meetUninit` leaves (R331). -/
theorem meetUninit_meets (s : State) : MeetsUninit s s.meetUninit := rfl

end Sys2Proof.Machine
end

