-- ==== Sys2Proof/Laws/Lengths.lean ====
section
/-! SUPPORT. How many elements each command's result has. -/

namespace Sys2Proof.Machine

@[simp] theorem scrambleFrom_length (history : List Byte) (n : Nat) : (scrambleFrom history n).length = n := by
  induction n generalizing history with
  | zero => rfl
  | succ n ih => simp [scrambleFrom, ih]

@[simp] theorem scrseq_length (cc : List Byte) (n : Nat) : (scrseq cc n).length = n := scrambleFrom_length _ n

@[simp] theorem registerOutputs_length (r : Word) (n : Nat) : (registerOutputs r n).length = n := by
  induction n generalizing r with
  | zero => rfl
  | succ n ih => simp [registerOutputs, ih]

@[simp] theorem interleavePattern_length (k a : Nat) : (interleavePattern k a).length = k := by
  simp [interleavePattern]

@[simp] theorem gather_length (bits : List Byte) (pattern : List Nat) :
    (gather bits pattern).length = pattern.length := by
  simp [gather]

@[simp] theorem punctureTargets_length (k3 : Nat) : (punctureTargets k3).length = k3 := by
  simp [punctureTargets]

@[simp] theorem scatter_length (out : List Byte) (ps : List (Nat × Byte)) :
    (scatter out ps).length = out.length := by
  induction ps generalizing out with
  | nil => rfl
  | cons p ps ih => obtain ⟨t, b⟩ := p; simp [scatter, ih]

@[simp] theorem depuncture_length (bits : List Byte) :
    (depuncture bits).length = unpuncturedLength bits.length + pad := by
  simp [depuncture]

@[simp] theorem crcbits_length (m : List Byte) : (crcbits m).length = 16 := by
  simp [crcbits]

@[simp] theorem trellisStates_length : trellisStates.length = 16 := by simp [trellisStates]

@[simp] theorem nextMetrics_length (pm : List Metric) (y : List Byte) : (nextMetrics pm y).length = 16 := by
  simp [nextMetrics]

@[simp] theorem decisions_length (pm : List Metric) (y : List Byte) : (decisions pm y).length = 16 := by
  simp [decisions]

@[simp] theorem traceback_length (record : List (List Bool)) (s : Trellis) (out : List Byte) :
    (traceback record s out).length = record.length + out.length := by
  induction record generalizing s out with
  | nil => simp [traceback]
  | cons d older ih => simp [traceback, ih]; omega

@[simp] theorem toLE64_length (v : Nat) : (toLE64 v).length = 8 := by simp [toLE64]

@[simp] theorem packBytes_length (x : List Byte) : (packBytes x).length = (x.length + 7) / 8 := by
  simp [packBytes]

/-- A value takes vsize_f bytes (R281). -/
theorem encodeValue_length {f : Field} {x : List Byte} (h : x.length = f.len) :
    (encodeValue f.kind x).length = f.size := by
  unfold encodeValue Field.size
  cases f.kind <;> simp [h]

/-- The values together take W bytes, where the input has as many bits as the fields (R281). -/
theorem decodeFields_size {fs : List Field} {bits : List Byte} (h : totalBits fs = bits.length) :
    (decodeFields fs bits).flatten.length = totalSize fs := by
  induction fs generalizing bits with
  | nil => simp [decodeFields, totalSize]
  | cons f fs ih =>
    have ht : f.len + totalBits fs = bits.length := by simpa [totalBits] using h
    have h1 : (bits.take f.len).length = f.len := by simp; omega
    have h2 : totalBits fs = (bits.drop f.len).length := by simp; omega
    simp only [decodeFields, List.flatten_cons, List.length_append, ih h2, encodeValue_length h1]
    simp [totalSize]

end Sys2Proof.Machine
end

