-- ==== Sys2Proof/Laws/Exec.lean ====
section
/-! SUPPORT. Everything a command can do, said once for each: if its meaning answers next t, one of these cases holds.
Later proofs cite these lemmas instead of unfolding the meanings. -/

namespace Sys2Proof.Machine

/-- An error completion with one of the codes, MF_UNINIT, or one of the successes (R320). -/
def CommandCases (codes : List ErrCode) (success : State → Prop) (s t : State) : Prop :=
  (∃ e ∈ codes, t = s.raiseErr e) ∨ t = s.meetUninit ∨ success t

/-- Success that writes a region in range and leaves both flags alone (R321). -/
def WritesRegion (s t : State) : Prop :=
  ∃ dst out r0 r1, Fits s dst out.length ∧ t = s.complete dst out r0 r1

/-- CRCCHK's success: no DMEM write, CRC_OK given its value (R263). -/
def ChecksCrc (s t : State) : Prop := ∃ r1 b, t = (s.complete 0 [] 0 r1).setCrcOk b

/-- UNP's success: a region in range written, PDU_VALID given its value (R288). -/
def Unpacks (s t : State) : Prop :=
  ∃ dst out r0 r1 b, Fits s dst out.length ∧ t = (s.complete dst out r0 r1).setPduValid b

theorem execH2S_cases {s t : State} (h : execH2S s = .next t) :
    CommandCases [.address, .overlap, .invalidArgument] (WritesRegion s) s t := by
  simp only [execH2S] at h
  split at h
  · cases h; exact .inl ⟨_, by simp, rfl⟩
  split at h
  · cases h; exact .inl ⟨_, by simp, rfl⟩
  split at h
  · cases h; exact .inr (.inl rfl)
  split at h
  · cases h; exact .inl ⟨_, by simp, rfl⟩
  · next hr _ _ b hb _ =>
    cases h
    simp only [Bool.not_eq_true', Bool.not_eq_false, Bool.and_eq_true, inRange_iff] at hr
    exact .inr (.inr ⟨_, _, _, _, by simpa [Memory.readRange_length hb] using hr.2, rfl⟩)

theorem execS2H_cases {s t : State} (h : execS2H s = .next t) :
    CommandCases [.address, .overlap] (WritesRegion s) s t := by
  simp only [execS2H] at h
  split at h
  · cases h; exact .inl ⟨_, by simp, rfl⟩
  split at h
  · cases h; exact .inl ⟨_, by simp, rfl⟩
  split at h
  · cases h; exact .inr (.inl rfl)
  · next hr _ _ b hb =>
    cases h
    simp only [Bool.not_eq_true', Bool.not_eq_false, Bool.and_eq_true, inRange_iff] at hr
    exact .inr (.inr ⟨_, _, _, _, by simpa [Memory.readRange_length hb] using hr.2, rfl⟩)

theorem execScrseq_cases {s t : State} (h : execScrseq s = .next t) :
    CommandCases [.invalidArgument, .address, .overlap] (WritesRegion s) s t := by
  simp only [execScrseq] at h
  split at h
  · cases h; exact .inl ⟨_, by simp, rfl⟩
  split at h
  · cases h; exact .inl ⟨_, by simp, rfl⟩
  split at h
  · cases h; exact .inl ⟨_, by simp, rfl⟩
  split at h
  · cases h; exact .inr (.inl rfl)
  split at h
  · cases h; exact .inl ⟨_, by simp, rfl⟩
  · next hr _ _ b hb _ =>
    cases h
    simp only [Bool.not_eq_true', Bool.not_eq_false, Bool.and_eq_true, inRange_iff] at hr
    exact .inr (.inr ⟨_, _, _, _, by simpa using hr.2, rfl⟩)

theorem scrambleCommand_cases {mix : Byte → Byte → Byte} {hardData : Bool} {s t : State}
    (h : scrambleCommand mix hardData s = .next t) :
    CommandCases [.lengthMismatch, .address, .overlap, .invalidArgument] (WritesRegion s) s t := by
  simp only [scrambleCommand] at h
  split at h
  · cases h; exact .inl ⟨_, by simp, rfl⟩
  split at h
  · cases h; exact .inl ⟨_, by simp, rfl⟩
  split at h
  · cases h; exact .inl ⟨_, by simp, rfl⟩
  split at h
  · next hr _ _ _ b q hb hq =>
    split at h
    · cases h; exact .inl ⟨_, by simp, rfl⟩
    split at h
    · cases h; exact .inl ⟨_, by simp, rfl⟩
    · cases h
      simp only [Bool.not_eq_true', Bool.not_eq_false, Bool.and_eq_true, inRange_iff] at hr
      exact .inr (.inr ⟨_, _, _, _,
        by simpa [Memory.readRange_length hb, Memory.readRange_length hq] using hr.2, rfl⟩)
  · cases h; exact .inr (.inl rfl)

theorem execDil_cases {s t : State} (h : execDil s = .next t) :
    CommandCases [.unsupported, .address, .overlap] (WritesRegion s) s t := by
  simp only [execDil] at h
  split at h
  · cases h; exact .inl ⟨_, by simp, rfl⟩
  split at h
  · cases h; exact .inl ⟨_, by simp, rfl⟩
  split at h
  · cases h; exact .inl ⟨_, by simp, rfl⟩
  split at h
  · cases h; exact .inr (.inl rfl)
  · next hr _ _ b hb =>
    cases h
    simp only [Bool.not_eq_true', Bool.not_eq_false, Bool.and_eq_true, inRange_iff] at hr
    exact .inr (.inr ⟨_, _, _, _, by simpa using hr.2, rfl⟩)

theorem execDpn_cases {rate : Nat} {s t : State} (h : execDpn rate s = .next t) :
    CommandCases [.unsupported, .address, .overlap] (WritesRegion s) s t := by
  simp only [execDpn] at h
  split at h
  · cases h; exact .inl ⟨_, by simp, rfl⟩
  split at h
  · cases h; exact .inl ⟨_, by simp, rfl⟩
  split at h
  · cases h; exact .inl ⟨_, by simp, rfl⟩
  split at h
  · cases h; exact .inl ⟨_, by simp, rfl⟩
  split at h
  · cases h; exact .inr (.inl rfl)
  · next hr _ _ b hb =>
    cases h
    simp only [Bool.not_eq_true', Bool.not_eq_false, Bool.and_eq_true, inRange_iff] at hr
    exact .inr (.inr ⟨_, _, _, _, by simpa [Memory.readRange_length hb] using hr.2, rfl⟩)

theorem viterbiCommand_cases {final : List Metric → Trellis} {s t : State}
    (h : viterbiCommand final s = .next t) :
    CommandCases [.invalidArgument, .address, .overlap] (WritesRegion s) s t := by
  simp only [viterbiCommand] at h
  split at h
  · cases h; exact .inl ⟨_, by simp, rfl⟩
  split at h
  · cases h; exact .inl ⟨_, by simp, rfl⟩
  split at h
  · cases h; exact .inl ⟨_, by simp, rfl⟩
  split at h
  · cases h; exact .inl ⟨_, by simp, rfl⟩
  split at h
  · cases h; exact .inr (.inl rfl)
  · next hr _ _ y hy =>
    cases h
    simp only [Bool.not_eq_true', Bool.not_eq_false, Bool.and_eq_true, inRange_iff] at hr
    refine .inr (.inr ⟨_, _, _, _, ?_, rfl⟩)
    have hl : ((viterbi final y).1.take (s.argNat 3)).length ≤ s.argNat 3 := List.length_take_le _ _
    have := hr.2
    simp only [Fits] at this ⊢
    omega

theorem execCrc16_cases {s t : State} (h : execCrc16 s = .next t) :
    CommandCases [.address, .overlap, .invalidArgument] (WritesRegion s) s t := by
  simp only [execCrc16] at h
  split at h
  · cases h; exact .inl ⟨_, by simp, rfl⟩
  split at h
  · cases h; exact .inl ⟨_, by simp, rfl⟩
  split at h
  · cases h; exact .inr (.inl rfl)
  split at h
  · cases h; exact .inl ⟨_, by simp, rfl⟩
  · next hr _ _ b hb _ =>
    cases h
    simp only [Bool.not_eq_true', Bool.not_eq_false, Bool.and_eq_true, inRange_iff] at hr
    exact .inr (.inr ⟨_, _, _, _, by simpa using hr.2, rfl⟩)

theorem execCrcchk_cases {s t : State} (h : execCrcchk s = .next t) :
    CommandCases [.address, .invalidArgument] (ChecksCrc s) s t := by
  simp only [execCrcchk] at h
  split at h
  · cases h; exact .inl ⟨_, by simp, rfl⟩
  split at h
  · cases h; exact .inr (.inl rfl)
  split at h
  · cases h; exact .inl ⟨_, by simp, rfl⟩
  · cases h; exact .inr (.inr ⟨_, _, rfl⟩)

theorem unpackFields_cases {fs : List Field} {s t : State} (h : unpackFields fs s = .next t) :
    CommandCases [.unsupported, .lengthMismatch, .address, .overlap, .invalidArgument] (Unpacks s) s t := by
  simp only [unpackFields] at h
  split at h
  · cases h; exact .inl ⟨_, by simp, rfl⟩
  split at h
  · cases h; exact .inl ⟨_, by simp, rfl⟩
  split at h
  · cases h; exact .inl ⟨_, by simp, rfl⟩
  split at h
  · cases h; exact .inl ⟨_, by simp, rfl⟩
  split at h
  · next hn hr _ _ _ bits defaults hb hd =>
    split at h
    · cases h; exact .inl ⟨_, by simp, rfl⟩
    · cases h
      refine .inr (.inr ⟨_, _, _, _, _, ?_, rfl⟩)
      rw [decodeFields_size (by rw [Memory.readRange_length hb]; simpa using hn)]
      simp only [Bool.or_eq_true, Bool.not_eq_true', Bool.and_eq_false_iff, not_or, Bool.not_eq_false,
        inRange_iff] at hr
      exact hr.1.2
  · cases h; exact .inr (.inl rfl)

theorem execUnp_cases {s t : State} (h : execUnp s = .next t) :
    CommandCases [.address, .invalidArgument, .unsupported, .lengthMismatch, .overlap] (Unpacks s) s t := by
  simp only [execUnp] at h
  split at h
  · cases h; exact .inl ⟨_, by simp, rfl⟩
  split at h
  · cases h; exact .inr (.inl rfl)
  split at h
  · cases h; exact .inl ⟨_, by simp, rfl⟩
  · rcases unpackFields_cases h with ⟨e, he, ht⟩ | ht | ht
    · exact .inl ⟨e, by simp only [List.mem_cons, List.not_mem_nil, or_false] at he ⊢; tauto, ht⟩
    · exact .inr (.inl ht)
    · exact .inr (.inr ht)

/-- What any command can do. -/
theorem exec_cases {i : Instr} {s t : State} (h : exec i s = .next t) :
    (∃ e, e ≠ ErrCode.ok ∧ t = s.raiseErr e) ∨ t = s.meetUninit ∨ WritesRegion s t
      ∨ (i = .crcchk ∧ ChecksCrc s t) ∨ (i = .unp ∧ Unpacks s t) := by
  have key : ∀ {codes : List ErrCode}, ErrCode.ok ∉ codes → CommandCases codes (WritesRegion s) s t →
      (∃ e, e ≠ ErrCode.ok ∧ t = s.raiseErr e) ∨ t = s.meetUninit ∨ WritesRegion s t
        ∨ (i = .crcchk ∧ ChecksCrc s t) ∨ (i = .unp ∧ Unpacks s t) := by
    rintro codes hok (⟨e, he, ht⟩ | ht | ht)
    · exact .inl ⟨e, fun h => hok (h ▸ he), ht⟩
    · exact .inr (.inl ht)
    · exact .inr (.inr (.inl ht))
  cases i with
  | h2s => exact key (by simp) (execH2S_cases h)
  | s2h => exact key (by simp) (execS2H_cases h)
  | scrseq => exact key (by simp) (execScrseq_cases h)
  | scrHard => exact key (by simp) (scrambleCommand_cases h)
  | scrSoft => exact key (by simp) (scrambleCommand_cases h)
  | dil => exact key (by simp) (execDil_cases h)
  | dpn rate => exact key (by simp) (execDpn_cases h)
  | vitZero => exact key (by simp) (viterbiCommand_cases h)
  | vitMin => exact key (by simp) (viterbiCommand_cases h)
  | crc16 => exact key (by simp) (execCrc16_cases h)
  | crcchk =>
    rcases execCrcchk_cases h with ⟨e, he, ht⟩ | ht | ht
    · exact .inl ⟨e, by rintro rfl; simp at he, ht⟩
    · exact .inr (.inl ht)
    · exact .inr (.inr (.inr (.inl ⟨rfl, ht⟩)))
  | unp =>
    rcases execUnp_cases h with ⟨e, he, ht⟩ | ht | ht
    · exact .inl ⟨e, by rintro rfl; simp at he, ht⟩
    · exact .inr (.inl ht)
    · exact .inr (.inr (.inr (.inr ⟨rfl, ht⟩)))

end Sys2Proof.Machine
end

