-- ==== Sys2Proof/Laws/Host.lean ====
section
/-! SUPPORT. Everything the host's turn, the block's turn and a step can do, said once for each. Later proofs cite these
lemmas instead of unfolding the turns. -/

namespace Sys2Proof.Machine

/-! The address map. -/

theorem regAt_regOffset (r : Reg) : regAt (regOffset r) = some r := by
  cases r with
  | arg k => fin_cases k <;> rfl
  | _ => rfl

theorem regOffset_of_regAt {off : Nat} {r : Reg} (h : regAt off = some r) : off = regOffset r := by
  unfold regAt at h
  split at h <;> cases h <;> rfl

/-- Every register lies below the DMEM window (R33, R71). -/
theorem regOffset_lt_window (r : Reg) : regOffset r < dmemWindow := by
  cases r with
  | arg k =>
    have := k.isLt
    change 0x10 + 4 * k.val < 0x10000
    omega
  | _ => decide

/-- An access that names a register is a whole word (R71). -/
theorem busTarget_reg_width {c : Config} {bytes addr : Nat} {r : Reg} (h : busTarget c bytes addr = .reg r) :
    bytes = 4 := by
  unfold busTarget targetAt at h
  repeat' split at h
  all_goals first | assumption | cases h

/-- An access that names a DMEM byte names one that exists (R70, R71). -/
theorem busTarget_dmem_lt {c : Config} {bytes addr a : Nat} (h : busTarget c bytes addr = .dmem a) :
    a < c.dmemSize := by
  unfold busTarget targetAt at h
  generalize dmemWindow = window at *
  (repeat' split at h) <;> simp only [Target.dmem.injEq, reduceCtorEq] at h
  omega

/-! The host's turn. -/

/-- What a host's turn leaves of the command side of the block: everything; or all but DONE, which it may clear; or it
starts a command, by a store to CMD while BUSY = 0. -/
def CommandSideCases (s t : State) : Prop :=
  (t.status = s.status ∧ t.pending = s.pending ∧ t.cmd = s.cmd ∧ t.result0 = s.result0 ∧ t.result1 = s.result1) ∨
  (∃ keep, t.status = { s.status with done := s.status.done && keep } ∧ t.pending = s.pending ∧ t.cmd = s.cmd
    ∧ t.result0 = s.result0 ∧ t.result1 = s.result1) ∨
  (s.status.busy = false ∧ ∃ w, t = s.popHost.startCommand w ∧
    ∃ addr, s.hostProgram.head? = some (.store 4 addr w) ∧ busTarget s.cfg 4 addr = .reg .cmd)

/-- Everything a host's turn can do. -/
structure HostChanges (s t : State) : Prop where
  cfg : t.cfg = s.cfg
  stuck : t.stuck = s.stuck
  schedule : t.schedule = s.schedule
  busKept : s.faults.bus = true → t.faults.bus = true
  hazardKept : s.faults.hazard = true → t.faults.hazard = true
  uninitKept : s.faults.uninit = true → t.faults.uninit = true
  commandSide : CommandSideCases s t
  dmem : t.dmem = s.dmem ∨ ∃ a v, a < s.cfg.dmemSize ∧ s.status.busy = false ∧ t.dmem = s.dmem.write a v
  whileBusy : s.status.busy = true → t.args = s.args ∧ t.ilDepth = s.ilDepth ∧ t.dmem = s.dmem

/-- A state that differs from s only in what the host reads back, its program and a grown fault set. -/
theorem hostChanges_of_eq {s t : State} {faults : ModelFaults}
    (ht : t = { s with faults := faults, hostProgram := t.hostProgram, hostData := t.hostData })
    (hb : s.faults.bus = true → faults.bus = true) (hh : s.faults.hazard = true → faults.hazard = true)
    (hu : s.faults.uninit = true → faults.uninit = true) : HostChanges s t := by
  rw [ht]
  exact ⟨rfl, rfl, rfl, hb, hh, hu, .inl ⟨rfl, rfl, rfl, rfl, rfl⟩, .inl rfl, fun _ => ⟨rfl, rfl, rfl⟩⟩

theorem hostChanges_popHost {s t : State} (h : HostChanges s.popHost t) (hn : t.dmem = s.dmem ∧ t.status = s.status
    ∧ t.pending = s.pending ∧ t.cmd = s.cmd ∧ t.result0 = s.result0 ∧ t.result1 = s.result1) : HostChanges s t :=
  ⟨h.cfg, h.stuck, h.schedule, h.busKept, h.hazardKept, h.uninitKept, .inl hn.2, .inl hn.1, h.whileBusy⟩

theorem refuseUnmapped_changes (s : State) : s.refuseUnmapped.dmem = s.dmem ∧ s.refuseUnmapped.status = s.status
    ∧ s.refuseUnmapped.pending = s.pending ∧ s.refuseUnmapped.cmd = s.cmd
    ∧ s.refuseUnmapped.result0 = s.result0 ∧ s.refuseUnmapped.result1 = s.result1
    ∧ HostChanges s s.refuseUnmapped := by
  unfold State.refuseUnmapped
  split
  · exact ⟨rfl, rfl, rfl, rfl, rfl, rfl,
      hostChanges_of_eq (faults := { s.faults with bus := true, hazard := true }) rfl (fun _ => rfl) (fun _ => rfl) id⟩
  · exact ⟨rfl, rfl, rfl, rfl, rfl, rfl,
      hostChanges_of_eq (faults := { s.faults with bus := true }) rfl (fun _ => rfl) id id⟩

/-- A load changes only FAULTS and what the host reads back. -/
theorem hostLoad_changes (s : State) (T : Target) : (hostLoad s T).dmem = s.dmem ∧ (hostLoad s T).status = s.status
    ∧ (hostLoad s T).pending = s.pending ∧ (hostLoad s T).cmd = s.cmd ∧ (hostLoad s T).result0 = s.result0
    ∧ (hostLoad s T).result1 = s.result1 ∧ HostChanges s (hostLoad s T) := by
  have hazard : HostChanges s (s.addHazard.setHostData none) :=
    hostChanges_of_eq (faults := { s.faults with hazard := true }) rfl id (fun _ => rfl) id
  unfold hostLoad
  split
  · unfold State.refuseUnmapped
    split
    · exact ⟨rfl, rfl, rfl, rfl, rfl, rfl, hostChanges_of_eq
        (faults := { s.faults with bus := true, hazard := true }) rfl (fun _ => rfl) (fun _ => rfl) id⟩
    · exact ⟨rfl, rfl, rfl, rfl, rfl, rfl,
        hostChanges_of_eq (faults := { s.faults with bus := true }) rfl (fun _ => rfl) id id⟩
  · split
    · exact ⟨rfl, rfl, rfl, rfl, rfl, rfl, hazard⟩
    · exact ⟨rfl, rfl, rfl, rfl, rfl, rfl, hostChanges_of_eq (faults := s.faults) rfl id id id⟩
  · split
    · exact ⟨rfl, rfl, rfl, rfl, rfl, rfl, hazard⟩
    · split
      · exact ⟨rfl, rfl, rfl, rfl, rfl, rfl, hostChanges_of_eq (faults := s.faults) rfl id id id⟩
      · exact ⟨rfl, rfl, rfl, rfl, rfl, rfl,
          hostChanges_of_eq (faults := { s.faults with uninit := true }) rfl id id (fun _ => rfl)⟩

/-- A store, by what it names (R41, R46, R72, R73, R360). -/
theorem hostStore_changes {s : State} {bytes addr : Nat} {w : Word} {rest : List HostOp}
    (hp : s.hostProgram = .store bytes addr w :: rest) :
    HostChanges s (hostStore s.popHost (busTarget s.cfg bytes addr) w) := by
  have kept : ∀ {u : State} {faults : ModelFaults},
      u = { s with faults := faults, hostProgram := u.hostProgram, hostData := u.hostData } →
      (s.faults.bus = true → faults.bus = true) → (s.faults.hazard = true → faults.hazard = true) →
      (s.faults.uninit = true → faults.uninit = true) → HostChanges s u := hostChanges_of_eq
  have hazard : HostChanges s s.popHost.addHazard :=
    kept (faults := { s.faults with hazard := true }) rfl id (fun _ => rfl) id
  cases hT : busTarget s.cfg bytes addr with
  | unmapped =>
    obtain ⟨h1, h2, h3, h4, h5, h6, h⟩ := refuseUnmapped_changes s.popHost
    exact hostChanges_popHost h ⟨h1, h2, h3, h4, h5, h6⟩
  | dmem a =>
    simp only [hostStore]
    split
    · exact hazard
    · next hb =>
      have hb : s.status.busy = false := by simpa using hb
      exact ⟨rfl, rfl, rfl, id, id, id, .inl ⟨rfl, rfl, rfl, rfl, rfl⟩, .inr ⟨a, _, busTarget_dmem_lt hT, hb, rfl⟩,
        fun h => absurd (h.symm.trans hb) (by decide)⟩
  | reg r =>
    simp only [hostStore]
    split
    · exact hazard
    · next hb =>
      have idle : openWhileBusy r = false → s.status.busy = false := fun ho => by
        have hb : ¬(s.status.busy && !openWhileBusy r) = true := hb
        simpa [ho] using hb
      have notBusy : ∀ {P : Prop}, s.status.busy = false → s.status.busy = true → P :=
        fun h h' => absurd (h'.symm.trans h) (by decide)
      cases r with
      | ctrl =>
        exact ⟨rfl, rfl, rfl, id, id, id, .inl ⟨rfl, rfl, rfl, rfl, rfl⟩, .inl rfl, fun _ => ⟨rfl, rfl, rfl⟩⟩
      | status =>
        exact ⟨rfl, rfl, rfl, id, id, id, .inr (.inl ⟨_, rfl, rfl, rfl, rfl, rfl⟩), .inl rfl,
          fun _ => ⟨rfl, rfl, rfl⟩⟩
      | cmd =>
        have hw := busTarget_reg_width hT
        subst hw
        exact ⟨rfl, rfl, rfl, id, id, id, .inr (.inr ⟨idle rfl, w, rfl, addr, by rw [hp]; rfl, hT⟩), .inl rfl,
          fun _ => ⟨rfl, rfl, rfl⟩⟩
      | ilDepth =>
        exact ⟨rfl, rfl, rfl, id, id, id, .inl ⟨rfl, rfl, rfl, rfl, rfl⟩, .inl rfl, notBusy (idle rfl)⟩
      | arg k =>
        exact ⟨rfl, rfl, rfl, id, id, id, .inl ⟨rfl, rfl, rfl, rfl, rfl⟩, .inl rfl, notBusy (idle rfl)⟩
      | result0 => exact kept (faults := s.faults) rfl id id id
      | result1 => exact kept (faults := s.faults) rfl id id id

/-- Everything a host's turn can do. -/
theorem hostTurn_changes (s : State) : HostChanges s (hostTurn s) := by
  have load : ∀ T, HostChanges s (hostLoad s.popHost T) := fun T => by
    obtain ⟨h1, h2, h3, h4, h5, h6, h⟩ := hostLoad_changes s.popHost T
    exact hostChanges_popHost h ⟨h1, h2, h3, h4, h5, h6⟩
  unfold hostTurn
  split
  · exact hostChanges_of_eq (faults := s.faults) rfl id id id
  · exact load _
  · next hp => exact hostStore_changes hp
  · split
    · exact (hostLoad_changes s _).2.2.2.2.2.2
    · exact load _

/-! The block's turn and the step. -/

/-- Everything the block's turn can do (R320, R331, R337). -/
theorem blockTurn_cases {s t : State} (h : blockTurn s = .next t) :
    (s.status.busy = false ∧ t = s) ∨ (s.status.busy = true ∧ s.stuck = false ∧
      ((∃ e, e ≠ ErrCode.ok ∧ t = s.raiseErr e) ∨ t = s.meetUninit ∨ WritesRegion s t ∨ ChecksCrc s t
        ∨ Unpacks s t)) := by
  unfold blockTurn at h
  split at h
  · next hb => cases h; exact .inl ⟨by simpa using hb, rfl⟩
  split at h
  · cases h
  · next hb hs =>
    refine .inr ⟨by simpa using hb, by simpa using hs, ?_⟩
    split at h
    · cases h; exact .inl ⟨.illegalCmd, by decide, rfl⟩
    · rcases exec_cases h with h | h | h | ⟨-, h⟩ | ⟨-, h⟩
      · exact .inl h
      · exact .inr (.inl h)
      · exact .inr (.inr (.inl h))
      · exact .inr (.inr (.inr (.inl h)))
      · exact .inr (.inr (.inr (.inr h)))

/-- Everything a step can do: one turn of the host, of the block, or a reset (R82, R350). -/
theorem step_cases {s t : State} (h : step s = .next t) :
    (nextTurn s = .host ∧ t = hostTurn s.popTurn) ∨ (nextTurn s = .block ∧ blockTurn s.popTurn = .next t)
      ∨ (nextTurn s = .reset ∧ t = s.popTurn.resetBlock) := by
  unfold step takeTurn at h
  split at h
  · next hn => cases h; exact .inl ⟨hn, rfl⟩
  · next hn => exact .inr (.inl ⟨hn, h⟩)
  · next hn => cases h; exact .inr (.inr ⟨hn, rfl⟩)

end Sys2Proof.Machine
end

