-- ==== Sys2Proof/Laws/PerInstr.lean ====
section
/-! SUPPORT. Facts about every command as syntax, one lemma per constructor. -/

namespace Sys2Proof.Laws

/-- A command's row of spec/opcode_table.json: its OPC, and its MODE where the row fixes it (R104, R105, R115). -/
def tableRow : Instr → Nat × Option Nat
  | .h2s => (0x01, some 0)
  | .s2h => (0x02, some 0)
  | .scrseq => (0x10, some 0)
  | .scrHard => (0x11, some 0)
  | .scrSoft => (0x11, some 1)
  | .dil => (0x20, some 0)
  | .dpn _ => (0x30, none)
  | .vitZero => (0x40, some 0)
  | .vitMin => (0x40, some 1)
  | .crc16 => (0x50, some 0)
  | .crcchk => (0x51, some 0)
  | .unp => (0x60, some 0)

/-- The twelve rows of spec/opcode_table.json, in its order. -/
def tableRows : List (Nat × Option Nat) :=
  [.h2s, .s2h, .scrseq, .scrHard, .scrSoft, .dil, .dpn 0, .vitZero, .vitMin, .crc16, .crcchk, .unp].map tableRow

/-- A word's fields are those of a row (R101). -/
abbrev FitsRow (w : Word) (row : Nat × Option Nat) : Prop :=
  rsvField w = 0 ∧ opcField w = row.1 ∧ (row.2 = none ∨ row.2 = some (modeField w))

namespace EncodesItsRow

/-- The encoding of a well-formed command fits its own row of the opcode table, and no other row. -/
def Statement (i : Instr) : Prop :=
  i.wellFormed = true → ∀ row ∈ tableRows, FitsRow (encode i) row ↔ row = tableRow i

theorem h2s : Statement .h2s := by unfold Statement; decide
theorem s2h : Statement .s2h := by unfold Statement; decide
theorem scrseq : Statement .scrseq := by unfold Statement; decide
theorem scrHard : Statement .scrHard := by unfold Statement; decide
theorem scrSoft : Statement .scrSoft := by unfold Statement; decide
theorem dil : Statement .dil := by unfold Statement; decide
theorem vitZero : Statement .vitZero := by unfold Statement; decide
theorem vitMin : Statement .vitMin := by unfold Statement; decide
theorem crc16 : Statement .crc16 := by unfold Statement; decide
theorem crcchk : Statement .crcchk := by unfold Statement; decide
theorem unp : Statement .unp := by unfold Statement; decide

theorem dpn (rate : Nat) : Statement (.dpn rate) := by
  intro h
  have hr : rate < 16 := by simpa [Instr.wellFormed] using h
  have key : ∀ r : Fin 16, ∀ row ∈ tableRows, FitsRow (encode (.dpn r.val)) row ↔ row = tableRow (.dpn 0) := by
    decide
  exact key ⟨rate, hr⟩

end EncodesItsRow

end Sys2Proof.Laws
end

