-- ==== Sys2Proof/Tests/Slice0.lean ====
section
/-! SUPPORT. The model's own tests: ill-formed terms, words written out from the encoding tables, vectors of
spec/95_test_vectors.md, and for every obligation with hypotheses a state and operands that meet them, each clause at a
boundary of its range. -/

namespace Sys2Proof.Tests

/-! The kernel evaluates these one at a time: in parallel they ask for more threads than the memory limit grants. -/
set_option Elab.async false

open Sys2Proof.Machine

/-! ## Well-formedness -/

theorem test_rate_16_is_refused : Instr.wellFormed (.dpn 16) = false := by decide
theorem test_rate_15_is_accepted : Instr.wellFormed (.dpn 15) = true := by decide
theorem test_wrCmd_of_rate_16_is_refused : HostLine.wellFormed (.wrCmd (.dpn 16)) = false := by decide
theorem test_run_with_9_operands_is_refused : HostLine.wellFormed (.run .unp (List.replicate 9 0)) = false := by decide
theorem test_run_with_8_operands_is_accepted : HostLine.wellFormed (.run .unp (List.replicate 8 0)) = true := by decide
theorem test_run_of_rate_16_is_refused : HostLine.wellFormed (.run (.dpn 16) []) = false := by decide

/-! ## Decoding: the words of 30_encoding.md, RSV (20 bits), MODE (4 bits), OPC (8 bits) written out -/

theorem test_decode_h2s : decode 0b00000000000000000000_0000_00000001 = .ok .h2s := by rfl
theorem test_decode_s2h : decode 0b00000000000000000000_0000_00000010 = .ok .s2h := by rfl
theorem test_decode_scrseq : decode 0b00000000000000000000_0000_00010000 = .ok .scrseq := by rfl
theorem test_decode_scrHard : decode 0b00000000000000000000_0000_00010001 = .ok .scrHard := by rfl
theorem test_decode_scrSoft : decode 0b00000000000000000000_0001_00010001 = .ok .scrSoft := by rfl
theorem test_decode_dil : decode 0b00000000000000000000_0000_00100000 = .ok .dil := by rfl
theorem test_decode_dpn_rate_0 : decode 0b00000000000000000000_0000_00110000 = .ok (.dpn 0) := by rfl
theorem test_decode_dpn_rate_9 : decode 0b00000000000000000000_1001_00110000 = .ok (.dpn 9) := by rfl
theorem test_decode_vitZero : decode 0b00000000000000000000_0000_01000000 = .ok .vitZero := by rfl
theorem test_decode_vitMin : decode 0b00000000000000000000_0001_01000000 = .ok .vitMin := by rfl
theorem test_decode_crc16 : decode 0b00000000000000000000_0000_01010000 = .ok .crc16 := by rfl
theorem test_decode_crcchk : decode 0b00000000000000000000_0000_01010001 = .ok .crcchk := by rfl
theorem test_decode_unp : decode 0b00000000000000000000_0000_01100000 = .ok .unp := by rfl

/-- The three reasons of R103, in their order: V-REG-3, an OPC outside R104, V-VIT-12. -/
theorem test_decode_refusals :
    decode 0x00001011 = .error .reservedBits ∧ decode 0x80000001 = .error .reservedBits
      ∧ decode 0x00000000 = .error .unknownOpcode ∧ decode 0x00000103 = .error .unknownOpcode
      ∧ decode 0x00000240 = .error .illegalMode ∧ decode 0x00000101 = .error .illegalMode := by
  refine ⟨rfl, rfl, rfl, rfl, rfl, rfl⟩

theorem test_table_word_of_dpn : decodeTableWord 32 0x00000F30 = some (.dpn 15) := by rfl

/-! ## Small states -/

/-- Argument registers holding the values, the rest 0. -/
def argsOf (vs : List Word) : ArgFile :=
  { arg0 := vs.getD 0 0, arg1 := vs.getD 1 0, arg2 := vs.getD 2 0, arg3 := vs.getD 3 0, arg4 := vs.getD 4 0,
    arg5 := vs.getD 5 0, arg6 := vs.getD 6 0, arg7 := vs.getD 7 0 }

/-- DMEM with regions written, in order. -/
def dmemOf (regions : List (Nat × List Byte)) : Memory :=
  regions.foldl (fun m r => m.writeRange r.1 r.2) []

/-- A command pending, at the least DMEM_SIZE of R9 (64 bytes) and a BLOCK_BASE other than 0. -/
def pending (vs : List Word) (regions : List (Nat × List Byte)) : State :=
  { State.reset with
    cfg := { dmemSize := 64, blockBase := 0x40000000 }
    status := { busy := true, done := false, err := 0, crcOk := false, pduValid := false }
    args := argsOf vs
    dmem := dmemOf regions }

/-- The same at the reference DMEM_SIZE of the spec's vectors. -/
def pendingRef (vs : List Word) (regions : List (Nat × List Byte)) : State :=
  { pending vs regions with cfg := Config.reference }

/-- The command's end, seen as the status code, RESULT0, RESULT1 and the bytes at a place. -/
def ending (i : Instr) (s : State) (a n : Nat) : Option (BitVec 4 × Word × Word × Option (List Byte)) :=
  match exec i s with
  | .next t => some (t.status.err, t.result0, t.result1, t.dmem.readRange a n)
  | _ => none

/-- A flag at the command's end. -/
def endsWith (i : Instr) (s : State) (p : State → Bool) : Bool :=
  match exec i s with
  | .next t => p t
  | _ => false

/-! ## Vectors of spec/95_test_vectors.md -/

/-- V-PRIM-1. -/
theorem test_h2s : ending .h2s (pendingRef [0, 4, 8] [(0, [0, 1, 1, 0])]) 8 4
    = some (0, 4, 0, some [0x00, 0xFF, 0xFF, 0x00]) := by decide +kernel

/-- V-PRIM-4. -/
theorem test_h2s_refuses_soft_bytes : ending .h2s (pendingRef [0, 3, 8] [(0, [0x00, 0x02, 0x01])]) 8 3
    = some (2, 0, 0, none) := by decide +kernel

/-- V-PRIM-2. -/
theorem test_s2h : ending .s2h (pendingRef [0, 6, 8] [(0, [0x00, 0x7F, 0x80, 0xFF, 0x01, 0xC3])]) 8 6
    = some (0, 6, 0, some [0, 0, 1, 1, 0, 1]) := by decide +kernel

/-- V-PRIM-7. -/
theorem test_s2h_out_of_range : ending .s2h (pendingRef [4090, 8, 0] []) 0 0 = some (6, 0, 0, some []) := by
  decide +kernel

/-- V-SEQ-1. -/
theorem test_scrseq_zero_colour_code : ending .scrseq (pendingRef [0, 30, 32, 8] [(0, List.replicate 30 0)]) 32 8
    = some (0, 8, 0, some [1, 0, 1, 1, 1, 1, 1, 1]) := by decide +kernel

/-- V-SEQ-3: the colour code's first bit enters the recurrence at tap 32 - 2. -/
theorem test_scrseq_first_colour_bit :
    ending .scrseq (pendingRef [0, 30, 32, 32] [(0, 1 :: List.replicate 29 0)]) 32 32
      = some (0, 32, 0, some [1, 0, 0, 0, 1, 0, 1, 0, 1, 0, 1, 0, 0, 0, 1, 0, 1, 1, 0, 1, 1, 0, 0, 1, 1, 1, 0, 1, 1, 1,
        1, 0]) := by decide +kernel

/-- V-SEQ-5: the register form's start. -/
theorem test_initial_register : initialRegister ((List.replicate 15 [1, 0]).flatten) = 0xEAAAAAAA := by
  decide +kernel

/-- V-SCR-1. -/
theorem test_scrHard : ending .scrHard (pendingRef [0, 4, 8, 4, 16] [(0, [1, 0, 1, 1]), (8, [1, 1, 0, 1])]) 16 4
    = some (0, 4, 0, some [0, 1, 1, 0]) := by decide +kernel

/-- V-SCR-3. -/
theorem test_scrHard_length_mismatch : ending .scrHard (pendingRef [0, 4, 8, 5, 16] []) 16 0
    = some (3, 0, 0, some []) := by decide +kernel

/-- V-SCR-2. -/
theorem test_scrSoft :
    ending .scrSoft (pendingRef [0, 4, 8, 4, 16] [(0, [0x00, 0x80, 0xFF, 0x10]), (8, [1, 1, 0, 1])]) 16 4
      = some (0, 4, 0, some [0xFF, 0x7F, 0xFF, 0xEF]) := by decide +kernel

/-- V-SCR-6. -/
theorem test_scrSoft_soft_sequence : ending .scrSoft (pendingRef [0, 1, 8, 1, 16] [(0, [0]), (8, [0xFF])]) 16 1
    = some (2, 0, 0, none) := by decide +kernel

/-- V-DIL-1. -/
theorem test_dil : ending .dil { pendingRef [0, 5, 8] [(0, [10, 11, 12, 13, 14])] with ilDepth := 3 } 8 5
    = some (0, 5, 0, some [13, 11, 14, 12, 10]) := by decide +kernel

/-- V-DIL-5, at the reset depth 11. -/
theorem test_dil_not_coprime : ending .dil (pendingRef [0, 22, 32] [(0, List.replicate 22 0)]) 32 1
    = some (4, 0, 0, none) := by decide +kernel

/-- V-DPN-1. -/
theorem test_dpn : ending (.dpn 0) (pendingRef [0, 6, 8] [(0, [0x11, 0x22, 0x33, 0x44, 0x55, 0x66])]) 8 32
    = some (0, 32, 16, some ([0x11, 0x22, 0x80, 0x80, 0x33, 0x80, 0x80, 0x80, 0x44, 0x55, 0x80, 0x80, 0x66, 0x80, 0x80,
        0x80] ++ List.replicate 16 0x80)) := by decide +kernel

/-- V-DPN-5. -/
theorem test_dpn_other_rate : ending (.dpn 1) (pendingRef [0, 6, 8] []) 8 0 = some (4, 0, 0, some []) := by
  decide +kernel

/-- V-VIT-1: the codeword of 10110000, H2S applied. -/
def codeword : List Byte :=
  [1, 1, 1, 1, 1, 0, 1, 1, 1, 0, 0, 1, 0, 0, 0, 1, 0, 0, 1, 0, 0, 0, 1, 1, 1, 0, 1, 0, 1, 1, 1, 1].map hardToSoft

/-- V-VIT-1 with V-VIT-8's two flips. -/
theorem test_vitZero :
    ending .vitZero (pendingRef [0, 32, 32, 8] [(0, codeword), (0, [0x00]), (13, [0xFF])]) 32 8
      = some (0, 8, 510, some [1, 0, 1, 1, 0, 0, 0, 0]) := by decide +kernel

/-- V-VIT-5, ZERO: an equal metric keeps candidate 0. -/
theorem test_vitZero_erasures : ending .vitZero (pendingRef [0, 16, 32, 4] [(0, List.replicate 16 0x80)]) 32 4
    = some (0, 4, 2048, some [0, 0, 0, 0]) := by decide +kernel

/-- V-VIT-1, MIN, with an erasure at y[5] (V-VIT-3). -/
theorem test_vitMin : ending .vitMin (pendingRef [0, 32, 32, 8] [(0, codeword), (5, [0x80])]) 32 8
    = some (0, 8, 128, some [1, 0, 1, 1, 0, 0, 0, 0]) := by decide +kernel

/-- V-VIT-5, MIN. -/
theorem test_vitMin_erasures : ending .vitMin (pendingRef [0, 16, 32, 4] [(0, List.replicate 16 0x80)]) 32 4
    = some (0, 4, 2036, some [1, 0, 1, 0]) := by decide +kernel

/-- V-CRC-3. -/
theorem test_crc16 : ending .crc16 (pendingRef [0, 4, 4] [(0, [1, 0, 1, 1])]) 4 16
    = some (0, 16, 0xD102, some [0, 1, 0, 0, 0, 0, 0, 0, 1, 0, 0, 0, 1, 0, 1, 1]) := by decide +kernel

/-- V-CRC-10. -/
theorem test_crc16_overlap : ending .crc16 (pendingRef [0x100, 4, 0x102] [(0x100, [1, 0, 1, 1])]) 0x102 0
    = some (7, 0, 0, some []) := by decide +kernel

/-- V-CRC-6's received word. -/
def received : List Byte := [1, 0, 1, 1, 0, 1, 0, 0, 0, 0, 0, 0, 1, 0, 0, 0, 1, 0, 1, 1]

/-- V-CRC-6, accepted. -/
theorem test_crcchk_accepts : endsWith .crcchk (pendingRef [0, 4] [(0, received)])
    (fun t => t.status.crcOk && t.status.err == 0 && t.result0 == 0 && t.result1 == 0xD102) = true := by
  decide +kernel

/-- V-CRC-6, with bit 2 cleared. -/
theorem test_crcchk_detects : endsWith .crcchk (pendingRef [0, 4] [(0, received), (2, [0])])
    (fun t => !t.status.crcOk && t.status.err == 0 && t.result1 == 0x9306) = true := by decide +kernel

/-- Schema S4 and its defaults, as in program P3. -/
def schemaS4 : List (Nat × List Byte) :=
  [(0x100, [0x04, 0, 0x02, 0x01, 0x40, 0x01, 0, 0]), (0x108, [0x03, 0, 0, 0, 0, 0, 0, 0]),
    (0x110, [0x0A, 0, 0x01, 0, 0, 0, 0, 0]), (0x118, [0x02, 0, 0x02, 0x01, 0x48, 0x01, 0, 0]),
    (0x140, [0x0D, 0, 0, 0, 0, 0, 0, 0]), (0x148, [0, 0, 0, 0, 0, 0, 0, 0])]

/-- V-UNP-1: one mismatch. -/
theorem test_unp : ending .unp (pendingRef [0, 19, 0x100, 4, 0x200]
      (schemaS4 ++ [(0, [1, 1, 0, 1, 1, 0, 1, 1, 1, 0, 0, 1, 1, 0, 0, 1, 1, 0, 1])])) 0x200 21
    = some (0, 21, 1, some [0x0D, 0, 0, 0, 0, 0, 0, 0, 0x01, 0x00, 0x01, 0xCC, 0xC0, 0x01, 0, 0, 0, 0, 0, 0, 0]) := by
  decide +kernel

/-- V-UNP-2: the last bit 0, PDU_VALID. -/
theorem test_unp_valid : endsWith .unp (pendingRef [0, 19, 0x100, 4, 0x200]
      (schemaS4 ++ [(0, [1, 1, 0, 1, 1, 0, 1, 1, 1, 0, 0, 1, 1, 0, 0, 1, 1, 0, 0])]))
    (fun t => t.status.pduValid && t.result1 == 0) = true := by decide +kernel

/-! ## The machine from reset -/

/-- The status after the machine's next step. -/
def afterStep (s : State) (p : State → Bool) : Bool :=
  match step s with
  | .next t => p t
  | _ => false

/-- The word placed by withFetchWord is the one the next step performs: CRC16 of nothing (V-CRC-1). -/
theorem test_first_command_after_reset : afterStep (State.reset.withFetchWord 32 0x00000050)
    (fun t => t.result0 == 16 && t.result1 == 0 && t.cmd == 0x50 && t.status.done && !t.status.busy) = true := by
  decide +kernel

/-- V-REG-3: a reserved bit set, in the same place. -/
theorem test_first_word_illegal : afterStep (State.reset.withFetchWord 32 0x00001011)
    (fun t => t.status.err == 1 && t.result0 == 0) = true := by decide +kernel

/-- A host state: idle, one operation to do, the schedule empty. -/
def idleHost (op : HostOp) : State :=
  { State.reset with cfg := { dmemSize := 64, blockBase := 0x40000000 }, hostProgram := [op] }

/-- The same while a command is pending, with the host's turn next. -/
def busyHost (op : HostOp) : State := { pending [] [] with hostProgram := [op], schedule := [.host] }

/-- V-DIL-9: IL_DEPTH keeps sixteen bits. -/
theorem test_depth_upper_bits_ignored :
    afterStep (idleHost (.store 4 0x4000000C 0x0001000B)) (fun t => readReg t .ilDepth == 0x0000000B) = true := by
  decide +kernel

/-- V-REG-5: offset 0x38 is not mapped. -/
theorem test_offset_38_is_unmapped :
    afterStep (idleHost (.load 4 0x40000038)) (fun t => t.faults.bus && t.hostData == none) = true := by
  decide +kernel

/-- V-REG-2: a CMD write while BUSY = 1. -/
theorem test_cmd_write_while_busy :
    afterStep (busyHost (.store 4 0x40000008 0x1)) (fun t => t.faults.hazard && t.cmd == 0 && t.status.busy) = true := by
  decide +kernel

/-! ## Witnesses: what the obligations assume can hold. Each theorem has one part for each clause of its obligation,
in the obligation's order, at a boundary of the clause's range; DMEM has 64 bytes. -/

/-- The source and the destination of a command with operands src, n, dst are in range. -/
abbrev Fits2 (s : State) : Prop := Fits s (s.argNat 0) (s.argNat 1) ∧ Fits s (s.argNat 2) (s.argNat 1)

/-- They share no byte. -/
abbrev Apart2 (s : State) : Prop := ¬SharesByte (s.argNat 2) (s.argNat 1) (s.argNat 0) (s.argNat 1)

theorem witness_IllegalWordsCompleteWithError :
    (∃ s, BlockPerforms s ∧ illegalWord s.pending ∧ s.pending = 0x00001001) ∧
    (∃ s, BlockPerforms s ∧ illegalWord s.pending ∧ s.pending = 0x00000061) ∧
    ∃ s, BlockPerforms s ∧ illegalWord s.pending ∧ s.pending = 0x00000211 :=
  ⟨⟨{ pending [] [] with pending := 0x00001001 }, by decide +kernel⟩,
    ⟨{ pending [] [] with pending := 0x00000061 }, by decide +kernel⟩,
    ⟨{ pending [] [] with pending := 0x00000211 }, by decide +kernel⟩⟩

theorem witness_StepRunsThePendingCommand : ∃ s i, BlockPerforms s ∧ decode s.pending = .ok i :=
  ⟨{ pending [] [] with pending := 0x00000111 }, .scrSoft, by decide +kernel, rfl⟩

theorem witness_StepFaultsOnlyWhenStuck :
    (∃ s, nextTurn s = .block ∧ s.status.busy = true ∧ s.stuck = true) ∧
    (∃ s, nextTurn s = .block ∧ s.status.busy = false) ∧ ∃ s, nextTurn s = .host ∧ s.hostProgram = [] :=
  ⟨⟨{ pending [] [] with stuck := true }, by decide⟩, ⟨{ State.reset with schedule := [.block] }, by decide⟩,
    ⟨State.reset, by decide⟩⟩

theorem witness_H2SRule :
    (∃ s, ¬Fits2 s) ∧ (∃ s, Fits2 s ∧ ¬Apart2 s) ∧
    (∃ s, Fits2 s ∧ Apart2 s ∧ HasUnwritten s (s.argNat 0) (s.argNat 1)) ∧
    (∃ s b, b.length = s.argNat 1 ∧ Holds s (s.argNat 0) b ∧ Fits2 s ∧ Apart2 s ∧ ¬HardBits b) ∧
    ∃ s b, b.length = s.argNat 1 ∧ Holds s (s.argNat 0) b ∧ Fits2 s ∧ Apart2 s ∧ HardBits b :=
  ⟨⟨pending [61, 4, 0] [], by decide +kernel⟩, ⟨pending [60, 4, 57] [], by decide +kernel⟩,
    ⟨pending [60, 4, 56] [(60, [0, 1, 0])], by decide +kernel⟩,
    ⟨pending [60, 4, 56] [(60, [0, 1, 0, 2])], [0, 1, 0, 2], by decide +kernel⟩,
    ⟨pending [60, 4, 56] [(60, [0, 1, 0, 1])], [0, 1, 0, 1], by decide +kernel⟩⟩

theorem witness_S2HRule :
    (∃ s, ¬Fits2 s) ∧ (∃ s, Fits2 s ∧ ¬Apart2 s) ∧
    (∃ s, Fits2 s ∧ Apart2 s ∧ HasUnwritten s (s.argNat 0) (s.argNat 1)) ∧
    ∃ s b, b.length = s.argNat 1 ∧ Holds s (s.argNat 0) b ∧ Fits2 s ∧ Apart2 s :=
  ⟨⟨pending [0, 4, 61] [], by decide +kernel⟩, ⟨pending [56, 4, 59] [], by decide +kernel⟩,
    ⟨pending [56, 4, 60] [(57, [0x7F, 0x80, 0xFF])], by decide +kernel⟩,
    ⟨pending [56, 4, 60] [(56, [0x00, 0x7F, 0x80, 0xFF])], [0x00, 0x7F, 0x80, 0xFF], by decide +kernel⟩⟩

/-- SCRSEQ's regions are in range. -/
abbrev FitsSeq (s : State) : Prop := Fits s (s.argNat 0) 30 ∧ Fits s (s.argNat 2) (s.argNat 3)

/-- SCRSEQ's regions share no byte. -/
abbrev ApartSeq (s : State) : Prop := ¬SharesByte (s.argNat 2) (s.argNat 3) (s.argNat 0) 30

theorem witness_ScrseqRule :
    (∃ s : State, s.argNat 1 ≠ 30) ∧ (∃ s, s.argNat 1 = 30 ∧ ¬FitsSeq s) ∧
    (∃ s, s.argNat 1 = 30 ∧ FitsSeq s ∧ ¬ApartSeq s) ∧
    (∃ s, s.argNat 1 = 30 ∧ FitsSeq s ∧ ApartSeq s ∧ HasUnwritten s (s.argNat 0) 30) ∧
    (∃ s c, s.argNat 1 = 30 ∧ c.length = 30 ∧ Holds s (s.argNat 0) c ∧ FitsSeq s ∧ ApartSeq s ∧ ¬HardBits c) ∧
    ∃ s c, s.argNat 1 = 30 ∧ c.length = 30 ∧ Holds s (s.argNat 0) c ∧ FitsSeq s ∧ ApartSeq s ∧ HardBits c :=
  ⟨⟨pending [34, 29, 0, 34] [], by decide +kernel⟩, ⟨pending [35, 30, 0, 34] [], by decide +kernel⟩,
    ⟨pending [34, 30, 0, 35] [], by decide +kernel⟩,
    ⟨pending [34, 30, 0, 34] [(34, List.replicate 29 0)], by decide +kernel⟩,
    ⟨pending [34, 30, 0, 34] [(34, List.replicate 29 0 ++ [0x80])], List.replicate 29 0 ++ [0x80], by decide +kernel⟩,
    ⟨pending [34, 30, 0, 34] [(34, List.replicate 30 1)], List.replicate 30 1, by decide +kernel⟩⟩

/-- SCR's regions are in range. -/
abbrev Fits3 (s : State) : Prop :=
  Fits s (s.argNat 0) (s.argNat 1) ∧ Fits s (s.argNat 2) (s.argNat 1) ∧ Fits s (s.argNat 4) (s.argNat 1)

/-- SCR's destination shares no byte with its sources. -/
abbrev Apart3 (s : State) : Prop :=
  ¬SharesByte (s.argNat 4) (s.argNat 1) (s.argNat 0) (s.argNat 1)
    ∧ ¬SharesByte (s.argNat 4) (s.argNat 1) (s.argNat 2) (s.argNat 1)

/-- The premises of both SCR rules up to the values of their data, with the data as given. -/
abbrev ScrReads (s : State) (b q : List Byte) : Prop :=
  s.argNat 1 = s.argNat 3 ∧ b.length = s.argNat 1 ∧ q.length = s.argNat 1 ∧ Holds s (s.argNat 0) b
    ∧ Holds s (s.argNat 2) q ∧ Fits3 s ∧ Apart3 s

/-- The first clauses of both SCR rules. -/
theorem witness_ScrRule_checks :
    (∃ s : State, s.argNat 1 ≠ s.argNat 3) ∧ (∃ s, s.argNat 1 = s.argNat 3 ∧ ¬Fits3 s) ∧
    (∃ s, s.argNat 1 = s.argNat 3 ∧ Fits3 s ∧ ¬Apart3 s) ∧
    ∃ s, s.argNat 1 = s.argNat 3 ∧ Fits3 s ∧ Apart3 s ∧
      (HasUnwritten s (s.argNat 0) (s.argNat 1) ∨ HasUnwritten s (s.argNat 2) (s.argNat 1)) :=
  ⟨⟨pending [0, 4, 8, 5, 16] [], by decide +kernel⟩, ⟨pending [0, 4, 61, 4, 16] [], by decide +kernel⟩,
    ⟨pending [0, 4, 60, 4, 57] [], by decide +kernel⟩,
    ⟨pending [0, 4, 60, 4, 4] [(0, [0, 1, 0, 1]), (60, [1, 1, 0])], by decide +kernel⟩⟩

theorem witness_ScrHardRule :
    (∃ s b q, ScrReads s b q ∧ (¬HardBits q ∨ ¬HardBits b)) ∧ ∃ s b q, ScrReads s b q ∧ HardBits q ∧ HardBits b :=
  ⟨⟨pending [0, 2, 62, 2, 2] [(0, [0, 0xFF]), (62, [0, 0])], [0, 0xFF], [0, 0], by decide +kernel⟩,
    ⟨pending [0, 2, 62, 2, 2] [(0, [0, 1]), (62, [1, 1])], [0, 1], [1, 1], by decide +kernel⟩⟩

theorem witness_ScrSoftRule :
    (∃ s b q, ScrReads s b q ∧ ¬HardBits q) ∧ ∃ s b q, ScrReads s b q ∧ HardBits q :=
  ⟨⟨pending [0, 2, 62, 2, 2] [(0, [0, 0xFF]), (62, [0, 2])], [0, 0xFF], [0, 2], by decide +kernel⟩,
    ⟨pending [0, 2, 62, 2, 2] [(0, [0, 0xFF]), (62, [0, 1])], [0, 0xFF], [0, 1], by decide +kernel⟩⟩

/-- DIL's depth and length give a permutation. -/
abbrev Permutes (s : State) : Prop := s.argNat 1 = 0 ∨ Nat.gcd s.ilDepth.toNat (s.argNat 1) = 1

theorem witness_DilRule :
    (∃ s, ¬Permutes s) ∧ (∃ s, Permutes s ∧ ¬Fits2 s) ∧ (∃ s, Permutes s ∧ Fits2 s ∧ ¬Apart2 s) ∧
    (∃ s, Permutes s ∧ Fits2 s ∧ Apart2 s ∧ HasUnwritten s (s.argNat 0) (s.argNat 1)) ∧
    (∃ s b, b.length = s.argNat 1 ∧ Holds s (s.argNat 0) b ∧ Permutes s ∧ Fits2 s ∧ Apart2 s ∧ 1 < b.length) ∧
    ∃ s b, b.length = s.argNat 1 ∧ Holds s (s.argNat 0) b ∧ Permutes s ∧ Fits2 s ∧ Apart2 s ∧ b = [] :=
  ⟨⟨pending [0, 11, 16] [], by decide +kernel⟩, ⟨pending [0, 10, 55] [], by decide +kernel⟩,
    ⟨pending [0, 10, 9] [], by decide +kernel⟩,
    ⟨pending [0, 5, 59] [(0, [1, 0, 1, 1])], by decide +kernel⟩,
    ⟨pending [0, 5, 59] [(0, [1, 0, 1, 1, 0])], [1, 0, 1, 1, 0], by decide +kernel⟩,
    ⟨{ pending [64, 0, 99] [] with ilDepth := 0 }, [], by decide +kernel⟩⟩

/-- DPN's regions are in range. -/
abbrev FitsDpn (s : State) : Prop :=
  Fits s (s.argNat 0) (s.argNat 1) ∧ Fits s (s.argNat 2) (4 * (2 * s.argNat 1 / 3) + 16)

/-- DPN's regions share no byte. -/
abbrev ApartDpn (s : State) : Prop :=
  ¬SharesByte (s.argNat 2) (4 * (2 * s.argNat 1 / 3) + 16) (s.argNat 0) (s.argNat 1)

theorem witness_DpnRule :
    (∃ rate, rate ≠ 0) ∧ (∃ s : State, s.argNat 1 % 3 = 1) ∧ (∃ s, s.argNat 1 % 3 ≠ 1 ∧ ¬FitsDpn s) ∧
    (∃ s, s.argNat 1 % 3 ≠ 1 ∧ FitsDpn s ∧ ¬ApartDpn s) ∧
    (∃ s, s.argNat 1 % 3 ≠ 1 ∧ FitsDpn s ∧ ApartDpn s ∧ HasUnwritten s (s.argNat 0) (s.argNat 1)) ∧
    ∃ s b, b.length = s.argNat 1 ∧ Holds s (s.argNat 0) b ∧ s.argNat 1 % 3 ≠ 1 ∧ FitsDpn s ∧ ApartDpn s :=
  ⟨⟨1, by decide⟩, ⟨pending [0, 1, 8] [], by decide +kernel⟩, ⟨pending [0, 3, 41] [], by decide +kernel⟩,
    ⟨pending [0, 3, 2] [], by decide +kernel⟩, ⟨pending [0, 3, 40] [(0, [1, 2])], by decide +kernel⟩,
    ⟨pending [0, 3, 3] [(0, [1, 2, 3])], [1, 2, 3], by decide +kernel⟩⟩

/-- VIT's lengths are legal. -/
abbrev LengthsVit (s : State) : Prop := s.argNat 1 ≠ 0 ∧ s.argNat 1 % 4 = 0 ∧ s.argNat 3 ≤ s.argNat 1 / 4

/-- VIT's regions are in range. -/
abbrev FitsVit (s : State) : Prop := Fits s (s.argNat 0) (s.argNat 1) ∧ Fits s (s.argNat 2) (s.argNat 3)

/-- VIT's regions share no byte. -/
abbrev ApartVit (s : State) : Prop := ¬SharesByte (s.argNat 2) (s.argNat 3) (s.argNat 0) (s.argNat 1)

/-- V-VIT-10's three, then every later clause, with n_out = N. -/
theorem witness_VitRule :
    (∃ s : State, ¬LengthsVit s ∧ s.argNat 1 = 0) ∧ (∃ s : State, ¬LengthsVit s ∧ s.argNat 1 = 6) ∧
    (∃ s : State, ¬LengthsVit s ∧ s.argNat 3 = s.argNat 1 / 4 + 1) ∧ (∃ s, LengthsVit s ∧ ¬FitsVit s) ∧
    (∃ s, LengthsVit s ∧ FitsVit s ∧ ¬ApartVit s) ∧
    (∃ s, LengthsVit s ∧ FitsVit s ∧ ApartVit s ∧ HasUnwritten s (s.argNat 0) (s.argNat 1)) ∧
    ∃ s y, y.length = s.argNat 1 ∧ Holds s (s.argNat 0) y ∧ LengthsVit s ∧ FitsVit s ∧ ApartVit s
      ∧ s.argNat 3 = s.argNat 1 / 4 :=
  ⟨⟨pending [0, 0, 8, 0] [], by decide +kernel⟩, ⟨pending [0, 6, 8, 1] [], by decide +kernel⟩,
    ⟨pending [0, 4, 8, 2] [], by decide +kernel⟩, ⟨pending [0, 4, 64, 1] [], by decide +kernel⟩,
    ⟨pending [0, 4, 3, 1] [], by decide +kernel⟩, ⟨pending [0, 4, 63, 1] [(0, [0, 0, 0])], by decide +kernel⟩,
    ⟨pending [0, 4, 63, 1] [(0, [0, 0x80, 0xFF, 0])], [0, 0x80, 0xFF, 0], by decide +kernel⟩⟩

/-- CRC16's regions are in range. -/
abbrev FitsCrc (s : State) : Prop := Fits s (s.argNat 0) (s.argNat 1) ∧ Fits s (s.argNat 2) 16

/-- CRC16's regions share no byte. -/
abbrev ApartCrc (s : State) : Prop := ¬SharesByte (s.argNat 2) 16 (s.argNat 0) (s.argNat 1)

theorem witness_Crc16Rule :
    (∃ s, ¬FitsCrc s) ∧ (∃ s, FitsCrc s ∧ ¬ApartCrc s) ∧
    (∃ s, FitsCrc s ∧ ApartCrc s ∧ HasUnwritten s (s.argNat 0) (s.argNat 1)) ∧
    (∃ s b, b.length = s.argNat 1 ∧ Holds s (s.argNat 0) b ∧ FitsCrc s ∧ ApartCrc s ∧ ¬HardBits b) ∧
    ∃ s b, b.length = s.argNat 1 ∧ Holds s (s.argNat 0) b ∧ FitsCrc s ∧ ApartCrc s ∧ HardBits b :=
  ⟨⟨pending [0, 4, 49] [], by decide +kernel⟩, ⟨pending [0, 4, 3] [], by decide +kernel⟩,
    ⟨pending [44, 4, 48] [], by decide +kernel⟩, ⟨pending [44, 4, 48] [(44, [0, 1, 1, 3])], [0, 1, 1, 3], by decide +kernel⟩,
    ⟨pending [44, 4, 48] [(44, [0, 1, 1, 0])], [0, 1, 1, 0], by decide +kernel⟩⟩

theorem witness_CrcchkRule :
    (∃ s, ¬Fits s (s.argNat 0) (s.argNat 1 + 16)) ∧
    (∃ s, Fits s (s.argNat 0) (s.argNat 1 + 16) ∧ HasUnwritten s (s.argNat 0) (s.argNat 1 + 16)) ∧
    (∃ s b rx, b.length = s.argNat 1 ∧ rx.length = 16 ∧ Holds s (s.argNat 0) (b ++ rx)
      ∧ Fits s (s.argNat 0) (s.argNat 1 + 16) ∧ ¬HardBits (b ++ rx)) ∧
    ∃ s b rx, b.length = s.argNat 1 ∧ rx.length = 16 ∧ Holds s (s.argNat 0) (b ++ rx)
      ∧ Fits s (s.argNat 0) (s.argNat 1 + 16) ∧ HardBits (b ++ rx) :=
  ⟨⟨pending [45, 4] [], by decide +kernel⟩, ⟨pending [44, 4] [], by decide +kernel⟩,
    ⟨pending [44, 4] [(44, received), (63, [0x80])], [1, 0, 1, 1], [0, 1, 0, 0, 0, 0, 0, 0, 1, 0, 0, 0, 1, 0, 1, 0x80],
      by decide +kernel⟩,
    ⟨pending [44, 4] [(44, received)], [1, 0, 1, 1], [0, 1, 0, 0, 0, 0, 0, 0, 1, 0, 0, 0, 1, 0, 1, 1],
      by decide +kernel⟩⟩

/-- UNP's schema region is in range and holds the descriptors. -/
abbrev Describes (s : State) (desc : List Byte) : Prop :=
  desc.length = 8 * s.argNat 3 ∧ Holds s (s.argNat 2) desc ∧ Fits s (s.argNat 2) (8 * s.argNat 3)

/-- Every descriptor is legal. -/
abbrev LegalUnp (s : State) (desc : List Byte) : Prop := ∀ f, f < s.argNat 3 → ¬descBad desc f

/-- Every unsigned-integer field has at most 64 bits. -/
abbrev NarrowUnp (s : State) (desc : List Byte) : Prop :=
  ∀ f, f < s.argNat 3 → descKind desc f = 2 → descLen desc f ≤ 64

/-- The fields take the input exactly. -/
abbrev TotalUnp (s : State) (desc : List Byte) : Prop := bitOffset desc (s.argNat 3) = s.argNat 1

/-- UNP's regions are in range. -/
abbrev FitsUnp (s : State) (desc : List Byte) : Prop :=
  Fits s (s.argNat 0) (s.argNat 1) ∧ Fits s (s.argNat 4) (valueOffset desc (s.argNat 3))
    ∧ ForConstants desc (s.argNat 3) (Fits s)

/-- UNP's destination shares no byte with what it reads. -/
abbrev ApartUnp (s : State) (desc : List Byte) : Prop :=
  ¬SharesByte (s.argNat 4) (valueOffset desc (s.argNat 3)) (s.argNat 0) (s.argNat 1)
    ∧ ¬SharesByte (s.argNat 4) (valueOffset desc (s.argNat 3)) (s.argNat 2) (8 * s.argNat 3)
    ∧ ForConstants desc (s.argNat 3) (fun a k => ¬SharesByte (s.argNat 4) (valueOffset desc (s.argNat 3)) a k)

/-- Every check of UNP before its reads passes. -/
abbrev ChecksUnp (s : State) (desc : List Byte) : Prop :=
  Describes s desc ∧ LegalUnp s desc ∧ NarrowUnp s desc ∧ TotalUnp s desc ∧ FitsUnp s desc ∧ ApartUnp s desc

/-- One descriptor of a uint field: its length, its flags and its default's address. -/
def uintDesc (len flags defAddr : Byte) : List Byte := [len, 0, 2, flags, defAddr, 0, 0, 0]

/-- UNP with one field, the descriptor at 8, the input at 0 and the output at 24. -/
def unpState (n : Word) (desc : List Byte) (regions : List (Nat × List Byte)) : State :=
  pending [0, n, 8, 1, 24] ((8, desc) :: regions)

theorem witness_UnpChecks_schema :
    (∃ s, ¬Fits s (s.argNat 2) (8 * s.argNat 3)) ∧
    (∃ s, Fits s (s.argNat 2) (8 * s.argNat 3) ∧ HasUnwritten s (s.argNat 2) (8 * s.argNat 3)) ∧
    (∃ s desc, Describes s desc ∧ ¬LegalUnp s desc ∧ descKind desc 0 = 3) ∧
    (∃ s desc, Describes s desc ∧ ¬LegalUnp s desc ∧ descFlags desc 0 = 2) ∧
    (∃ s desc, Describes s desc ∧ LegalUnp s desc ∧ ¬NarrowUnp s desc ∧ descLen desc 0 = 65) ∧
    ∃ s desc, Describes s desc ∧ LegalUnp s desc ∧ NarrowUnp s desc ∧ ¬TotalUnp s desc ∧ descLen desc 0 = 64 :=
  ⟨⟨pending [0, 4, 57, 1, 24] [], by decide +kernel⟩,
    ⟨pending [0, 4, 56, 1, 24] [(56, [4, 0, 0, 0, 0, 0, 0])], by decide +kernel⟩,
    ⟨unpState 4 [4, 0, 3, 0, 0, 0, 0, 0] [], [4, 0, 3, 0, 0, 0, 0, 0], by decide +kernel⟩,
    ⟨unpState 4 (uintDesc 4 2 0) [], uintDesc 4 2 0, by decide +kernel⟩,
    ⟨unpState 65 (uintDesc 65 0 0) [], uintDesc 65 0 0, by decide +kernel⟩,
    ⟨unpState 65 (uintDesc 64 0 0) [], uintDesc 64 0 0, by decide +kernel⟩⟩

theorem witness_UnpChecks_regions :
    (∃ s desc, Describes s desc ∧ LegalUnp s desc ∧ NarrowUnp s desc ∧ TotalUnp s desc ∧ ¬FitsUnp s desc) ∧
    (∃ s desc, Describes s desc ∧ LegalUnp s desc ∧ NarrowUnp s desc ∧ TotalUnp s desc ∧ FitsUnp s desc
      ∧ ¬ApartUnp s desc) ∧
    (∃ s desc, ChecksUnp s desc ∧ HasUnwritten s (s.argNat 0) (s.argNat 1)) ∧
    (∃ s desc, ChecksUnp s desc ∧ ¬ForConstants desc (s.argNat 3) (fun a k => ¬HasUnwritten s a k)) ∧
    ∃ s desc bits, ChecksUnp s desc ∧ bits.length = s.argNat 1 ∧ Holds s (s.argNat 0) bits ∧ ¬HardBits bits
      ∧ ForConstants desc (s.argNat 3) (fun a k => ¬HasUnwritten s a k) :=
  ⟨⟨unpState 4 (uintDesc 4 1 57) [], uintDesc 4 1 57, by
        repeat' apply And.intro
        all_goals decide +kernel⟩,
    ⟨unpState 4 (uintDesc 4 1 31) [], uintDesc 4 1 31, by
        repeat' apply And.intro
        all_goals decide +kernel⟩,
    ⟨unpState 4 (uintDesc 4 0 99) [(0, [1, 1, 0])], uintDesc 4 0 99, by
        repeat' apply And.intro
        all_goals decide +kernel⟩,
    ⟨unpState 4 (uintDesc 4 1 32) [(0, [1, 1, 0, 1]), (32, [13])], uintDesc 4 1 32, by
        repeat' apply And.intro
        all_goals decide +kernel⟩,
    ⟨unpState 4 (uintDesc 4 1 56) [(0, [1, 1, 0, 2]), (56, [13, 0, 0, 0, 0, 0, 0, 0])], uintDesc 4 1 56, [1, 1, 0, 2],
      by
        repeat' apply And.intro
        all_goals decide +kernel⟩⟩

/-- A constant field whose default is met, one whose default is missed, and an empty schema. -/
theorem witness_UnpUnpacks :
    (∃ s desc bits, ChecksUnp s desc ∧ bits.length = s.argNat 1 ∧ Holds s (s.argNat 0) bits ∧ HardBits bits
      ∧ ForConstants desc (s.argNat 3) (fun a k => Fits s a k
        ∧ ¬SharesByte (s.argNat 4) (valueOffset desc (s.argNat 3)) a k ∧ ¬HasUnwritten s a k)
      ∧ mismatches s.dmem desc bits (s.argNat 3) = 0) ∧
    (∃ s desc bits, ChecksUnp s desc ∧ bits.length = s.argNat 1 ∧ Holds s (s.argNat 0) bits ∧ HardBits bits
      ∧ ForConstants desc (s.argNat 3) (fun a k => Fits s a k
        ∧ ¬SharesByte (s.argNat 4) (valueOffset desc (s.argNat 3)) a k ∧ ¬HasUnwritten s a k)
      ∧ mismatches s.dmem desc bits (s.argNat 3) = 1) ∧
    ∃ (s : State) (bits : List Byte), ChecksUnp s [] ∧ bits.length = s.argNat 1 ∧ bits = [] :=
  ⟨⟨unpState 4 (uintDesc 4 1 32) [(0, [1, 1, 0, 1]), (32, [13, 0, 0, 0, 0, 0, 0, 0])], uintDesc 4 1 32, [1, 1, 0, 1],
      by
        repeat' apply And.intro
        all_goals decide +kernel⟩,
    ⟨unpState 4 (uintDesc 4 1 16) [(0, [1, 1, 0, 1]), (16, [12, 0, 0, 0, 0, 0, 0, 0])], uintDesc 4 1 16, [1, 1, 0, 1],
      by
        repeat' apply And.intro
        all_goals decide +kernel⟩,
    ⟨pending [64, 0, 64, 0, 99] [], [], by
        repeat' apply And.intro
        all_goals decide +kernel⟩⟩

/-- The block's turn with H2S pending: one that succeeds, one that is refused, one that meets an unwritten byte. -/
def h2sSucceeds : State := { pending [0, 2, 8] [(0, [0, 1])] with pending := 1, cmd := 1 }
def h2sRefused : State := { pending [0, 2, 1] [] with pending := 1, cmd := 1 }
def h2sUnwritten : State := { pending [0, 2, 8] [(0, [0])] with pending := 1, cmd := 1 }

theorem witness_EveryCommandEnds : BlockPerforms h2sSucceeds ∧ BlockPerforms h2sUnwritten := by decide +kernel

theorem witness_ErrorCompletionIsPrecise : ∃ t, BlockPerforms h2sRefused ∧ h2sRefused.status.err = 0 ∧
    step h2sRefused = .next t ∧ t.status.err ≠ 0 :=
  ⟨h2sRefused.raiseErr .overlap, by decide +kernel, rfl, rfl, by decide⟩

theorem witness_CommandsProduceTheirCodes : ∃ t, exec .h2s h2sRefused = .next t ∧ t.status.err = 7 :=
  ⟨h2sRefused.raiseErr .overlap, rfl, rfl⟩

theorem witness_ReservedCodesAreNeverReached : ∃ t, legalErr h2sRefused.status.err ∧ step h2sRefused = .next t :=
  ⟨h2sRefused.raiseErr .overlap, by decide, rfl⟩

theorem witness_CommandFrame : ∃ t, exec .h2s h2sSucceeds = .next t ∧ Instr.h2s ≠ .crcchk ∧ Instr.h2s ≠ .unp ∧
    h2sSucceeds.cfg.dmemSize ≤ 64 :=
  ⟨h2sSucceeds.complete 8 [0x00, 0xFF] 2 0, rfl, by decide, by decide, by decide⟩

theorem witness_CommandFrame_crcchk : ∃ t, exec .crcchk (pending [44, 4] [(44, received)]) = .next t := ⟨_, rfl⟩

/-- Two states that differ in what no command reads. -/
theorem witness_CommandsAreFunctionsOfTheirInputs : ∃ s₁ s₂ : State, s₁ ≠ s₂ ∧ s₁.cfg = s₂.cfg ∧ s₁.args = s₂.args ∧
    s₁.ilDepth = s₂.ilDepth ∧ s₁.dmem = s₂.dmem ∧ s₁.status = s₂.status ∧ ∃ t₁ t₂, exec .h2s s₁ = .next t₁ ∧
    exec .h2s s₂ = .next t₂ :=
  ⟨h2sSucceeds, { h2sSucceeds with result0 := 5, ctrl := { irqEn := true } }, by decide +kernel, rfl, rfl, rfl, rfl, rfl,
    _, _, rfl, rfl⟩

/-- The registers H2S does not name, from ARG3 on, hold other values. -/
theorem witness_UnnamedOperandsAreIgnored :
    ∃ t other, exec .h2s h2sSucceeds = .next t ∧ Instr.h2s ≠ .dil
      ∧ (∀ k, k ∈ argsNamed .h2s → other.get k = h2sSucceeds.args.get k) ∧ other ≠ h2sSucceeds.args :=
  ⟨h2sSucceeds.complete 8 [0x00, 0xFF] 2 0, argsOf [0, 2, 8, 1, 2, 3, 4, 5], rfl, by decide, by decide, by decide⟩

theorem witness_UninitLeavesTheBlockStuck :
    (∃ t, BlockPerforms h2sUnwritten ∧ step h2sUnwritten = .next t ∧ t.status.busy = true ∧ nextTurn t = .block) ∧
    ∃ s t, s.stuck = true ∧ s.status.busy = true ∧ nextTurn s ≠ .reset ∧ step s = .next t :=
  ⟨⟨h2sUnwritten.meetUninit, by decide +kernel, rfl, rfl, rfl⟩,
    ⟨{ h2sUnwritten.meetUninit with schedule := [.host] }, h2sUnwritten.meetUninit, rfl, rfl, by decide, rfl⟩⟩

theorem witness_UnmappedAccessIsRefused :
    (∃ s, busTarget s.cfg 2 0x40000000 = .unmapped ∧ HostDoes s (.load 2 0x40000000)) ∧
    ∃ s, busTarget s.cfg 4 0x40000038 = .unmapped ∧ HostDoes s (.store 4 0x40000038 0) ∧ s.status.busy = true :=
  ⟨⟨idleHost (.load 2 0x40000000), by decide +kernel⟩, ⟨busyHost (.store 4 0x40000038 0), by decide +kernel⟩⟩

/-- CTRL and STATUS at their offsets, then a register and a DMEM byte that are refused. -/
theorem witness_BusyBlockRefusesOtherAccesses :
    (∃ s, s.status.busy = true ∧ busTarget s.cfg 4 0x40000004 = .reg .status ∧ HostDoes s (.load 4 0x40000004)) ∧
    (∃ s, s.status.busy = true ∧ busTarget s.cfg 4 0x40000000 = .reg .ctrl ∧ HostDoes s (.store 4 0x40000000 1)) ∧
    (∃ s, s.status.busy = true ∧ busTarget s.cfg 4 0x40000034 = .reg .result1 ∧ HostDoes s (.load 4 0x40000034)) ∧
    ∃ s, s.status.busy = true ∧ busTarget s.cfg 1 0x4001003F = .dmem 63 ∧ HostDoes s (.store 1 0x4001003F 1) :=
  ⟨⟨busyHost (.load 4 0x40000004), by decide +kernel⟩, ⟨busyHost (.store 4 0x40000000 1), by decide +kernel⟩,
    ⟨busyHost (.load 4 0x40000034), by decide +kernel⟩, ⟨busyHost (.store 1 0x4001003F 1), by decide +kernel⟩⟩

theorem witness_CmdWriteStartsACommand :
    (∃ s t, HostDoes s (writeOp s.cfg .cmd 0x51) ∧ s.status.busy = false ∧ step s = .next t) ∧
    ∃ s, HostDoes s (writeOp s.cfg .cmd 0x51) ∧ s.status.busy = true :=
  ⟨⟨idleHost (.store 4 0x40000008 0x51), _, by decide +kernel, rfl, rfl⟩,
    ⟨busyHost (.store 4 0x40000008 0x51), by decide +kernel⟩⟩

theorem witness_StatusWriteClearsDone :
    (∃ s, HostDoes s (writeOp s.cfg .status 2) ∧ (2 : Word).getLsbD 1 = true) ∧
    ∃ s, HostDoes s (writeOp s.cfg .status 0xFFFFFFFD) ∧ (0xFFFFFFFD : Word).getLsbD 1 = false :=
  ⟨⟨idleHost (.store 4 0x40000004 2), by decide +kernel⟩,
    ⟨idleHost (.store 4 0x40000004 0xFFFFFFFD), by decide +kernel⟩⟩

theorem witness_ReservedBitsReadZero :
    (∃ v w : Word, v ≠ w ∧ v &&& 0x1 = w &&& 0x1) ∧ (∃ v w : Word, v ≠ w ∧ v &&& 0x2 = w &&& 0x2) ∧
    ∃ v w : Word, v ≠ w ∧ v &&& 0xFFFF = w &&& 0xFFFF :=
  ⟨⟨0x1, 0x3, by decide⟩, ⟨0x2, 0x3, by decide⟩, ⟨0x0000B, 0x1000B, by decide⟩⟩

/-- The read-write registers, another register beside them, and the first and the last register accessed while idle. -/
theorem witness_RegistersReadBack :
    (∀ r, r = .ctrl ∨ r = .ilDepth ∨ r = .arg 7 → Reg.result0 ≠ r) ∧
    (∃ s, s.status.busy = false ∧ HostDoes s (writeOp s.cfg .ctrl 1)) ∧
    (∃ s, s.status.busy = false ∧ HostDoes s (writeOp s.cfg .ilDepth 5)) ∧
    ∃ s, s.status.busy = false ∧ HostDoes s (readOp s.cfg .result1) :=
  ⟨by rintro r (rfl | rfl | rfl) <;> decide, ⟨idleHost (.store 4 0x40000000 1), by decide +kernel⟩,
    ⟨idleHost (.store 4 0x4000000C 5), by decide +kernel⟩, ⟨idleHost (.load 4 0x40000034), by decide +kernel⟩⟩

/-- The last byte of DMEM, stored, loaded, loaded unwritten, loaded as a half word and stored to as a word. -/
theorem witness_HostByteAccess :
    (∃ s, 63 < s.cfg.dmemSize ∧ s.status.busy = false ∧ HostDoes s (storeByteOp s.cfg 63 0xA5)) ∧
    (∃ s v, 63 < s.cfg.dmemSize ∧ s.status.busy = false ∧ HostDoes s (loadByteOp s.cfg 63) ∧ s.dmem.read 63 = some v) ∧
    (∃ s, 63 < s.cfg.dmemSize ∧ s.status.busy = false ∧ HostDoes s (loadByteOp s.cfg 63) ∧ s.dmem.read 63 = none) ∧
    (∃ s, 63 < s.cfg.dmemSize ∧ s.status.busy = false ∧ HostDoes s (.load 2 (s.cfg.blockBase + 0x10000 + 63))) ∧
    ∃ s, 63 < s.cfg.dmemSize ∧ s.status.busy = false ∧ HostDoes s (.store 4 (s.cfg.blockBase + 0x10000 + 63) 0) :=
  ⟨⟨idleHost (.store 1 0x4001003F 0xA5), by decide +kernel⟩,
    ⟨{ idleHost (.load 1 0x4001003F) with dmem := [(63, 0xA5)] }, 0xA5, by decide +kernel⟩,
    ⟨idleHost (.load 1 0x4001003F), by decide +kernel⟩,
    ⟨idleHost (.load 2 0x4001003F), by decide +kernel⟩, ⟨idleHost (.store 4 0x4001003F 0), by decide +kernel⟩⟩

theorem witness_ModelFaultsAreSticky :
    (∃ s t, step s = .next t ∧ nextTurn s ≠ .reset ∧ s.faults.bus = true ∧ s.faults.hazard = true
      ∧ s.faults.uninit = true) ∧
    ∃ s t, step s = .next t ∧ nextTurn s = .reset :=
  ⟨⟨{ State.reset with faults := { bus := true, hazard := true, uninit := true } }, _, rfl, by decide, rfl, rfl, rfl⟩,
    ⟨{ h2sUnwritten.meetUninit with schedule := [.reset] }, _, rfl, rfl⟩⟩

theorem witness_BusyChangesOnlyByCommands :
    (∃ s t, step s = .next t ∧ s.status.busy = false ∧ t.status.busy = true) ∧
    ∃ s t, step s = .next t ∧ s.status.busy = true ∧ t.status.busy = false :=
  ⟨⟨idleHost (.store 4 0x40000008 0x51), _, rfl, rfl, by decide +kernel⟩,
    ⟨h2sRefused, h2sRefused.raiseErr .overlap, rfl, rfl, rfl⟩⟩

theorem witness_InterruptLevel :
    (∃ t, exec .h2s h2sRefused = .next t ∧ t.status.busy = false ∧ h2sRefused.status.busy = true) ∧
    (2 : Word).getLsbD 1 = true :=
  ⟨⟨h2sRefused.raiseErr .overlap, rfl, rfl, rfl⟩, by decide⟩

theorem witness_ResetValues : ∃ s, nextTurn s = .reset ∧ s.stuck = true :=
  ⟨{ h2sUnwritten.meetUninit with schedule := [.reset] }, rfl, rfl⟩

/-- RUN with no operand and with eight, and WAIT while BUSY = 1 and after. -/
theorem witness_RunLineStartsItsCommand :
    (∃ (s : State) (vs : List Word) (rest : List HostOp), s.schedule = [] ∧ s.status.busy = false ∧ vs.length = 0
      ∧ s.hostProgram = expandLine s.cfg (.run .crc16 vs) ++ rest) ∧
    (∃ (s : State) (vs : List Word) (rest : List HostOp), s.schedule = [] ∧ s.status.busy = false ∧ vs.length = 8
      ∧ s.hostProgram = expandLine s.cfg (.run .unp vs) ++ rest) ∧
    (∃ s, HostDoes s .wait ∧ s.status.busy = true) ∧ ∃ s, HostDoes s .wait ∧ s.status.busy = false :=
  ⟨⟨{ State.reset with hostProgram := expandLine Config.reference (.run .crc16 []) }, [], [], rfl, rfl, rfl, rfl⟩,
    ⟨{ State.reset with hostProgram := expandLine Config.reference (.run .unp [1, 2, 3, 4, 5, 6, 7, 8]) },
      [1, 2, 3, 4, 5, 6, 7, 8], [], rfl, rfl, rfl, rfl⟩,
    ⟨busyHost .wait, by decide⟩, ⟨idleHost .wait, by decide⟩⟩

theorem witness_PendingCommandIsPerformed : ∃ s : State, s.status.busy = true ∧ s.stuck = false ∧
    Turn.reset ∉ s.schedule ∧ s.schedule = [.host, .host] :=
  ⟨{ h2sSucceeds with schedule := [.host, .host] }, rfl, rfl, by decide, rfl⟩

/-- A command pending that will succeed, and one that will leave the block stuck. -/
theorem witness_StepKeepsTheInvariant :
    (∃ t, h2sSucceeds.Inv ∧ step h2sSucceeds = .next t) ∧ ∃ t, h2sUnwritten.Inv ∧ step h2sUnwritten = .next t :=
  ⟨⟨_, ⟨by decide, by decide, by decide, by decide, by decide, by decide, rfl, by decide⟩, rfl⟩,
    ⟨_, ⟨by decide, by decide, by decide, by decide, by decide, by decide, rfl, by decide⟩, rfl⟩⟩

theorem witness_ScrseqPrefixAndHard : 8 ≤ 120 ∧ HardBits (List.replicate 30 1) := by decide +kernel

theorem witness_RegisterFormGivesTheSequence :
    (List.replicate 30 (1 : Byte)).length = 30 ∧ HardBits (List.replicate 30 1) := by decide +kernel

theorem witness_ScramblingIsSelfInverse :
    ([0x00, 0x80] : List Byte).length = ([1, 0] : List Byte).length ∧ HardBits [1, 0] := by decide

theorem witness_SoftBitLaws : HardBits [1, 0, 1, 1, 0] := by decide

/-- V-DIL-7: K = 7, a = 11, with the inverse pattern. -/
theorem witness_PatternIsAPermutationIffCoprime : ∃ (b : List Byte) (q : List Nat),
    (b.length = 0 ∨ Nat.gcd 11 b.length = 1) ∧ q.length = b.length ∧
      ∀ i, i < b.length → q[11 * (i + 1) % b.length]? = some i :=
  ⟨[1, 0, 0, 1, 1, 0, 1], [6, 1, 3, 5, 0, 2, 4], by decide +kernel⟩

theorem witness_GatheringRecoversThePuncturedBits : ([0x11, 0x22, 0x33] : List Byte).length % 3 ≠ 1 := by decide

/-- One state where candidate 1 wins and one where the two are equal. -/
theorem witness_AddCompareSelect :
    (∃ (pm : List Metric) (y : List Byte) (s : Trellis) (m1 m0 : Nat),
      (metricOf pm (predecessor s true)).map (· + branchMetric y (incomingRegister s true)) = some m1 ∧
      (metricOf pm (predecessor s false)).map (· + branchMetric y (incomingRegister s false)) = some m0 ∧ m1 < m0) ∧
    ∃ (pm : List Metric) (y : List Byte) (s : Trellis) (m : Nat),
      (metricOf pm (predecessor s true)).map (· + branchMetric y (incomingRegister s true)) = some m ∧
      (metricOf pm (predecessor s false)).map (· + branchMetric y (incomingRegister s false)) = some m :=
  ⟨⟨List.replicate 16 (some 0), [0xFF, 0xFF, 0xFF, 0xFF], 0, 0, 1020, by decide +kernel⟩,
    ⟨(List.replicate 8 (some 1020)) ++ List.replicate 8 (some 0), [0, 0, 0, 0], 0, 1020, by decide +kernel⟩⟩

theorem witness_PathMetricsAreBounded : ([0, 0x80, 0xFF, 0] : List Byte).length = 4 * 1 := by decide

theorem witness_ViterbiZeroIsMaximumLikelihood : (List.replicate 8 (0x80 : Byte)).length = 4 * 2 ∧
    ([false, false] : List Bool).length = 2 ∧ endState [false, false] = 0 := by decide

/-- Two sequences of one cost, ended in different states: every sample an erasure costs the same whichever bit is 0. -/
theorem witness_ViterbiMinIsMaximumLikelihood : (List.replicate 8 (0x80 : Byte)).length = 4 * 2 ∧
    ([true, false] : List Bool).length = 2 := by decide

/-- The least length, four zeros, and V-VIT-1's sequence. -/
theorem witness_ErrorFreeCodewordsDecode :
    (∃ u : List Bool, u.length = 4 ∧ ∀ i, i < u.length → u.length ≤ i + 4 → u[i]? = some false) ∧
    ∃ u : List Bool, 4 ≤ u.length ∧ u.head? = some true ∧
      ∀ i, i < u.length → u.length ≤ i + 4 → u[i]? = some false :=
  ⟨⟨List.replicate 4 false, by decide⟩, ⟨[true, false, true, true, false, false, false, false], by decide⟩⟩

/-- V-CRC-6's payload at the last place it fits. -/
theorem witness_AppendedCrcIsAccepted : ∃ (s : State) (b : List Byte), b.length = s.argNat 1 ∧ HardBits b ∧
    Holds s (s.argNat 0) (b ++ crcbits b) ∧ Fits s (s.argNat 0) (s.argNat 1 + 16) :=
  ⟨pending [44, 4] [(44, received)], [1, 0, 1, 1], by decide +kernel⟩

theorem witness_CrcDetectsEverySingleBitChange : HardBits [1, 0, 1, 1] ∧ 0 < ([1, 0, 1, 1] : List Byte).length + 16 ∧
    19 < ([1, 0, 1, 1] : List Byte).length + 16 := by decide

theorem witness_UintFieldIsPositional : HardBits [1, 1, 0, 1] := by decide

/-- A full group and a partial one, at their first and last bits. -/
theorem witness_PackedBytesAreMsbFirst : HardBits (List.replicate 10 1) ∧
    0 < ((List.replicate 10 (1 : Byte)).length + 7) / 8 ∧ 1 < ((List.replicate 10 (1 : Byte)).length + 7) / 8 ∧
    0 < 8 ∧ 7 < 8 := by decide

theorem witness_LittleEndianIsInverse : 0xFFFFFFFFFFFFFFFF < 2 ^ 64 ∧ (List.replicate 8 (0xA5 : Byte)).length = 8 := by
  decide

end Sys2Proof.Tests
end

/-! # Byte orders (R15, R78)
A number and its n lowest bytes, for every n: toLE64 is the case n = 8. -/

namespace Sys2Proof.Machine

/-- The n lowest bytes of v, the least significant first. -/
def lowBytes (n v : Nat) : List Byte := (List.range n).map (fun j => BitVec.ofNat 8 (v >>> (8 * j)))

theorem toLE64_eq_lowBytes (v : Nat) : toLE64 v = lowBytes 8 v := rfl

@[simp] theorem lowBytes_zero (v : Nat) : lowBytes 0 v = [] := rfl

theorem lowBytes_succ (n v : Nat) : lowBytes (n + 1) v = BitVec.ofNat 8 v :: lowBytes n (v / 256) := by
  have hshift (j : Nat) : v >>> (8 * (j + 1)) = (v / 256) >>> (8 * j) := by
    rw [Nat.mul_succ, Nat.add_comm, Nat.shiftRight_add, Nat.shiftRight_eq_div_pow v 8]
  simp [lowBytes, List.range_succ_eq_map, hshift]

/-- Reading the n lowest bytes back loses only what stands above them. -/
theorem littleEndian_lowBytes (n v : Nat) : littleEndian (lowBytes n v) = v % 256 ^ n := by
  induction n generalizing v with
  | zero => simp [littleEndian, Nat.mod_one]
  | succ n ih =>
    calc littleEndian (lowBytes (n + 1) v)
        = v % 256 + 256 * (v / 256 % 256 ^ n) := by simp [lowBytes_succ, littleEndian, ih]
      _ = v % 256 ^ (n + 1) := by rw [Nat.pow_succ', Nat.mod_mul]

/-- A byte string is the low bytes of its own reading. -/
theorem lowBytes_littleEndian (bs : List Byte) : lowBytes bs.length (littleEndian bs) = bs := by
  induction bs with
  | nil => rfl
  | cons b bs ih =>
    have hb : b.toNat < 256 := b.isLt
    have hlow : BitVec.ofNat 8 (b.toNat + 256 * littleEndian bs) = b := by
      apply BitVec.eq_of_toNat_eq
      simp [Nat.mod_eq_of_lt hb]
    have hhigh : (b.toNat + 256 * littleEndian bs) / 256 = littleEndian bs := by omega
    rw [List.length_cons, littleEndian, lowBytes_succ, hlow, hhigh, ih]

/-- Settles O60: the two directions of lowBytes at n = 8, where 256 ^ 8 = 2 ^ 64. -/
theorem littleEndianIsInverse : Obligations.LittleEndianIsInverse := by
  unfold Obligations.LittleEndianIsInverse
  constructor
  · intro v hv
    rw [toLE64_eq_lowBytes, littleEndian_lowBytes]
    exact Nat.mod_eq_of_lt hv
  · intro bs hlen
    rw [toLE64_eq_lowBytes, ← hlen, lowBytes_littleEndian]

end Sys2Proof.Machine

/-! # The invariant of a run (R36, R39-R41, R49, R311, R322, R331)
Each end of a block step, each host turn and a reset keeps State.Inv; a step is one of these (step_cases). -/

namespace Sys2Proof.Machine

/-- Every code an error completion reports is one of R310. -/
theorem ErrCode.code_legal (e : ErrCode) : legalErr e.code := by
  cases e <;> decide

/-- The invariant does not speak of the turns still to come. -/
theorem State.Inv.popTurn {s : State} (h : s.Inv) : s.popTurn.Inv :=
  { h with }

/-- A reset meets the invariant from any state: only the parameters and the agents' part stay (R350, R351). -/
theorem State.resetBlock_inv (s : State) : s.resetBlock.Inv where
  memWf := Memory.wf_reset
  memWithin := fun _ hc => absurd hc List.not_mem_nil
  errLegal := .inl rfl
  busyFresh := fun h => absurd h Bool.false_ne_true
  errClears := fun h => absurd rfl h
  oneFlag := fun h => absurd h.1 Bool.false_ne_true
  latched := rfl
  stuckBusy := fun h => absurd h Bool.false_ne_true

/-! The ends of a block step, from a state with a command pending that the block can perform. -/

section Ends

variable {s : State} (h : s.Inv)
include h

/-- An error completion finds both flags 0, because BUSY was 1, and clears the results (R322). -/
theorem State.Inv.raiseErr (hb : s.status.busy = true) (hs : s.stuck = false) (e : ErrCode) : (s.raiseErr e).Inv := by
  obtain ⟨-, -, hcrc, hpdu⟩ := h.busyFresh hb
  exact {
    memWf := h.memWf
    memWithin := h.memWithin
    errLegal := e.code_legal
    busyFresh := by simp
    errClears := fun _ => ⟨rfl, rfl, hcrc, hpdu⟩
    oneFlag := h.oneFlag
    latched := h.latched
    stuckBusy := by simp [hs] }

/-- The block that meets an unwritten byte keeps BUSY = 1 (R331). -/
theorem State.Inv.meetUninit (hb : s.status.busy = true) : s.meetUninit.Inv :=
  { h with stuckBusy := fun _ => ⟨hb, rfl⟩ }

/-- A success writes a region in range and leaves ERR = OK (R321). -/
theorem State.Inv.complete (hs : s.stuck = false) {dst : Nat} {out : List Byte} (hfit : Fits s dst out.length)
    (r0 r1 : Nat) : (s.complete dst out r0 r1).Inv where
  memWf := Memory.wf_writeRange dst out h.memWf
  memWithin := Memory.within_writeRange h.memWithin hfit
  errLegal := .inl rfl
  busyFresh := by simp
  errClears := by simp
  oneFlag := h.oneFlag
  latched := h.latched
  stuckBusy := by simp [hs]

end Ends

/-- CRC_OK may take any value where PDU_VALID = 0 and ERR = OK on an idle block (R39). -/
theorem State.Inv.setCrcOk {s : State} (h : s.Inv) (hb : s.status.busy = false) (he : s.status.err = 0)
    (hpdu : s.status.pduValid = false) (b : Bool) : (s.setCrcOk b).Inv :=
  { h with
    busyFresh := by simp [hb]
    errClears := by simp [he]
    oneFlag := by simp [hpdu] }

/-- PDU_VALID may take any value where CRC_OK = 0 and ERR = OK on an idle block (R40). -/
theorem State.Inv.setPduValid {s : State} (h : s.Inv) (hb : s.status.busy = false) (he : s.status.err = 0)
    (hcrc : s.status.crcOk = false) (b : Bool) : (s.setPduValid b).Inv :=
  { h with
    busyFresh := by simp [hb]
    errClears := by simp [he]
    oneFlag := by simp [hcrc] }

/-- The block's turn keeps the invariant and the parameters. -/
theorem blockTurn_keeps_inv {s t : State} (h : s.Inv) (ht : blockTurn s = .next t) : t.Inv ∧ t.cfg = s.cfg := by
  rcases blockTurn_cases ht with ⟨-, rfl⟩ | ⟨hb, hs, hend⟩
  · exact ⟨h, rfl⟩
  obtain ⟨-, -, hcrc, hpdu⟩ := h.busyFresh hb
  rcases hend with ⟨e, -, rfl⟩ | rfl | ⟨dst, out, r0, r1, hfit, rfl⟩ | ⟨r1, b, rfl⟩
    | ⟨dst, out, r0, r1, b, hfit, rfl⟩
  · exact ⟨h.raiseErr hb hs e, rfl⟩
  · exact ⟨h.meetUninit hb, rfl⟩
  · exact ⟨h.complete hs hfit r0 r1, rfl⟩
  · exact ⟨(h.complete hs (.inl rfl) 0 r1).setCrcOk rfl rfl hpdu b, rfl⟩
  · exact ⟨(h.complete hs hfit r0 r1).setPduValid rfl rfl hcrc b, rfl⟩

/-! The host's turn. -/

/-- A host's turn keeps DMEM canonical and inside DMEM_SIZE (R48, R72). -/
theorem HostChanges.dmem_keeps {s t : State} (hc : HostChanges s t) (h : s.Inv) :
    t.dmem.wf ∧ t.dmem.within s.cfg.dmemSize := by
  rcases hc.dmem with hd | ⟨a, v, ha, -, hd⟩ <;> rw [hd]
  · exact ⟨h.memWf, h.memWithin⟩
  · exact ⟨Memory.wf_write a v h.memWf, Memory.within_write v h.memWithin ha⟩

/-- A host's turn that changes nothing of the command side but DONE, which it may clear, keeps the invariant. -/
theorem HostChanges.keeps_inv_of_status {s t : State} (hc : HostChanges s t) (h : s.Inv) {done : Bool}
    (hstatus : t.status = { s.status with done := done }) (hdone : s.status.done = false → done = false)
    (hlatch : t.pending = s.pending ∧ t.cmd = s.cmd) (hresults : t.result0 = s.result0 ∧ t.result1 = s.result1) :
    t.Inv := by
  obtain ⟨hwf, hwithin⟩ := hc.dmem_keeps h
  obtain ⟨hpending, hcmd⟩ := hlatch
  obtain ⟨h0, h1⟩ := hresults
  exact {
    memWf := hwf
    memWithin := hc.cfg ▸ hwithin
    errLegal := by rw [hstatus]; exact h.errLegal
    busyFresh := by
      rw [hstatus]
      intro hb
      obtain ⟨hd, hrest⟩ := h.busyFresh hb
      exact ⟨hdone hd, hrest⟩
    errClears := by rw [hstatus, h0, h1]; exact h.errClears
    oneFlag := by rw [hstatus]; exact h.oneFlag
    latched := by rw [hpending, hcmd, h.latched]
    stuckBusy := by
      rw [hc.stuck, hstatus]
      intro hs
      obtain ⟨hb, hu⟩ := h.stuckBusy hs
      exact ⟨hb, hc.uninitKept hu⟩ }

/-- A CMD write while BUSY = 0 keeps the invariant: an idle block is not stuck, and the command starts afresh (R41). -/
theorem State.Inv.startCommand {s : State} (h : s.Inv) (hidle : s.status.busy = false) (w : Word) :
    (s.startCommand w).Inv where
  memWf := h.memWf
  memWithin := h.memWithin
  errLegal := .inl rfl
  busyFresh := by simp
  errClears := by simp
  oneFlag := by simp
  latched := rfl
  stuckBusy := fun hs => by
    obtain ⟨hb, -⟩ := h.stuckBusy hs
    simp [hidle] at hb

/-- The invariant does not speak of the host's program. -/
theorem State.Inv.popHost {s : State} (h : s.Inv) : s.popHost.Inv :=
  { h with }

/-- A host's turn keeps the invariant. -/
theorem HostChanges.keeps_inv {s t : State} (hc : HostChanges s t) (h : s.Inv) : t.Inv := by
  rcases hc.commandSide with ⟨hstatus, hpending, hcmd, hresults⟩ | ⟨keep, hstatus, hpending, hcmd, hresults⟩
    | ⟨hidle, w, rfl, -⟩
  · exact hc.keeps_inv_of_status h hstatus id ⟨hpending, hcmd⟩ hresults
  · exact hc.keeps_inv_of_status h hstatus (by simp +contextual) ⟨hpending, hcmd⟩ hresults
  · exact h.popHost.startCommand hidle w

/-- Settles O41: by the agent whose turn the step is. -/
theorem stepKeepsTheInvariant : Obligations.StepKeepsTheInvariant := by
  unfold Obligations.StepKeepsTheInvariant
  intro s t h hstep
  rcases step_cases hstep with ⟨-, rfl⟩ | ⟨-, hblock⟩ | ⟨-, rfl⟩
  · have hc := hostTurn_changes s.popTurn
    exact ⟨hc.keeps_inv h.popTurn, hc.cfg⟩
  · have hkept := blockTurn_keeps_inv h.popTurn hblock
    exact hkept
  · exact ⟨State.resetBlock_inv _, rfl⟩

end Sys2Proof.Machine

/-! # What a command changes (R32, R43, R47, R70, R324)
From exec_cases: the frame of every command, and the flags of the two that set one. -/

namespace Sys2Proof.Machine

/-- Everything but what an end of a block step may change: DMEM, the results, STATUS, MF_UNINIT and the model's stuck. -/
abbrev CommandFrameOf (s t : State) : Prop :=
  t = { s with dmem := t.dmem, result0 := t.result0, result1 := t.result1, status := t.status,
               faults := { s.faults with uninit := t.faults.uninit }, stuck := t.stuck }

/-- Every way a command can end stays in the frame. -/
theorem exec_frame {i : Instr} {s t : State} (h : exec i s = .next t) : CommandFrameOf s t := by
  rcases exec_cases h with ⟨e, -, rfl⟩ | rfl | ⟨dst, out, r0, r1, -, rfl⟩ | ⟨-, r1, b, rfl⟩
    | ⟨-, dst, out, r0, r1, b, -, rfl⟩ <;> rfl

/-- CRC_OK is CRCCHK's (R39, R47). -/
theorem exec_crcOk {i : Instr} {s t : State} (h : exec i s = .next t) (hi : i ≠ .crcchk) :
    t.status.crcOk = s.status.crcOk := by
  rcases exec_cases h with ⟨e, -, rfl⟩ | rfl | ⟨dst, out, r0, r1, -, rfl⟩ | ⟨hcrc, -⟩
    | ⟨-, dst, out, r0, r1, b, -, rfl⟩
  case inr.inr.inr.inl => exact absurd hcrc hi
  all_goals rfl

/-- PDU_VALID is UNP's (R40, R47). -/
theorem exec_pduValid {i : Instr} {s t : State} (h : exec i s = .next t) (hi : i ≠ .unp) :
    t.status.pduValid = s.status.pduValid := by
  rcases exec_cases h with ⟨e, -, rfl⟩ | rfl | ⟨dst, out, r0, r1, -, rfl⟩ | ⟨-, r1, b, rfl⟩ | ⟨hunp, -⟩
  case inr.inr.inr.inr => exact absurd hunp hi
  all_goals rfl

/-- CRCCHK writes no DMEM (R263). -/
theorem exec_crcchk_dmem {s t : State} (h : exec .crcchk s = .next t) : t.dmem = s.dmem := by
  rcases execCrcchk_cases h with ⟨e, -, rfl⟩ | rfl | ⟨r1, b, rfl⟩ <;> rfl

/-- A region in range reaches no byte at or past DMEM_SIZE (R70, R74). -/
theorem complete_read_past {s : State} {dst a : Nat} {out : List Byte} (r0 r1 : Nat) (hfit : Fits s dst out.length)
    (ha : s.cfg.dmemSize ≤ a) : (s.complete dst out r0 r1).dmem.read a = s.dmem.read a :=
  Memory.read_writeRange_outside _ (by simp only [Fits] at hfit; omega)

/-- No command changes a byte outside DMEM (R70). -/
theorem exec_read_past {i : Instr} {s t : State} {a : Nat} (h : exec i s = .next t) (ha : s.cfg.dmemSize ≤ a) :
    t.dmem.read a = s.dmem.read a := by
  rcases exec_cases h with ⟨e, -, rfl⟩ | rfl | ⟨dst, out, r0, r1, hfit, rfl⟩ | ⟨-, r1, b, rfl⟩
    | ⟨-, dst, out, r0, r1, b, hfit, rfl⟩
  · rfl
  · rfl
  · exact complete_read_past r0 r1 hfit ha
  · rfl
  · exact complete_read_past r0 r1 hfit ha

/-- Settles O22: the frame, the two flags, CRCCHK's DMEM and the bytes past DMEM_SIZE, one lemma each. -/
theorem commandFrame : Obligations.CommandFrame := by
  unfold Obligations.CommandFrame
  intro i s t h
  exact ⟨exec_frame h, exec_crcOk h, exec_pduValid h, fun hi => exec_crcchk_dmem (hi ▸ h), fun _ => exec_read_past h⟩

/-- A command that ends with BUSY = 0 has set DONE, whatever its status code; only MF_UNINIT keeps BUSY = 1 (R324). -/
theorem exec_done {i : Instr} {s t : State} (h : exec i s = .next t) (hb : s.status.busy = true)
    (ht : t.status.busy = false) : t.status.done = true := by
  rcases exec_cases h with ⟨e, -, rfl⟩ | rfl | ⟨dst, out, r0, r1, -, rfl⟩ | ⟨-, r1, b, rfl⟩
    | ⟨-, dst, out, r0, r1, b, -, rfl⟩
  case inr.inl => simp [hb] at ht
  all_goals rfl

/-- Settles O36: a completing command leaves CTRL (exec_frame) and sets DONE (exec_done). -/
theorem interruptLevel : Obligations.InterruptLevel := by
  unfold Obligations.InterruptLevel
  refine ⟨fun _ => rfl, rfl, fun i s t h ht hb => ?_, fun s w => ⟨fun hw => ?_, ?_⟩⟩
  · have hctrl : t.ctrl = s.ctrl := by rw [exec_frame h]
    simp [State.irq, hctrl, exec_done h hb ht]
  · simp [State.irq, writeReg, hw]
  · simp [State.irq, writeReg]

end Sys2Proof.Machine

/-! # What a step keeps of FAULTS and BUSY (R36, R41, R52)
By the agent whose turn the step is (step_cases). -/

namespace Sys2Proof.Machine

/-- The block's turn removes no model fault: it keeps FAULTS but for MF_UNINIT, which it may add. -/
theorem blockTurn_faults {s t : State} (h : blockTurn s = .next t) :
    t.faults = s.faults ∨ t.faults = { s.faults with uninit := true } := by
  rcases blockTurn_cases h with ⟨-, rfl⟩ | ⟨-, -, hend⟩
  · exact .inl rfl
  rcases hend with ⟨e, -, rfl⟩ | rfl | ⟨dst, out, r0, r1, -, rfl⟩ | ⟨r1, b, rfl⟩ | ⟨dst, out, r0, r1, b, -, rfl⟩
  · exact .inl rfl
  · exact .inr rfl
  · exact .inl rfl
  · exact .inl rfl
  · exact .inl rfl

/-- The block's turn never sets BUSY (R36). -/
theorem blockTurn_idle {s t : State} (h : blockTurn s = .next t) (hb : s.status.busy = false) : t = s := by
  rcases blockTurn_cases h with ⟨-, rfl⟩ | ⟨hbusy, -⟩
  · rfl
  · simp [hb] at hbusy

/-- The host's turn never clears BUSY (R36). -/
theorem HostChanges.busy_kept {s t : State} (hc : HostChanges s t) (hb : s.status.busy = true) :
    t.status.busy = true := by
  rcases hc.commandSide with ⟨hstatus, -⟩ | ⟨keep, hstatus, -⟩ | ⟨-, w, rfl, -⟩
  · rw [hstatus, hb]
  · rw [hstatus]; exact hb
  · rfl

/-- The host's turn sets BUSY by a store of the word now pending to CMD (R41). -/
theorem HostChanges.busy_set {s t : State} (hc : HostChanges s t) (hb : s.status.busy = false)
    (ht : t.status.busy = true) : t.pending = t.cmd ∧
      ∃ addr, s.hostProgram.head? = some (.store 4 addr t.cmd) ∧ busTarget s.cfg 4 addr = .reg .cmd := by
  rcases hc.commandSide with ⟨hstatus, -⟩ | ⟨keep, hstatus, -⟩ | ⟨-, w, rfl, hstore⟩
  · simp [hstatus, hb] at ht
  · simp [hstatus, hb] at ht
  · exact ⟨rfl, hstore⟩

/-- Settles O34: the host's turn keeps each fault, the block's adds at most MF_UNINIT, a reset has none. -/
theorem modelFaultsAreSticky : Obligations.ModelFaultsAreSticky := by
  unfold Obligations.ModelFaultsAreSticky
  intro s t h
  rcases step_cases h with ⟨hn, rfl⟩ | ⟨hn, hblock⟩ | ⟨hn, rfl⟩
  · have hc := hostTurn_changes s.popTurn
    exact ⟨fun _ => ⟨hc.busKept, hc.hazardKept, hc.uninitKept⟩, fun hr => by simp [hn] at hr⟩
  · refine ⟨fun _ => ?_, fun hr => by simp [hn] at hr⟩
    rcases blockTurn_faults hblock with hf | hf <;> simp +contextual [hf]
  · exact ⟨fun hr => absurd hn hr, fun _ => rfl⟩

/-- Settles O35: BUSY rises in the host's turn only, and falls in the block's or at a reset. -/
theorem busyChangesOnlyByCommands : Obligations.BusyChangesOnlyByCommands := by
  unfold Obligations.BusyChangesOnlyByCommands
  intro s t h
  rcases step_cases h with ⟨hn, rfl⟩ | ⟨hn, hblock⟩ | ⟨hn, rfl⟩
  · have hc := hostTurn_changes s.popTurn
    refine ⟨fun hb ht => ?_, fun hb ht => ?_⟩
    · obtain ⟨hlatch, addr, hop, htarget⟩ := hc.busy_set hb ht
      exact ⟨hlatch, addr, ⟨hn, hop⟩, htarget⟩
    · simp [hc.busy_kept hb] at ht
  · refine ⟨fun hb ht => ?_, fun _ _ => .inl hn⟩
    simp [blockTurn_idle hblock hb, hb] at ht
  · exact ⟨fun _ ht => absurd ht Bool.false_ne_true, fun _ _ => .inr hn⟩

end Sys2Proof.Machine

/-! # What a command reads (R51, R107, R109, R315)
Two performances of a command that agree on what the command reads end alike: the same end, taken from either state. -/

namespace Sys2Proof.Machine

/-- How a performance ends, as plain data: the ends of a block step (R320) with what they write. -/
inductive CommandEnd where
  | error (e : ErrCode)
  | uninit
  | success (dst : Nat) (out : List Byte) (r0 r1 : Nat)
  | crcChecked (r1 : Nat) (crcOk : Bool)
  | unpacked (dst : Nat) (out : List Byte) (r0 r1 : Nat) (pduValid : Bool)

/-- The state an end leaves. -/
def CommandEnd.applyTo (e : CommandEnd) (s : State) : State :=
  match e with
  | .error e => s.raiseErr e
  | .uninit => s.meetUninit
  | .success dst out r0 r1 => s.complete dst out r0 r1
  | .crcChecked r1 b => (s.complete 0 [] 0 r1).setCrcOk b
  | .unpacked dst out r0 r1 b => (s.complete dst out r0 r1).setPduValid b

/-- No end touches the argument registers. -/
theorem CommandEnd.applyTo_withArgs (e : CommandEnd) (s : State) (other : ArgFile) :
    e.applyTo { s with args := other } = { e.applyTo s with args := other } := by
  cases e <;> rfl

/-- No end touches IL_DEPTH. -/
theorem CommandEnd.applyTo_withDepth (e : CommandEnd) (s : State) (d : BitVec 16) :
    e.applyTo { s with ilDepth := d } = { e.applyTo s with ilDepth := d } := by
  cases e <;> rfl

/-- An end other than MF_UNINIT leaves DMEM, the results and STATUS as a function of DMEM and STATUS, and FAULTS alone. -/
theorem CommandEnd.applyTo_alike {s₁ s₂ : State} (e : CommandEnd) (hm : s₁.dmem = s₂.dmem)
    (ht : s₁.status = s₂.status) : e = .uninit ∨
      ((e.applyTo s₁).dmem = (e.applyTo s₂).dmem ∧ (e.applyTo s₁).result0 = (e.applyTo s₂).result0
        ∧ (e.applyTo s₁).result1 = (e.applyTo s₂).result1 ∧ (e.applyTo s₁).status = (e.applyTo s₂).status
        ∧ (e.applyTo s₁).faults = s₁.faults ∧ (e.applyTo s₂).faults = s₂.faults) := by
  cases e with
  | uninit => exact .inl rfl
  | _ => simp [CommandEnd.applyTo, hm, ht]

/-- The two states agree on the parameters, DMEM and the ARG registers listed. -/
structure SameInputs (ks : List (Fin 8)) (s₁ s₂ : State) : Prop where
  cfg : s₂.cfg = s₁.cfg
  dmem : s₂.dmem = s₁.dmem
  args : ∀ k ∈ ks, s₂.args.get k = s₁.args.get k

/-- The two outcomes are one end, taken from the one and from the other state. -/
def EndAlike (s₁ s₂ : State) (o₁ o₂ : Host.Outcome State Fault Refusal) : Prop :=
  ∃ e : CommandEnd, o₁ = .next (e.applyTo s₁) ∧ o₂ = .next (e.applyTo s₂)

section Alike

variable {ks : List (Fin 8)} {s₁ s₂ : State}

theorem SameInputs.argNat (h : SameInputs ks s₁ s₂) {k : Fin 8} (hk : k ∈ ks) : s₂.argNat k = s₁.argNat k := by
  simp [State.argNat, h.args k hk]

theorem SameInputs.inRange (h : SameInputs ks s₁ s₂) (a n : Nat) : s₂.inRange a n = s₁.inRange a n := by
  simp [State.inRange, h.cfg]

theorem EndAlike.raiseErr (e : ErrCode) : EndAlike s₁ s₂ (.next (s₁.raiseErr e)) (.next (s₂.raiseErr e)) :=
  ⟨.error e, rfl, rfl⟩

theorem EndAlike.meetUninit : EndAlike s₁ s₂ (.next s₁.meetUninit) (.next s₂.meetUninit) :=
  ⟨.uninit, rfl, rfl⟩

theorem EndAlike.complete (dst : Nat) (out : List Byte) (r0 r1 : Nat) :
    EndAlike s₁ s₂ (.next (s₁.complete dst out r0 r1)) (.next (s₂.complete dst out r0 r1)) :=
  ⟨.success dst out r0 r1, rfl, rfl⟩

/-- A check on values both performances share. -/
theorem EndAlike.check {c : Prop} [Decidable c] {a₁ a₂ b₁ b₂ : Host.Outcome State Fault Refusal}
    (ha : EndAlike s₁ s₂ a₁ a₂) (hb : EndAlike s₁ s₂ b₁ b₂) :
    EndAlike s₁ s₂ (if c then a₁ else b₁) (if c then a₂ else b₂) := by
  split
  · exact ha
  · exact hb

/-! The commands: each check and each read in its order, on values that both performances share. -/

theorem execH2S_alike (h : SameInputs [0, 1, 2] s₁ s₂) : EndAlike s₁ s₂ (execH2S s₁) (execH2S s₂) := by
  simp (disch := decide) only [execH2S, h.argNat, h.inRange, h.dmem]
  refine .check (.raiseErr _) (.check (.raiseErr _) ?_)
  cases s₁.dmem.readRange (s₁.argNat 0) (s₁.argNat 1) with
  | none => exact .meetUninit
  | some b => exact .check (.raiseErr _) (.complete _ _ _ _)

theorem execS2H_alike (h : SameInputs [0, 1, 2] s₁ s₂) : EndAlike s₁ s₂ (execS2H s₁) (execS2H s₂) := by
  simp (disch := decide) only [execS2H, h.argNat, h.inRange, h.dmem]
  refine .check (.raiseErr _) (.check (.raiseErr _) ?_)
  cases s₁.dmem.readRange (s₁.argNat 0) (s₁.argNat 1) with
  | none => exact .meetUninit
  | some b => exact .complete _ _ _ _

theorem execScrseq_alike (h : SameInputs [0, 1, 2, 3] s₁ s₂) : EndAlike s₁ s₂ (execScrseq s₁) (execScrseq s₂) := by
  simp (disch := decide) only [execScrseq, h.argNat, h.inRange, h.dmem]
  refine .check (.raiseErr _) (.check (.raiseErr _) (.check (.raiseErr _) ?_))
  cases s₁.dmem.readRange (s₁.argNat 0) ccLen with
  | none => exact .meetUninit
  | some c => exact .check (.raiseErr _) (.complete _ _ _ _)

theorem scrambleCommand_alike (mix : Byte → Byte → Byte) (hardData : Bool) (h : SameInputs [0, 1, 2, 3, 4] s₁ s₂) :
    EndAlike s₁ s₂ (scrambleCommand mix hardData s₁) (scrambleCommand mix hardData s₂) := by
  simp (disch := decide) only [scrambleCommand, h.argNat, h.inRange, h.dmem]
  refine .check (.raiseErr _) (.check (.raiseErr _) (.check (.raiseErr _) ?_))
  cases s₁.dmem.readRange (s₁.argNat 0) (s₁.argNat 1) with
  | none => exact .meetUninit
  | some b =>
    cases s₁.dmem.readRange (s₁.argNat 2) (s₁.argNat 1) with
    | none => exact .meetUninit
    | some q => exact .check (.raiseErr _) (.check (.raiseErr _) (.complete _ _ _ _))

theorem execDil_alike (h : SameInputs [0, 1, 2] s₁ s₂) (hdepth : s₂.ilDepth = s₁.ilDepth) :
    EndAlike s₁ s₂ (execDil s₁) (execDil s₂) := by
  simp (disch := decide) only [execDil, State.depth, hdepth, h.argNat, h.inRange, h.dmem]
  refine .check (.raiseErr _) (.check (.raiseErr _) (.check (.raiseErr _) ?_))
  cases s₁.dmem.readRange (s₁.argNat 0) (s₁.argNat 1) with
  | none => exact .meetUninit
  | some b => exact .complete _ _ _ _

theorem execDpn_alike (rate : Nat) (h : SameInputs [0, 1, 2] s₁ s₂) :
    EndAlike s₁ s₂ (execDpn rate s₁) (execDpn rate s₂) := by
  simp (disch := decide) only [execDpn, h.argNat, h.inRange, h.dmem]
  refine .check (.raiseErr _) (.check (.raiseErr _) (.check (.raiseErr _) (.check (.raiseErr _) ?_)))
  cases s₁.dmem.readRange (s₁.argNat 0) (s₁.argNat 1) with
  | none => exact .meetUninit
  | some b => exact .complete _ _ _ _

theorem viterbiCommand_alike (final : List Metric → Trellis) (h : SameInputs [0, 1, 2, 3] s₁ s₂) :
    EndAlike s₁ s₂ (viterbiCommand final s₁) (viterbiCommand final s₂) := by
  simp (disch := decide) only [viterbiCommand, h.argNat, h.inRange, h.dmem]
  refine .check (.raiseErr _) (.check (.raiseErr _) (.check (.raiseErr _) (.check (.raiseErr _) ?_)))
  cases s₁.dmem.readRange (s₁.argNat 0) (s₁.argNat 1) with
  | none => exact .meetUninit
  | some y => exact .complete _ _ _ _

theorem execCrc16_alike (h : SameInputs [0, 1, 2] s₁ s₂) : EndAlike s₁ s₂ (execCrc16 s₁) (execCrc16 s₂) := by
  simp (disch := decide) only [execCrc16, h.argNat, h.inRange, h.dmem]
  refine .check (.raiseErr _) (.check (.raiseErr _) ?_)
  cases s₁.dmem.readRange (s₁.argNat 0) (s₁.argNat 1) with
  | none => exact .meetUninit
  | some m => exact .check (.raiseErr _) (.complete _ _ _ _)

theorem execCrcchk_alike (h : SameInputs [0, 1] s₁ s₂) : EndAlike s₁ s₂ (execCrcchk s₁) (execCrcchk s₂) := by
  simp (disch := decide) only [execCrcchk, h.argNat, h.inRange, h.dmem]
  refine .check (.raiseErr _) ?_
  cases s₁.dmem.readRange (s₁.argNat 0) (s₁.argNat 1 + 16) with
  | none => exact .meetUninit
  | some v => exact .check (.raiseErr _) ⟨.crcChecked _ _, rfl, rfl⟩

theorem unpackFields_alike (fs : List Field) (h : SameInputs [0, 1, 2, 3, 4] s₁ s₂) :
    EndAlike s₁ s₂ (unpackFields fs s₁) (unpackFields fs s₂) := by
  simp (disch := decide) only [unpackFields, h.argNat, h.inRange, h.dmem]
  refine .check (.raiseErr _) (.check (.raiseErr _) (.check (.raiseErr _) (.check (.raiseErr _) ?_)))
  cases s₁.dmem.readRange (s₁.argNat 0) (s₁.argNat 1) with
  | none => exact .meetUninit
  | some bits =>
    cases readDefaults s₁.dmem fs with
    | none => exact .meetUninit
    | some defaults => exact .check (.raiseErr _) ⟨.unpacked _ _ _ _ _, rfl, rfl⟩

theorem execUnp_alike (h : SameInputs [0, 1, 2, 3, 4] s₁ s₂) : EndAlike s₁ s₂ (execUnp s₁) (execUnp s₂) := by
  simp (disch := decide) only [execUnp, h.argNat, h.inRange, h.dmem]
  refine .check (.raiseErr _) ?_
  cases s₁.dmem.readRange (s₁.argNat 2) (descSize * s₁.argNat 3) with
  | none => exact .meetUninit
  | some desc =>
    cases hfields : schemaOf desc with
    | none => simp only [hfields]; exact .raiseErr _
    | some fs => simp only [hfields]; exact unpackFields_alike fs h

/-- Two performances that agree on the parameters, DMEM, the ARG registers the command names and, for DIL, IL_DEPTH end
alike (R107). -/
theorem exec_alike (i : Instr) (h : SameInputs (argsNamed i) s₁ s₂) (hdepth : i = .dil → s₂.ilDepth = s₁.ilDepth) :
    EndAlike s₁ s₂ (exec i s₁) (exec i s₂) := by
  cases i with
  | h2s => exact execH2S_alike h
  | s2h => exact execS2H_alike h
  | scrseq => exact execScrseq_alike h
  | scrHard => exact scrambleCommand_alike _ _ h
  | scrSoft => exact scrambleCommand_alike _ _ h
  | dil => exact execDil_alike h (hdepth rfl)
  | dpn rate => exact execDpn_alike rate h
  | vitZero => exact viterbiCommand_alike _ h
  | vitMin => exact viterbiCommand_alike _ h
  | crc16 => exact execCrc16_alike h
  | crcchk => exact execCrcchk_alike h
  | unp => exact execUnp_alike h

end Alike

/-- Settles O23: both performances are one end (exec_alike), which is MF_UNINIT or a function of DMEM and STATUS. -/
theorem commandsAreFunctionsOfTheirInputs : Obligations.CommandsAreFunctionsOfTheirInputs := by
  unfold Obligations.CommandsAreFunctionsOfTheirInputs
  intro i s₁ s₂ t₁ t₂ hcfg hargs hdepth hm ht h₁ h₂
  have hsame : SameInputs (argsNamed i) s₁ s₂ := ⟨hcfg.symm, hm.symm, fun k _ => by rw [hargs]⟩
  obtain ⟨e, he₁, he₂⟩ := exec_alike i hsame (fun _ => hdepth.symm)
  cases h₁.symm.trans he₁
  cases h₂.symm.trans he₂
  rcases e.applyTo_alike hm ht with rfl | halike
  · exact .inl ⟨meetUninit_meets s₁, meetUninit_meets s₂⟩
  · exact .inr halike

/-- Settles O24: changing what a command does not name keeps SameInputs, and no end touches it. -/
theorem unnamedOperandsAreIgnored : Obligations.UnnamedOperandsAreIgnored := by
  unfold Obligations.UnnamedOperandsAreIgnored
  intro i s t h
  refine ⟨fun other hother => ?_, fun hi d => ?_⟩
  · have hsame : SameInputs (argsNamed i) s { s with args := other } := ⟨rfl, rfl, hother⟩
    obtain ⟨e, he, hother'⟩ := exec_alike i hsame (fun _ => rfl)
    cases h.symm.trans he
    rw [hother', e.applyTo_withArgs]
  · have hsame : SameInputs (argsNamed i) s { s with ilDepth := d } := ⟨rfl, rfl, fun _ _ => rfl⟩
    obtain ⟨e, he, hother⟩ := exec_alike i hsame (fun hdil => absurd hdil hi)
    cases h.symm.trans he
    rw [hother, e.applyTo_withDepth]

end Sys2Proof.Machine

/-! # The address map (R33, R46, R71, R72) -/

namespace Sys2Proof.Machine

/-- Addresses count from BLOCK_BASE (R71). -/
@[simp] theorem busTarget_base (c : Config) (bytes off : Nat) :
    busTarget c bytes (c.blockBase + off) = targetAt c bytes off := by
  simp [busTarget]

theorem regAt_eq_some_iff {off : Nat} {r : Reg} : regAt off = some r ↔ off = regOffset r :=
  ⟨regOffset_of_regAt, fun h => h ▸ regAt_regOffset r⟩

/-- In the DMEM window only single bytes are named (R71, R72). -/
theorem targetAt_window {c : Config} {a : Nat} (bytes : Nat) (ha : a < c.dmemSize) :
    targetAt c bytes (dmemWindow + a) = if bytes = 1 then .dmem a else .unmapped := by
  simp [targetAt, ha]

/-- Outside the DMEM window only whole registers are named (R33, R46). -/
theorem targetAt_outside {c : Config} {off : Nat} (bytes : Nat)
    (hoff : ¬(dmemWindow ≤ off ∧ off < dmemWindow + c.dmemSize)) :
    targetAt c bytes off = if bytes = 4 then ((regAt off).map Target.reg).getD .unmapped else .unmapped := by
  rw [targetAt, if_neg hoff]
  cases regAt off <;> rfl

/-- A register is named by a whole word at its offset (R33). -/
theorem targetAt_eq_reg_iff {c : Config} {bytes off : Nat} {r : Reg} :
    targetAt c bytes off = .reg r ↔ bytes = 4 ∧ off = regOffset r := by
  by_cases hoff : dmemWindow ≤ off ∧ off < dmemWindow + c.dmemSize
  · obtain ⟨a, rfl⟩ := Nat.exists_eq_add_of_le hoff.1
    have hreg : dmemWindow + a ≠ regOffset r := by have := regOffset_lt_window r; omega
    rw [targetAt_window bytes (by omega)]
    split <;> simp [hreg]
  · rw [targetAt_outside bytes hoff, ← regAt_eq_some_iff]
    by_cases hbytes : bytes = 4
    · cases regAt off <;> simp [hbytes]
    · simp [hbytes]

/-- A DMEM byte is named by a byte in the window (R71, R72). -/
theorem targetAt_eq_dmem_iff {c : Config} {bytes off a : Nat} :
    targetAt c bytes off = .dmem a ↔ bytes = 1 ∧ a < c.dmemSize ∧ off = dmemWindow + a := by
  by_cases hoff : dmemWindow ≤ off ∧ off < dmemWindow + c.dmemSize
  · obtain ⟨b, rfl⟩ := Nat.exists_eq_add_of_le hoff.1
    have hb : b < c.dmemSize := by omega
    rw [targetAt_window bytes hb]
    by_cases hbytes : bytes = 1
    · simp only [hbytes, if_true, Target.dmem.injEq, true_and, Nat.add_left_cancel_iff]
      exact ⟨fun h => ⟨h ▸ hb, h⟩, And.right⟩
    · simp [hbytes]
  · rw [targetAt_outside bytes hoff]
    refine ⟨fun h => ?_, fun ⟨_, ha, hwin⟩ => absurd ⟨by omega, by omega⟩ hoff⟩
    split at h
    · cases hreg : regAt off <;> simp [hreg] at h
    · cases h

/-- Settles O26: the two windows do not meet, and each names what it holds by one width only. -/
theorem addressMap : Obligations.AddressMap := by
  unfold Obligations.AddressMap
  exact fun c bytes off => ⟨busTarget_base c bytes off, fun _ => targetAt_eq_reg_iff, fun _ => targetAt_eq_dmem_iff⟩

/-- What WR and RD of a register name (R113). -/
theorem busTarget_register (c : Config) (r : Reg) : busTarget c 4 (c.blockBase + regOffset r) = .reg r := by
  rw [busTarget_base, targetAt_eq_reg_iff]
  exact ⟨rfl, rfl⟩

/-- What an access of a width in the DMEM window names (R72, R113). -/
theorem busTarget_window {c : Config} {a : Nat} (bytes : Nat) (ha : a < c.dmemSize) :
    busTarget c bytes (c.blockBase + dmemWindow + a) = if bytes = 1 then .dmem a else .unmapped := by
  rw [Nat.add_assoc, busTarget_base, targetAt_window bytes ha]

end Sys2Proof.Machine

/-! # The words of the registers (R34, R35, R42, R45) -/

namespace Sys2Proof.Machine

/-- A bit as a word has that bit at place 0 and zeros above. -/
@[simp] theorem bitWord_getLsbD (b : Bool) (i : Nat) : (bitWord b).getLsbD i = (decide (i = 0) && b) := by
  cases b <;> simp [bitWord]

/-- A flag moved to place k. -/
theorem bitWord_shift_getLsbD (b : Bool) {i k : Nat} (hi : i < 32) :
    (bitWord b <<< k).getLsbD i = (decide (i = k) && b) := by
  have hplace : (!decide (i < k) && decide (i - k = 0)) = decide (i = k) := by
    rw [Bool.eq_iff_iff]
    simp only [Bool.and_eq_true, Bool.not_eq_true', decide_eq_false_iff_not, decide_eq_true_eq]
    omega
  rw [BitVec.getLsbD_shiftLeft, bitWord_getLsbD, ← hplace]
  simp only [hi, decide_true, Bool.true_and, Bool.and_assoc]

/-- The STATUS word bit by bit: its fields at their places, every other bit 0 (R35, R45). -/
theorem Status.word_getLsbD (t : Status) {i : Nat} (hi : i < 32) :
    t.word.getLsbD i = ((decide (i = 0) && t.busy) || (decide (i = 1) && t.done)
      || (decide (4 ≤ i) && t.err.getLsbD (i - 4)) || (decide (i = 8) && t.crcOk) || (decide (i = 9) && t.pduValid)) := by
  have herr : (t.err.zeroExtend 32 <<< 4).getLsbD i = (decide (4 ≤ i) && t.err.getLsbD (i - 4)) := by
    rw [BitVec.getLsbD_shiftLeft, BitVec.getLsbD_setWidth]
    grind
  simp only [Status.word, BitVec.getLsbD_or, bitWord_getLsbD, bitWord_shift_getLsbD _ hi, herr]

/-- The reserved bits of STATUS read 0 (R45). -/
theorem Status.word_reserved (t : Status) : t.word &&& 0xFFFFFC0C = 0 := by
  apply BitVec.eq_of_getLsbD_eq
  intro i hi
  rw [BitVec.getLsbD_and, t.word_getLsbD hi]
  interval_cases i <;> simp

/-- ERR stands at bits 7:4 of STATUS (R35). -/
theorem Status.word_err (t : Status) : t.word.extractLsb' 4 4 = t.err := by
  apply BitVec.eq_of_getLsbD_eq
  intro i hi
  rw [BitVec.getLsbD_extractLsb', t.word_getLsbD (by omega)]
  interval_cases i <;> simp

/-- A bit as a word has no bit above place 0 (R34, R45). -/
theorem bitWord_and_high (b : Bool) : bitWord b &&& 0xFFFFFFFE = 0 := by
  cases b <;> rfl

/-- Bit 0 of a word, as a word. -/
theorem bitWord_getLsbD_zero (w : Word) : bitWord (w.getLsbD 0) = w &&& 0x1 := by
  rw [show (0x1 : Word) = 1#32 from rfl, BitVec.and_one_eq_setWidth_ofBool_getLsbD]
  cases w.getLsbD 0 <;> rfl

/-- The low half of a word, zero-extended (R42, R45). -/
theorem zeroExtend_truncate (w : Word) : (w.truncate 16).zeroExtend 32 = w &&& 0xFFFF := by
  apply BitVec.eq_of_toNat_eq
  have hlow : w.toNat % 65536 < 4294967296 := by omega
  simpa [Nat.mod_eq_of_lt hlow] using (Nat.and_two_pow_sub_one_eq_mod w.toNat 16).symm

/-- The high half of a zero-extended half word is 0 (R45). -/
theorem zeroExtend_and_high (d : BitVec 16) : d.zeroExtend 32 &&& 0xFFFF0000 = 0 := by
  change d.zeroExtend 32 &&& (0xFFFF : Word) <<< 16 = 0
  apply BitVec.eq_of_getLsbD_eq
  intro i hi
  rw [BitVec.getLsbD_and, BitVec.getLsbD_shiftLeft]
  by_cases hlow : i < 16
  · simp [hlow]
  · simp [Nat.le_of_not_lt hlow]

/-- Words that agree on their low half have the same low half. -/
theorem truncate_eq_of_and_eq {v w : Word} (h : v &&& 0xFFFF = w &&& 0xFFFF) : v.truncate 16 = w.truncate 16 := by
  rw [← zeroExtend_truncate, ← zeroExtend_truncate] at h
  simpa using congrArg (BitVec.truncate 16) h

/-- Words that agree under a mask agree on each of its bits. -/
theorem getLsbD_eq_of_and_eq {v w mask : Word} (i : Nat) (h : v &&& mask = w &&& mask) (hi : mask.getLsbD i = true) :
    v.getLsbD i = w.getLsbD i := by
  simpa [hi] using congrArg (BitVec.getLsbD · i) h

/-- Settles O31: the STATUS word bit by bit, and what a write keeps of a word. -/
theorem reservedBitsReadZero : Obligations.ReservedBitsReadZero := by
  unfold Obligations.ReservedBitsReadZero
  refine ⟨fun s => ?_, fun s v w => ⟨fun h => ?_, fun h => ?_, fun h => ?_⟩⟩
  · have hbit (i : Nat) (hi : i < 32) := s.status.word_getLsbD hi
    refine ⟨?_, ?_, s.status.word_err, ?_, ?_, s.status.word_reserved, bitWord_and_high _, zeroExtend_and_high _⟩
    · simpa [readReg] using hbit 0 (by decide)
    · simpa [readReg] using hbit 1 (by decide)
    · simpa [readReg] using hbit 8 (by decide)
    · simpa [readReg] using hbit 9 (by decide)
  · simp only [writeReg, getLsbD_eq_of_and_eq 0 h (by decide)]
  · simp only [writeReg, getLsbD_eq_of_and_eq 1 h (by decide)]
  · simp only [writeReg, truncate_eq_of_and_eq h]

end Sys2Proof.Machine

/-! # The host's accesses (R37, R41-R46, R48, R71-R73, R330, R360, R361)
First the step of a host that does one load or store, then what an access does by what it names. -/

namespace Sys2Proof.Machine

/-! The step of a host that does an operation. -/

theorem step_of_host {s : State} (hn : nextTurn s = .host) : step s = .next (hostTurn s.popTurn) := by
  simp [step, hn, takeTurn]

theorem hostProgram_of_hostDoes {s : State} {op : HostOp} (h : HostDoes s op) :
    s.popTurn.hostProgram = op :: s.hostProgram.tail :=
  (List.cons_head?_tail h.2).symm

theorem step_load {s : State} {bytes addr : Nat} (h : HostDoes s (.load bytes addr)) :
    step s = .next (hostLoad s.popTurn.popHost (busTarget s.cfg bytes addr)) := by
  rw [step_of_host h.1, hostTurn, hostProgram_of_hostDoes h]
  rfl

theorem step_store {s : State} {bytes addr : Nat} {w : Word} (h : HostDoes s (.store bytes addr w)) :
    step s = .next (hostStore s.popTurn.popHost (busTarget s.cfg bytes addr) w) := by
  rw [step_of_host h.1, hostTurn, hostProgram_of_hostDoes h]
  rfl

/-- RD reads the register it names (R113). -/
theorem step_readOp {s : State} {r : Reg} (h : HostDoes s (readOp s.cfg r)) :
    step s = .next (hostLoad s.popTurn.popHost (.reg r)) := by
  rw [step_load h, busTarget_register]

/-- WR writes the register it names (R113). -/
theorem step_writeOp {s : State} {r : Reg} {w : Word} (h : HostDoes s (writeOp s.cfg r w)) :
    step s = .next (hostStore s.popTurn.popHost (.reg r) w) := by
  rw [step_store h, busTarget_register]

/-! What an access does, by what it names. -/

/-- MF_BUS always joins FAULTS, MF_HAZARD while BUSY = 1 (R46, R360, log 7). -/
theorem refuseUnmapped_eq (s : State) : s.refuseUnmapped =
    { s with faults := { s.faults with bus := true, hazard := s.faults.hazard || s.status.busy } } := by
  cases hb : s.status.busy <;> simp [State.refuseUnmapped, hb, State.addBus, State.addHazard]

/-- Unless R360 closes the register, a load reads it. -/
theorem hostLoad_reg {s : State} {r : Reg} (h : s.status.busy = false ∨ openWhileBusy r = true) :
    hostLoad s (.reg r) = s.setHostData (some (readReg s r)) := by
  rcases h with h | h <;> simp [hostLoad, h]

/-- Unless R360 closes the register, a store writes it. -/
theorem hostStore_reg {s : State} {r : Reg} (w : Word) (h : s.status.busy = false ∨ openWhileBusy r = true) :
    hostStore s (.reg r) w = writeReg s r w := by
  rcases h with h | h <;> simp [hostStore, h]

/-- A store to a register that R360 closes only adds MF_HAZARD. -/
theorem hostStore_reg_hazard {s : State} {r : Reg} (w : Word) (hb : s.status.busy = true)
    (hr : openWhileBusy r = false) : hostStore s (.reg r) w = s.addHazard := by
  simp [hostStore, hb, hr]

theorem hostStore_dmem {s : State} {a : Nat} (w : Word) (hb : s.status.busy = false) :
    hostStore s (.dmem a) w = { s with dmem := s.dmem.write a (w.truncate 8) } := by
  simp [hostStore, hb]

theorem hostLoad_dmem_written {s : State} {a : Nat} {v : Byte} (hb : s.status.busy = false)
    (hv : s.dmem.read a = some v) : hostLoad s (.dmem a) = s.setHostData (some (v.zeroExtend 32)) := by
  simp [hostLoad, hb, hv]

theorem hostLoad_dmem_unwritten {s : State} {a : Nat} (hb : s.status.busy = false) (hv : s.dmem.read a = none) :
    hostLoad s (.dmem a) = s.addUninit.setHostData none := by
  simp [hostLoad, hb, hv]

/-! The statements about accesses. -/

/-- Settles O27: the step is the refusal of an unmapped access. -/
theorem unmappedAccessIsRefused : Obligations.UnmappedAccessIsRefused := by
  unfold Obligations.UnmappedAccessIsRefused
  intro s bytes addr hnone
  refine ⟨fun h => ?_, fun w h => ?_⟩
  · rw [step_load h, hnone, hostLoad, refuseUnmapped_eq]
    rfl
  · rw [step_store h, hnone, hostStore, refuseUnmapped_eq]
    rfl

/-- Settles O29: CMD is open to a write only while BUSY = 0, and the write then starts a command. -/
theorem cmdWriteStartsACommand : Obligations.CmdWriteStartsACommand := by
  unfold Obligations.CmdWriteStartsACommand
  intro s w h
  have hstarts (hb : s.popTurn.popHost.status.busy = false) :
      step s = .next (s.popTurn.popHost.startCommand w) := by
    rw [step_writeOp h, hostStore_reg w (.inl hb)]
    rfl
  have hrefused (hb : s.popTurn.popHost.status.busy = true) : step s = .next s.popTurn.popHost.addHazard := by
    rw [step_writeOp h, hostStore_reg_hazard w hb rfl]
  refine ⟨hstarts, hrefused, fun t ht hb => ?_⟩
  cases ht.symm.trans (hstarts hb)
  rfl

/-- Settles O30: STATUS is always open, and the write ANDs DONE with the complement of bit 1. -/
theorem statusWriteClearsDone : Obligations.StatusWriteClearsDone := by
  unfold Obligations.StatusWriteClearsDone
  intro s w h
  have hwrite : step s = .next (writeReg s.popTurn.popHost .status w) := by
    rw [step_writeOp h, hostStore_reg w (.inr rfl)]
  refine ⟨fun hw => ?_, fun hw => ?_⟩
  · simp only [hwrite, writeReg, hw, Bool.not_true, Bool.and_false]
    rfl
  · simp only [hwrite, writeReg, hw, Bool.not_false, Bool.and_true]

/-- Writing CTRL, IL_DEPTH or an ARG register leaves every other register as it reads. -/
theorem readReg_writeReg_other {s : State} {r q : Reg} (w : Word) (hr : r = .ctrl ∨ r = .ilDepth ∨ ∃ k, r = .arg k)
    (hq : q ≠ r) : readReg (writeReg s r w) q = readReg s q := by
  rcases hr with rfl | rfl | ⟨k, rfl⟩
  · cases q with
    | ctrl => exact absurd rfl hq
    | _ => rfl
  · cases q with
    | ilDepth => exact absurd rfl hq
    | _ => rfl
  · cases q with
    | arg j => exact ArgFile.get_set_other s.args w (fun hjk => hq (hjk ▸ rfl))
    | _ => rfl

/-- Writing CTRL, IL_DEPTH or an ARG register changes nothing of the state but these. -/
theorem writeReg_frame {s : State} {r : Reg} (w : Word) (hr : r = .ctrl ∨ r = .ilDepth ∨ ∃ k, r = .arg k) :
    writeReg s r w = { s with
      ctrl := (writeReg s r w).ctrl
      ilDepth := (writeReg s r w).ilDepth
      args := (writeReg s r w).args } := by
  rcases hr with rfl | rfl | ⟨k, rfl⟩ <;> rfl

/-- Settles O32: read-back and frame of the writable registers, the read-only ones, and the idle host's step. -/
theorem registersReadBack : Obligations.RegistersReadBack := by
  unfold Obligations.RegistersReadBack
  intro s w
  refine ⟨⟨bitWord_getLsbD_zero w, zeroExtend_truncate w, fun k => ArgFile.get_set_same s.args k w⟩,
    fun r hr => ⟨writeReg_frame w hr, fun q hq => readReg_writeReg_other w hr hq⟩, ⟨rfl, rfl, rfl, rfl⟩,
    fun r hb => ?_⟩
  have hidle : s.popTurn.popHost.status.busy = false := hb
  refine ⟨fun h => ?_, fun h => ?_⟩
  · rw [step_writeOp h, hostStore_reg w (.inl hidle)]
  · rw [step_readOp h, hostLoad_reg (.inl hidle)]
    cases r <;> rfl

/-- Settles O33: in the window a single byte is the DMEM byte, any other width is unmapped. -/
theorem hostByteAccess : Obligations.HostByteAccess := by
  unfold Obligations.HostByteAccess
  intro s a ha hb
  have hidle : s.popTurn.popHost.status.busy = false := hb
  have hbyte : busTarget s.cfg 1 (s.cfg.blockBase + dmemWindow + a) = .dmem a := busTarget_window 1 ha
  refine ⟨fun v h => ?_, fun v h hv => ?_, fun h hv => ?_, fun bytes hwidth => ?_⟩
  · refine ⟨_, (step_store h).trans (by rw [hbyte, hostStore_dmem _ hidle]), rfl, fun b => ?_⟩
    simp [Memory.read_write]
  · rw [step_load h, hbyte, hostLoad_dmem_written hidle hv]
    rfl
  · rw [step_load h, hbyte, hostLoad_dmem_unwritten hidle hv]
    rfl
  · have hnone : busTarget s.cfg bytes (s.cfg.blockBase + 0x10000 + a) = .unmapped := by
      rw [show (0x10000 : Nat) = dmemWindow from rfl, busTarget_window bytes ha, if_neg hwidth]
    obtain ⟨hload, hstore⟩ := unmappedAccessIsRefused s bytes _ hnone
    simp only [hb, Bool.or_false] at hload hstore
    exact ⟨hload, hstore⟩

end Sys2Proof.Machine

/-! # While BUSY = 1 (R73, R81, R83, R85, R330, R360, R362)
The accesses a busy block refuses; then how a pending command comes to be performed with what it was started with: a turn
of the host keeps the command and its inputs, and uses up one turn of the schedule. -/

namespace Sys2Proof.Machine

/-! The accesses that R360 closes. -/

theorem openWhileBusy_eq_true_iff {r : Reg} : openWhileBusy r = true ↔ r = .ctrl ∨ r = .status := by
  cases r <;> simp [openWhileBusy]

/-- A load from a register that R360 closes adds MF_HAZARD and returns no value. -/
theorem hostLoad_reg_hazard {s : State} {r : Reg} (hb : s.status.busy = true) (hr : openWhileBusy r = false) :
    hostLoad s (.reg r) = s.addHazard.setHostData none := by
  simp [hostLoad, hb, hr]

theorem hostLoad_dmem_hazard {s : State} (a : Nat) (hb : s.status.busy = true) :
    hostLoad s (.dmem a) = s.addHazard.setHostData none := by
  simp [hostLoad, hb]

theorem hostStore_dmem_hazard {s : State} (a : Nat) (w : Word) (hb : s.status.busy = true) :
    hostStore s (.dmem a) w = s.addHazard := by
  simp [hostStore, hb]

/-- Every mapped access of a busy block is refused but one to CTRL or STATUS (R360). -/
theorem busy_access_refused {s : State} {T : Target} (hb : s.status.busy = true) (hmapped : T ≠ .unmapped)
    (hctrl : T ≠ .reg .ctrl) (hstatus : T ≠ .reg .status) :
    hostLoad s T = s.addHazard.setHostData none ∧ ∀ w, hostStore s T w = s.addHazard := by
  cases T with
  | unmapped => exact absurd rfl hmapped
  | dmem a => exact ⟨hostLoad_dmem_hazard a hb, fun w => hostStore_dmem_hazard a w hb⟩
  | reg r =>
    have hclosed : openWhileBusy r = false := by
      rw [Bool.eq_false_iff, Ne, openWhileBusy_eq_true_iff, not_or]
      exact ⟨fun h => hctrl (h ▸ rfl), fun h => hstatus (h ▸ rfl)⟩
    exact ⟨hostLoad_reg_hazard hb hclosed, fun w => hostStore_reg_hazard w hb hclosed⟩

/-- The registers do not show whose turn it is, nor what the host has still to do. -/
@[simp] theorem readReg_popTurn_popHost (s : State) (r : Reg) : readReg s.popTurn.popHost r = readReg s r := by
  cases r <;> rfl

/-- Settles O28: CTRL and STATUS are open whatever BUSY is, and every other mapped access is refused. -/
theorem busyBlockRefusesOtherAccesses : Obligations.BusyBlockRefusesOtherAccesses := by
  unfold Obligations.BusyBlockRefusesOtherAccesses
  intro s bytes addr hb
  have hbusy : s.popTurn.popHost.status.busy = true := hb
  refine ⟨fun r hr htarget => ?_, fun hmapped hctrl hstatus => ?_⟩
  · have hopen := openWhileBusy_eq_true_iff.mpr hr
    refine ⟨fun h => ?_, fun w h => ?_⟩
    · rw [step_load h, htarget, hostLoad_reg (.inr hopen), readReg_popTurn_popHost]
      rfl
    · rw [step_store h, htarget, hostStore_reg w (.inr hopen)]
  · obtain ⟨hload, hstore⟩ := busy_access_refused hbusy hmapped hctrl hstatus
    refine ⟨fun h => ?_, fun w h => ?_⟩
    · rw [step_load h, hload]
      rfl
    · rw [step_store h, hstore]
      rfl

/-! A pending command and the turns of the host before it. -/

/-- t has the command of s, its operands, DMEM and results: what a performance reads or writes but for STATUS. -/
structure SameCommand (s t : State) : Prop where
  pending : t.pending = s.pending
  cmd : t.cmd = s.cmd
  args : t.args = s.args
  ilDepth : t.ilDepth = s.ilDepth
  dmem : t.dmem = s.dmem
  result0 : t.result0 = s.result0
  result1 : t.result1 = s.result1

theorem SameCommand.refl (s : State) : SameCommand s s :=
  ⟨rfl, rfl, rfl, rfl, rfl, rfl, rfl⟩

theorem SameCommand.trans {s t u : State} (h : SameCommand s t) (h' : SameCommand t u) : SameCommand s u where
  pending := h'.pending.trans h.pending
  cmd := h'.cmd.trans h.cmd
  args := h'.args.trans h.args
  ilDepth := h'.ilDepth.trans h.ilDepth
  dmem := h'.dmem.trans h.dmem
  result0 := h'.result0.trans h.result0
  result1 := h'.result1.trans h.result1

/-- While BUSY = 1 the host's turn keeps the command and all it was started with (R83, R360): it starts no other. -/
theorem HostChanges.sameCommand {s t : State} (hc : HostChanges s t) (hb : s.status.busy = true) :
    SameCommand s t := by
  obtain ⟨hargs, hdepth, hdmem⟩ := hc.whileBusy hb
  rcases hc.commandSide with ⟨-, hpending, hcmd, h0, h1⟩ | ⟨-, -, hpending, hcmd, h0, h1⟩ | ⟨hidle, -⟩
  · exact ⟨hpending, hcmd, hargs, hdepth, hdmem, h0, h1⟩
  · exact ⟨hpending, hcmd, hargs, hdepth, hdmem, h0, h1⟩
  · simp [hb] at hidle

theorem run_succ_of_step {s t : State} (h : step s = .next t) (k : Nat) :
    Sys2Proof.core.run (k + 1) s = Sys2Proof.core.run k t := by
  have hcore : Sys2Proof.core.step s = .next t := h
  simp only [Host.Core.run, hcore]

/-- s comes to the performance of its pending command within n steps, with all it was started with (R362). -/
def PerformsWithin (n : Nat) (s : State) : Prop :=
  ∃ k t, k ≤ n ∧ Sys2Proof.core.run k s = .next t ∧ BlockPerforms t ∧ SameCommand s t

theorem BlockPerforms.performsWithin {s : State} (h : BlockPerforms s) (n : Nat) : PerformsWithin n s :=
  ⟨0, s, n.zero_le, rfl, h, .refl s⟩

/-- A step that keeps the command adds one to the bound. -/
theorem PerformsWithin.of_step {s t : State} {n : Nat} (hstep : step s = .next t) (hkept : SameCommand s t)
    (h : PerformsWithin n t) : PerformsWithin (n + 1) s := by
  obtain ⟨k, u, hk, hrun, hperforms, hlater⟩ := h
  exact ⟨k + 1, u, Nat.succ_le_succ hk, (run_succ_of_step hstep k).trans hrun, hperforms, hkept.trans hlater⟩

/-- A pending command is performed before the schedule's turns are used up, by induction on the schedule: its first turn
is the block's, or the host's, which keeps the command and leaves the rest of the schedule. -/
theorem performsWithin_schedule {turns : List Turn} {s : State} (hturns : s.schedule = turns)
    (hb : s.status.busy = true) (hs : s.stuck = false) (hreset : Turn.reset ∉ turns) :
    PerformsWithin turns.length s := by
  induction turns generalizing s with
  | nil => exact BlockPerforms.performsWithin ⟨by simp [nextTurn, hturns, hb], hb, hs⟩ _
  | cons turn rest ih =>
    have hnext : nextTurn s = turn := by simp [nextTurn, hturns]
    cases turn with
    | reset => exact absurd List.mem_cons_self hreset
    | block => exact BlockPerforms.performsWithin ⟨hnext, hb, hs⟩ _
    | host =>
      have hc := hostTurn_changes s.popTurn
      have hleft : (hostTurn s.popTurn).schedule = rest := hc.schedule.trans (congrArg List.tail hturns)
      have hkept : SameCommand s (hostTurn s.popTurn) := { hc.sameCommand hb with }
      have hlater := ih hleft (hc.busy_kept hb) (hc.stuck.trans hs) (List.not_mem_of_not_mem_cons hreset)
      exact hlater.of_step (step_of_host hnext) hkept

/-- Settles O39: the bound is the length of the schedule. -/
theorem pendingCommandIsPerformed : Obligations.PendingCommandIsPerformed := by
  unfold Obligations.PendingCommandIsPerformed
  intro s hb hs hreset
  obtain ⟨k, t, hk, hrun, hperforms, hkept⟩ := performsWithin_schedule rfl hb hs hreset
  exact ⟨k, t, hk, hrun, hperforms, hkept.pending, hkept.cmd, hkept.args, hkept.ilDepth, hkept.dmem, hkept.result0,
    hkept.result1⟩

end Sys2Proof.Machine

/-! # The command word (R100-R106, R115)
A command word is its three fields, and decoding reads a command from a word exactly when the fields are the command's:
RSV = 0, and OPC and MODE as encode writes them. -/

namespace Sys2Proof

open Sys2Proof.Machine

/-- OPC of a command's row of the opcode table (R104, R115). -/
abbrev opcOf (i : Instr) : Nat := (Laws.tableRow i).1

/-- MODE of a command: DPN's rate code, the variant of SCR and VIT, else 0 (R105, R115, R202). -/
def modeOf : Instr → Nat
  | .dpn rate => rate
  | .scrSoft => 1
  | .vitMin => 1
  | _ => 0

theorem encode_eq_commandWord (i : Instr) : encode i = commandWord (modeOf i) (opcOf i) := by
  cases i <;> rfl

/-- A command has an encoding exactly when its MODE fits four bits (R101). -/
theorem wellFormed_iff_modeOf_lt (i : Instr) : i.wellFormed = true ↔ modeOf i < 16 := by
  cases i <;> simp [Instr.wellFormed, modeOf]

theorem opcOf_lt (i : Instr) : opcOf i < 256 := by
  cases i <;> simp [opcOf, Laws.tableRow]

theorem modeField_lt (w : Word) : modeField w < 16 := Nat.mod_lt _ (by decide)

/-- A word is the command word of a MODE and an OPC exactly when these are its fields and RSV = 0 (R101). -/
theorem commandWord_eq_iff {mode opc : Nat} {w : Word} (hmode : mode < 16) (hopc : opc < 256) :
    commandWord mode opc = w ↔ rsvField w = 0 ∧ opcField w = opc ∧ modeField w = mode := by
  rw [← BitVec.toNat_inj, commandWord, BitVec.toNat_ofNat, rsvField, opcField, modeField]
  omega

theorem onlyModeZero_eq_ok_iff {mode : Nat} {i j : Instr} :
    onlyModeZero mode i = .ok j ↔ mode = 0 ∧ i = j := by
  by_cases h : mode = 0 <;> simp [onlyModeZero, h]

theorem modeZeroOrOne_eq_ok_iff {mode : Nat} {i0 i1 j : Instr} :
    modeZeroOrOne mode i0 i1 = .ok j ↔ mode = 0 ∧ i0 = j ∨ mode = 1 ∧ i1 = j := by
  by_cases h0 : mode = 0
  · simp [modeZeroOrOne, h0]
  · by_cases h1 : mode = 1 <;> simp [modeZeroOrOne, h0, h1]

/-- What a decoded word's fields are, by the checks of R103. The cases of decode in its order: h_4 is SCR's opcode, h_6
DPN's, h_7 VIT's, h_11 no opcode of R104; every other one admits MODE 0 alone. -/
theorem fields_of_decode {w : Word} {i : Instr} (h : decode w = .ok i) :
    rsvField w = 0 ∧ opcField w = opcOf i ∧ modeField w = modeOf i := by
  unfold decode at h
  split at h
  · cases h
  next hrsv =>
  refine ⟨not_not.mp hrsv, ?_⟩
  split at h
  case h_4 hopc | h_7 hopc =>
    rcases modeZeroOrOne_eq_ok_iff.mp h with ⟨hmode, rfl⟩ | ⟨hmode, rfl⟩
    · exact ⟨hopc, hmode⟩
    · exact ⟨hopc, hmode⟩
  case h_6 hopc =>
    cases h
    exact ⟨hopc, rfl⟩
  case h_11 => cases h
  all_goals
    next hopc =>
    obtain ⟨hmode, rfl⟩ := onlyModeZero_eq_ok_iff.mp h
    exact ⟨hopc, hmode⟩

/-- R103's checks accept a word with a command's fields, and read that command. -/
theorem decode_of_fields {w : Word} {i : Instr} (hrsv : rsvField w = 0) (hopc : opcField w = opcOf i)
    (hmode : modeField w = modeOf i) : decode w = .ok i := by
  cases i <;> simp [decode, hrsv, hopc, hmode, modeOf, opcOf, Laws.tableRow, onlyModeZero, modeZeroOrOne]

theorem decode_eq_ok_iff {w : Word} {i : Instr} :
    decode w = .ok i ↔ rsvField w = 0 ∧ opcField w = opcOf i ∧ modeField w = modeOf i :=
  ⟨fields_of_decode, fun ⟨hrsv, hopc, hmode⟩ => decode_of_fields hrsv hopc hmode⟩

/-- Settles O1: both sides say that the word's fields are the command's. -/
theorem decodeInvertsEncode : Obligations.DecodeInvertsEncode := by
  unfold Obligations.DecodeInvertsEncode
  intro w i
  rw [decode_eq_ok_iff, encode_eq_commandWord, wellFormed_iff_modeOf_lt]
  constructor
  · rintro ⟨hrsv, hopc, hmode⟩
    have hlt : modeOf i < 16 := hmode ▸ modeField_lt w
    exact ⟨hlt, (commandWord_eq_iff hlt (opcOf_lt i)).mpr ⟨hrsv, hopc, hmode⟩⟩
  · rintro ⟨hlt, h⟩
    exact (commandWord_eq_iff hlt (opcOf_lt i)).mp h

/-- Settles O3: each word is the encoding of its command, so it decodes to it (O1). -/
theorem commandWordsDecode : Obligations.CommandWordsDecode := by
  unfold Obligations.CommandWordsDecode
  simp only [decodeInvertsEncode _ _]
  decide

/-! The illegal words, from the same fields (R106). -/

theorem and_255_toNat (w : Word) : (w &&& 0xFF).toNat = opcField w :=
  Nat.and_two_pow_sub_one_eq_mod w.toNat 8

theorem shift_and_15_toNat (w : Word) : ((w >>> 8) &&& 0xF).toNat = modeField w := by
  rw [modeField, ← Nat.shiftRight_eq_div_pow w.toNat 8]
  exact Nat.and_two_pow_sub_one_eq_mod (w.toNat >>> 8) 4

theorem shift_12_eq_zero_iff (w : Word) : w >>> 12 = 0 ↔ rsvField w = 0 := by
  rw [rsvField, ← Nat.shiftRight_eq_div_pow w.toNat 12, ← BitVec.toNat_inj]
  rfl

/-- An opcode of R104 with a MODE accepted for it are the fields of some command, and conversely (R105). -/
theorem accepted_iff_exists_command {opc mode : Nat} :
    opc ∈ opcodes ∧ modeAccepted opc mode = true ↔ ∃ i, opc = opcOf i ∧ mode = modeOf i := by
  constructor
  · rintro ⟨hopc, hmode⟩
    simp only [opcodes, List.mem_cons, List.not_mem_nil, or_false] at hopc
    rcases hopc with rfl | rfl | rfl | rfl | rfl | rfl | rfl | rfl | rfl | rfl <;> simp [modeAccepted] at hmode
    · exact ⟨.h2s, rfl, hmode⟩
    · exact ⟨.s2h, rfl, hmode⟩
    · exact ⟨.scrseq, rfl, hmode⟩
    · exact hmode.elim (fun h => ⟨.scrHard, rfl, h⟩) (fun h => ⟨.scrSoft, rfl, h⟩)
    · exact ⟨.dil, rfl, hmode⟩
    · exact ⟨.dpn mode, rfl, rfl⟩
    · exact hmode.elim (fun h => ⟨.vitZero, rfl, h⟩) (fun h => ⟨.vitMin, rfl, h⟩)
    · exact ⟨.crc16, rfl, hmode⟩
    · exact ⟨.crcchk, rfl, hmode⟩
    · exact ⟨.unp, rfl, hmode⟩
  · rintro ⟨i, rfl, rfl⟩
    cases i <;> simp [opcodes, opcOf, modeOf, modeAccepted, Laws.tableRow]

/-- A word is legal exactly when it decodes (R103, R106). -/
theorem illegalWord_iff (w : Word) : illegalWord w ↔ ¬∃ i, decode w = .ok i := by
  have hlegal : (∃ i, decode w = .ok i) ↔
      rsvField w = 0 ∧ opcField w ∈ opcodes ∧ modeAccepted (opcField w) (modeField w) = true := by
    simp only [decode_eq_ok_iff, exists_and_left, accepted_iff_exists_command]
  rw [hlegal, illegalWord, ne_eq, shift_12_eq_zero_iff, and_255_toNat, shift_and_15_toNat]
  simp only [not_and_or, Bool.not_eq_true]

end Sys2Proof

/-! # The block's turn on the pending word (R103, R106, R320) -/

namespace Sys2Proof.Machine

/-- The block's turn, where it can perform, performs the command the pending word decodes to (R103, R320). -/
theorem step_of_decode_ok {s : State} {i : Instr} (h : BlockPerforms s) (hdecode : decode s.pending = .ok i) :
    step s = exec i s.popTurn := by
  obtain ⟨hturn, hbusy, hstuck⟩ := h
  simp [step, hturn, takeTurn, blockTurn, hbusy, hstuck, hdecode]

/-- A pending word that does not decode is the error completion with code 1 (R106). -/
theorem step_of_decode_error {s : State} {e : DecodeError} (h : BlockPerforms s)
    (hdecode : decode s.pending = .error e) : step s = .next (s.popTurn.raiseErr .illegalCmd) := by
  obtain ⟨hturn, hbusy, hstuck⟩ := h
  simp [step, hturn, takeTurn, blockTurn, hbusy, hstuck, hdecode]

/-- Settles O4: the block performs the decoded word at the state without its turn, another schedule and no more. -/
theorem stepRunsThePendingCommand : Obligations.StepRunsThePendingCommand := by
  unfold Obligations.StepRunsThePendingCommand
  exact fun s i h hdecode => ⟨step_of_decode_ok h hdecode, rfl⟩

/-- Settles O2: illegalWord_iff, and the block's turn on a word that does not decode. -/
theorem illegalWordsCompleteWithError : Obligations.IllegalWordsCompleteWithError := by
  unfold Obligations.IllegalWordsCompleteWithError
  refine ⟨illegalWord_iff, fun s h hillegal => ?_⟩
  cases hdecode : decode s.pending with
  | ok i => exact absurd ⟨i, hdecode⟩ ((illegalWord_iff _).mp hillegal)
  | error e => exact ⟨_, step_of_decode_error h hdecode, raiseErr_failsWith _ _⟩

end Sys2Proof.Machine

/-! # RUN and WAIT (R113, R114)
An idle host does one operation of its program a step; RUN's are its operand writes, by induction over the argument
registers they name, and the CMD write that starts its command. -/

namespace Sys2Proof.Machine

/-- A WR at the head of an idle host's program is done in one step (R113). -/
theorem step_writeOp_idle {s : State} {r : Reg} {w : Word} {rest : List HostOp} (hsched : s.schedule = [])
    (hidle : s.status.busy = false) (hprog : s.hostProgram = writeOp s.cfg r w :: rest) :
    step s = .next (writeReg { s with hostProgram := rest } r w) := by
  have hdoes : HostDoes s (writeOp s.cfg r w) := by simp [HostDoes, nextTurn, hsched, hidle, hprog]
  have hpopped : s.popTurn.popHost = { s with hostProgram := rest } := by
    simp [State.popTurn, State.popHost, hsched, hprog]
  rw [step_writeOp hdoes, hpopped, hostStore_reg (s := { s with hostProgram := rest }) w (.inl hidle)]

/-- The argument registers after the words are written to the registers listed, in order (R114). -/
def ArgFile.setAll (f : ArgFile) : List (Fin 8) → List Word → ArgFile
  | k :: ks, v :: vs => (f.set k v).setAll ks vs
  | _, _ => f

/-- Each register listed holds the word at its place, where there is one; every other is as before. -/
theorem ArgFile.get_setAll {ks : List (Fin 8)} {vs : List Word} (f : ArgFile) (k : Fin 8) (hks : ks.Nodup)
    (hlen : vs.length ≤ ks.length) : (f.setAll ks vs).get k = vs.getD (ks.idxOf k) (f.get k) := by
  induction ks generalizing f vs with
  | nil =>
    rw [List.length_eq_zero_iff.mp (Nat.le_zero.mp hlen)]
    rfl
  | cons j ks ih =>
    cases vs with
    | nil => rfl
    | cons v vs =>
      obtain ⟨hj, hks⟩ := List.nodup_cons.mp hks
      have hshort : vs.length ≤ ks.length := Nat.le_of_succ_le_succ hlen
      rw [ArgFile.setAll, ih _ hks hshort]
      by_cases hk : k = j
      · subst hk
        simp [List.idxOf_of_notMem hj, List.getElem?_eq_none hshort]
      · rw [ArgFile.get_set_other f v hk, List.idxOf_cons_ne _ (Ne.symm hk), List.getD_cons_succ]

/-- RUN's operand writes take one step each and leave only the argument registers changed. -/
theorem run_writeArgsOps {s : State} {ks : List (Fin 8)} {vs : List Word} {rest : List HostOp} (k : Nat)
    (hsched : s.schedule = []) (hidle : s.status.busy = false) (hlen : vs.length ≤ ks.length)
    (hprog : s.hostProgram = writeArgsOps s.cfg ks vs ++ rest) :
    Sys2Proof.core.run (vs.length + k) s =
      Sys2Proof.core.run k { s with args := s.args.setAll ks vs, hostProgram := rest } := by
  induction vs generalizing s ks with
  | nil =>
    have hnone : writeArgsOps s.cfg ks [] = [] ∧ s.args.setAll ks [] = s.args := by cases ks <;> exact ⟨rfl, rfl⟩
    have hrest : s.hostProgram = rest := by rw [hprog, hnone.1, List.nil_append]
    rw [hnone.2, ← hrest, List.length_nil, Nat.zero_add]
  | cons v vs ih =>
    cases ks with
    | nil => simp at hlen
    | cons j ks =>
      have hstep := step_writeOp_idle hsched hidle hprog
      rw [List.length_cons, Nat.add_right_comm, run_succ_of_step hstep]
      exact ih hsched hidle (Nat.le_of_succ_le_succ hlen) rfl

/-- RUN's registers stand at their own numbers. -/
theorem idxOf_argNumbers (k : Fin 8) : ([0, 1, 2, 3, 4, 5, 6, 7] : List (Fin 8)).idxOf k = k.val := by
  fin_cases k <;> rfl

/-- WAIT reads STATUS, and leaves the program only where BUSY reads 0 (R114). -/
theorem step_wait {s : State} (h : HostDoes s .wait) : step s = .next { s.popTurn with
    hostData := some (readReg s .status)
    hostProgram := if s.status.busy then s.hostProgram else s.hostProgram.tail } := by
  rw [step_of_host h.1, hostTurn, hostProgram_of_hostDoes h]
  cases hb : s.status.busy with
  | true =>
    simp [hb, hostLoad_reg (r := .status) (.inr rfl)]
    rfl
  | false =>
    simp [hb, hostLoad_reg (r := .status) (.inr rfl)]
    rfl

/-- Settles O38: RUN's operand writes, then the step of its CMD write; and WAIT's step. -/
theorem runLineStartsItsCommand : Obligations.RunLineStartsItsCommand := by
  unfold Obligations.RunLineStartsItsCommand
  refine ⟨fun s i vs rest hsched hidle hlen hprog => ?_, fun s h => step_wait h⟩
  have hprog : s.hostProgram = writeArgsOps s.cfg [0, 1, 2, 3, 4, 5, 6, 7] vs
      ++ writeOp s.cfg .cmd (encode i) :: .wait :: rest := by
    rw [hprog, expandLine, List.append_assoc]
    rfl
  have hargs := run_writeArgsOps 1 hsched hidle hlen hprog
  have hcmd := step_writeOp_idle
    (s := { s with
      args := s.args.setAll [0, 1, 2, 3, 4, 5, 6, 7] vs
      hostProgram := writeOp s.cfg .cmd (encode i) :: .wait :: rest })
    hsched hidle rfl
  have hrun := hargs.trans (run_succ_of_step hcmd 0)
  refine ⟨_, hrun, rfl, fun k => ?_⟩
  rw [← idxOf_argNumbers k]
  exact ArgFile.get_setAll s.args k (by decide) hlen

end Sys2Proof.Machine

/-! # UNP's schema by index (R111, R112, R280, R281, R288)
The list of fields that schemaOf reads is, descriptor by descriptor, what the descriptor bytes say at their offsets. -/

namespace Sys2Proof.Machine

/-- The value kind a legal KIND names (R112). -/
def kindOf (k : Byte) : FieldKind := if k = 0 then .bitArray else if k = 1 then .byteArray else .uint

/-- The field that descriptor f describes, from its bytes (R112). -/
def descField (desc : List Byte) (f : Nat) : Field :=
  { len := descLen desc f, kind := kindOf (descKind desc f), isConst := descConst desc f, defAddr := descDef desc f }

/-- The schema of the first count descriptors, in order (R111). -/
def descFields (desc : List Byte) (count : Nat) : List Field := (List.range count).map (descField desc)

theorem fieldKind_of_gt {k : Byte} (h : 2 < k.toNat) : fieldKind k = none := by
  have h0 : k ≠ 0 := by rintro rfl; simp at h
  have h1 : k ≠ 1 := by rintro rfl; simp at h
  have h2 : k ≠ 2 := by rintro rfl; simp at h
  rw [fieldKind, if_neg h0, if_neg h1, if_neg h2]

/-- The KINDs R112 admits. -/
theorem kind_cases {k : Byte} (h : ¬2 < k.toNat) : k = 0 ∨ k = 1 ∨ k = 2 := by
  bv_omega

theorem fieldKind_of_le {k : Byte} (h : ¬2 < k.toNat) : fieldKind k = some (kindOf k) := by
  rcases kind_cases h with rfl | rfl | rfl <;> rfl

theorem kindOf_eq_uint_iff {k : Byte} (h : ¬2 < k.toNat) : kindOf k = .uint ↔ k = 2 := by
  rcases kind_cases h with rfl | rfl | rfl <;> decide

/-- Past the first descriptor, descriptor f + 1 is descriptor f of the rest. -/
theorem getD_drop_descriptor (desc : List Byte) (f k : Nat) :
    (desc.drop 8).getD (8 * f + k) 0 = desc.getD (8 * (f + 1) + k) 0 := by
  rw [List.getD_eq_getElem?_getD, List.getD_eq_getElem?_getD, List.getElem?_drop]
  congr 2
  omega

theorem descField_drop (desc : List Byte) (f : Nat) : descField (desc.drop 8) f = descField desc (f + 1) := by
  have h0 := getD_drop_descriptor desc f 0
  rw [Nat.add_zero, Nat.add_zero] at h0
  simp only [descField, descLen, descKind, descConst, descFlags, descDef, getD_drop_descriptor, h0]

theorem descBad_drop (desc : List Byte) (f : Nat) : descBad (desc.drop 8) f ↔ descBad desc (f + 1) := by
  simp only [descBad, descKind, descFlags, getD_drop_descriptor]

theorem descFields_succ (desc : List Byte) (count : Nat) :
    descFields desc (count + 1) = descField desc 0 :: descFields (desc.drop 8) count := by
  simp [descFields, List.range_succ_eq_map, descField_drop]

/-- The field of the first descriptor, none where it is bad (R112, R288). -/
theorem fieldOf_first (d0 d1 d2 d3 d4 d5 d6 d7 : Byte) (rest : List Byte) :
    let desc := d0 :: d1 :: d2 :: d3 :: d4 :: d5 :: d6 :: d7 :: rest
    fieldOf [d0, d1] d2 d3 [d4, d5, d6, d7] = if descBad desc 0 then none else some (descField desc 0) := by
  intro desc
  have hbad : descBad desc 0 ↔ 2 < d2.toNat ∨ d3 >>> 1 ≠ 0 := Iff.rfl
  by_cases hkind : 2 < d2.toNat
  · rw [fieldOf, fieldKind_of_gt hkind, if_pos (hbad.mpr (.inl hkind))]
  rw [fieldOf, fieldKind_of_le hkind]
  by_cases hflags : d3 >>> 1 ≠ 0
  · rw [if_pos (hbad.mpr (.inr hflags))]
    exact if_pos hflags
  · have hlen : littleEndian [d0, d1] = descLen desc 0 := rfl
    have hdef : littleEndian [d4, d5, d6, d7] = descDef desc 0 := by
      simp [littleEndian, descDef, desc]
      omega
    rw [if_neg (hbad.not.mpr (not_or.mpr ⟨hkind, hflags⟩)), hlen, hdef]
    exact if_neg hflags

/-- One descriptor read: none where it is bad, else its field before those of the rest (R112, R288). -/
theorem schemaOf_of_descriptor {desc : List Byte} (h : 8 ≤ desc.length) :
    schemaOf desc = if descBad desc 0 then none else (schemaOf (desc.drop 8)).map (descField desc 0 :: ·) := by
  match desc, h with
  | d0 :: d1 :: d2 :: d3 :: d4 :: d5 :: d6 :: d7 :: rest, _ =>
    rw [schemaOf, fieldOf_first d0 d1 d2 d3 d4 d5 d6 d7 rest]
    by_cases hbad : descBad (d0 :: d1 :: d2 :: d3 :: d4 :: d5 :: d6 :: d7 :: rest) 0
    · rw [if_pos hbad, if_pos hbad]
    · rw [if_neg hbad, if_neg hbad]
      cases hrest : schemaOf rest <;> simp [hrest]

/-- Legal descriptors are read as the fields they describe. -/
theorem schemaOf_of_legal {desc : List Byte} {count : Nat} (hlen : desc.length = 8 * count)
    (hlegal : ∀ f, f < count → ¬descBad desc f) : schemaOf desc = some (descFields desc count) := by
  induction count generalizing desc with
  | zero =>
    rw [List.length_eq_zero_iff.mp hlen]
    rfl
  | succ count ih =>
    have hrest : schemaOf (desc.drop 8) = some (descFields (desc.drop 8) count) :=
      ih (by rw [List.length_drop]; omega)
        (fun f hf => (descBad_drop desc f).not.mpr (hlegal (f + 1) (Nat.succ_lt_succ hf)))
    rw [schemaOf_of_descriptor (by omega), if_neg (hlegal 0 count.succ_pos), hrest, descFields_succ]
    rfl

/-- A bad descriptor anywhere leaves no schema (R288). -/
theorem schemaOf_of_bad {desc : List Byte} {count f : Nat} (hlen : desc.length = 8 * count) (hf : f < count)
    (hbad : descBad desc f) : schemaOf desc = none := by
  induction count generalizing desc f with
  | zero => exact absurd hf f.not_lt_zero
  | succ count ih =>
    rw [schemaOf_of_descriptor (by omega)]
    cases f with
    | zero => exact if_pos hbad
    | succ f =>
      have hrest : schemaOf (desc.drop 8) = none :=
        ih (by rw [List.length_drop]; omega) (Nat.lt_of_succ_lt_succ hf) ((descBad_drop desc f).mpr hbad)
      rw [hrest, Option.map_none, ite_self]

@[simp] theorem descField_size (desc : List Byte) (f : Nat) : (descField desc f).size = valueSize desc f := by
  simp only [Field.size, descField, kindOf, valueSize]
  by_cases h0 : descKind desc f = 0
  · simp only [if_pos h0]
  by_cases h1 : descKind desc f = 1
  · simp only [if_neg h0, if_pos h1]
  · simp only [if_neg h0, if_neg h1]

theorem totalBits_descFields (desc : List Byte) (count : Nat) :
    totalBits (descFields desc count) = bitOffset desc count := by
  rw [totalBits, descFields, List.map_map]
  rfl

theorem totalSize_descFields (desc : List Byte) (count : Nat) :
    totalSize (descFields desc count) = valueOffset desc count := by
  rw [totalSize, descFields, List.map_map, valueOffset]
  exact congrArg List.sum (List.map_congr_left fun f _ => descField_size desc f)

/-- In a legal schema no field is too wide exactly when every integer has at most 64 bits (R285). -/
theorem not_any_tooWide_descFields {desc : List Byte} {count : Nat} (hlegal : ∀ f, f < count → ¬descBad desc f) :
    ¬(descFields desc count).any Field.tooWide = true ↔
      ∀ f, f < count → descKind desc f = 2 → descLen desc f ≤ 64 := by
  have hnarrow (f : Nat) (hf : f < count) :
      ¬(descField desc f).tooWide = true ↔ (descKind desc f = 2 → descLen desc f ≤ 64) := by
    have hkind := kindOf_eq_uint_iff (not_or.mp (hlegal f hf)).1
    rw [Field.tooWide, Bool.and_eq_true, beq_iff_eq, decide_eq_true_eq, not_and, not_lt]
    exact imp_congr_left hkind
  simp only [descFields, List.any_map, List.any_eq_true, List.mem_range, Function.comp_apply, not_exists, not_and]
  exact forall_congr' fun f => forall_congr' (hnarrow f)

/-! The constant fields (R287, R288). -/

/-- Every constant field's default region satisfies P. -/
def EveryConstant (fs : List Field) (P : Nat → Nat → Prop) : Prop :=
  ∀ f ∈ fs, f.isConst = true → P f.defAddr f.size

theorem everyConstant_descFields {desc : List Byte} {count : Nat} {P : Nat → Nat → Prop} :
    EveryConstant (descFields desc count) P ↔ ForConstants desc count P := by
  simp only [EveryConstant, descFields, List.forall_mem_map, List.mem_range, descField_size]
  rfl

theorem anyConstant_eq_false_iff {fs : List Field} {p : Nat → Nat → Bool} :
    anyConstant fs p = false ↔ EveryConstant fs fun a k => p a k = false := by
  simp [anyConstant, EveryConstant]

/-- The defaults can be read exactly when none of their bytes is unwritten. -/
theorem readDefaults_eq_none_iff {s : State} {fs : List Field} :
    readDefaults s.dmem fs = none ↔ ¬EveryConstant fs fun a k => ¬HasUnwritten s a k := by
  induction fs with
  | nil => simp [readDefaults, EveryConstant]
  | cons f fs ih =>
    have hcons : (EveryConstant (f :: fs) fun a k => ¬HasUnwritten s a k) ↔
        (f.isConst = true → ¬HasUnwritten s f.defAddr f.size) ∧ EveryConstant fs fun a k => ¬HasUnwritten s a k :=
      List.forall_mem_cons
    rw [hcons, not_and_or, ← ih, ← readRange_iff_unwritten, readDefaults]
    cases readDefaults s.dmem fs with
    | none => simp
    | some ds =>
      cases f.isConst with
      | false => simp
      | true => cases s.dmem.readRange f.defAddr f.size <;> simp

end Sys2Proof.Machine

/-! # UNP's checks (R280, R285, R288)
What each check of R288 answers, one lemma a check, each with the outcomes of the checks before it; then the same over
the descriptor bytes. -/

namespace Sys2Proof.Machine

theorem inRange_eq_false_iff {s : State} {a n : Nat} : s.inRange a n = false ↔ ¬Fits s a n := by
  rw [← inRange_iff, Bool.not_eq_true]

theorem overlaps_eq_false_iff {a1 n1 a2 n2 : Nat} : overlaps a1 n1 a2 n2 = false ↔ ¬SharesByte a1 n1 a2 n2 := by
  rw [← overlaps_iff, Bool.not_eq_true]

/-- UNP's regions are in range: its input, its output and the defaults (R288). -/
def UnpRegionsFit (fs : List Field) (s : State) : Prop :=
  Fits s (s.argNat 0) (s.argNat 1) ∧ Fits s (s.argNat 4) (totalSize fs) ∧ EveryConstant fs (Fits s)

/-- UNP's output shares no byte with what it reads (R288). -/
def UnpRegionsApart (fs : List Field) (s : State) : Prop :=
  ¬SharesByte (s.argNat 4) (totalSize fs) (s.argNat 0) (s.argNat 1) ∧
  ¬SharesByte (s.argNat 4) (totalSize fs) (s.argNat 2) (8 * s.argNat 3) ∧
  EveryConstant fs fun a k => ¬SharesByte (s.argNat 4) (totalSize fs) a k

theorem unpRegionsFit_iff {fs : List Field} {s : State} :
    ¬(!(s.inRange (s.argNat 0) (s.argNat 1) && s.inRange (s.argNat 4) (totalSize fs))
      || anyConstant fs fun a k => !s.inRange a k) = true ↔ UnpRegionsFit fs s := by
  simp only [UnpRegionsFit, Bool.not_eq_true, Bool.or_eq_false_iff, Bool.not_eq_false', Bool.and_eq_true, inRange_iff,
    anyConstant_eq_false_iff, and_assoc]

theorem unpRegionsApart_iff {fs : List Field} {s : State} :
    ¬(overlaps (s.argNat 4) (totalSize fs) (s.argNat 0) (s.argNat 1)
      || overlaps (s.argNat 4) (totalSize fs) (s.argNat 2) (descSize * s.argNat 3)
      || anyConstant fs fun a k => overlaps (s.argNat 4) (totalSize fs) a k) = true ↔ UnpRegionsApart fs s := by
  simp only [UnpRegionsApart, Bool.not_eq_true, Bool.or_eq_false_iff, overlaps_eq_false_iff,
    anyConstant_eq_false_iff, and_assoc]
  rfl

/-! The checks over a schema already read. -/

section Checks

variable {fs : List Field} {s : State}

theorem unpackFields_of_tooWide (hwide : fs.any Field.tooWide = true) :
    unpackFields fs s = .next (s.raiseErr .unsupported) :=
  if_pos hwide

theorem unpackFields_of_length (hwide : ¬fs.any Field.tooWide = true) (htotal : totalBits fs ≠ s.argNat 1) :
    unpackFields fs s = .next (s.raiseErr .lengthMismatch) :=
  (if_neg hwide).trans (if_pos htotal)

theorem unpackFields_of_unfit (hwide : ¬fs.any Field.tooWide = true) (htotal : totalBits fs = s.argNat 1)
    (hfit : ¬UnpRegionsFit fs s) : unpackFields fs s = .next (s.raiseErr .address) :=
  (if_neg hwide).trans <| (if_neg (not_not.mpr htotal)).trans <| if_pos (not_not.mp (unpRegionsFit_iff.not.mpr hfit))

theorem unpackFields_of_shared (hwide : ¬fs.any Field.tooWide = true) (htotal : totalBits fs = s.argNat 1)
    (hfit : UnpRegionsFit fs s) (hapart : ¬UnpRegionsApart fs s) :
    unpackFields fs s = .next (s.raiseErr .overlap) :=
  (if_neg hwide).trans <| (if_neg (not_not.mpr htotal)).trans <| (if_neg (unpRegionsFit_iff.mpr hfit)).trans <|
    if_pos (not_not.mp (unpRegionsApart_iff.not.mpr hapart))

/-- The schema meets every check of R288 before the reads. -/
structure UnpPasses (fs : List Field) (s : State) : Prop where
  narrow : ¬fs.any Field.tooWide = true
  total : totalBits fs = s.argNat 1
  fit : UnpRegionsFit fs s
  apart : UnpRegionsApart fs s

/-- Past its checks, UNP reads its input and the defaults; an unwritten byte of either is MF_UNINIT (R76, R288). -/
theorem unpackFields_of_unread (h : UnpPasses fs s)
    (hread : s.dmem.readRange (s.argNat 0) (s.argNat 1) = none ∨ readDefaults s.dmem fs = none) :
    unpackFields fs s = .next s.meetUninit := by
  obtain ⟨hwide, htotal, hfit, hapart⟩ := h
  rw [← unpRegionsFit_iff] at hfit
  rw [← unpRegionsApart_iff] at hapart
  simp only [unpackFields, if_neg hwide, if_neg (not_not.mpr htotal), if_neg hfit, if_neg hapart]
  rcases hread with hbits | hdefaults
  · rw [hbits]
  · rw [hdefaults]
    cases s.dmem.readRange (s.argNat 0) (s.argNat 1) <;> rfl

/-- Where both are read, an input bit that is neither 0 nor 1 ends it (R288). -/
theorem unpackFields_of_notHard {bits : List Byte} {defaults : List (Option (List Byte))} (h : UnpPasses fs s)
    (hbits : s.dmem.readRange (s.argNat 0) (s.argNat 1) = some bits)
    (hdefaults : readDefaults s.dmem fs = some defaults) (hhard : ¬HardBits bits) : unpackFields fs s = .next (s.raiseErr .invalidArgument) := by
  obtain ⟨hwide, htotal, hfit, hapart⟩ := h
  rw [← unpRegionsFit_iff] at hfit
  rw [← unpRegionsApart_iff] at hapart
  rw [← allHard_iff, Bool.not_eq_true] at hhard
  simp only [unpackFields, if_neg hwide, if_neg (not_not.mpr htotal), if_neg hfit, if_neg hapart, hbits,
    hdefaults, hhard]
  rfl

end Checks

/-! Reading the schema (R111, R288). -/

section Schema

variable {s : State} {desc : List Byte}

theorem execUnp_of_unfit (hfit : ¬Fits s (s.argNat 2) (8 * s.argNat 3)) : execUnp s = .next (s.raiseErr .address) := by
  rw [← inRange_eq_false_iff, ← Bool.not_eq_true'] at hfit
  exact if_pos hfit

theorem execUnp_of_unwritten (hfit : Fits s (s.argNat 2) (8 * s.argNat 3))
    (hread : HasUnwritten s (s.argNat 2) (8 * s.argNat 3)) : execUnp s = .next s.meetUninit := by
  rw [← inRange_iff] at hfit
  rw [← readRange_iff_unwritten] at hread
  simp [execUnp, descSize, hfit, hread]

theorem execUnp_of_bad (hfit : Fits s (s.argNat 2) (8 * s.argNat 3))
    (hread : s.dmem.readRange (s.argNat 2) (8 * s.argNat 3) = some desc) (hschema : schemaOf desc = none) :
    execUnp s = .next (s.raiseErr .invalidArgument) := by
  rw [← inRange_iff] at hfit
  simp [execUnp, descSize, hfit, hread, hschema]

theorem execUnp_of_schema {fs : List Field} (hfit : Fits s (s.argNat 2) (8 * s.argNat 3))
    (hread : s.dmem.readRange (s.argNat 2) (8 * s.argNat 3) = some desc) (hschema : schemaOf desc = some fs) :
    execUnp s = unpackFields fs s := by
  rw [← inRange_iff] at hfit
  simp [execUnp, descSize, hfit, hread, hschema]

end Schema

/-- Settles O16: the descriptors are the schema (schemaOf_of_legal), and each check of R288 has its lemma. -/
theorem unpChecks : Obligations.UnpChecks := by
  unfold Obligations.UnpChecks
  intro s src n sch count dst
  refine ⟨fun hfit => ⟨_, execUnp_of_unfit hfit, raiseErr_failsWith _ _⟩,
    fun hfit hread => ⟨_, execUnp_of_unwritten hfit hread, meetUninit_meets _⟩, ?_⟩
  intro desc hlen hholds hfit w legal narrow total fits apart
  have hread : s.dmem.readRange sch (8 * count) = some desc := readRange_iff_holds.mpr ⟨hlen, hholds⟩
  have hexec (hlegal : legal) : exec .unp s = unpackFields (descFields desc count) s :=
    execUnp_of_schema hfit hread (schemaOf_of_legal hlen hlegal)
  have hnarrow (hlegal : legal) : ¬(descFields desc count).any Field.tooWide = true ↔ narrow :=
    not_any_tooWide_descFields hlegal
  have htotal : totalBits (descFields desc count) = n ↔ total := by rw [totalBits_descFields]
  have hfits : UnpRegionsFit (descFields desc count) s ↔ fits := by
    rw [UnpRegionsFit, totalSize_descFields, everyConstant_descFields]
  have hapart : UnpRegionsApart (descFields desc count) s ↔ apart := by
    rw [UnpRegionsApart, totalSize_descFields, everyConstant_descFields]
  have hpasses (hl : legal) (hn : narrow) (ht : total) (hf : fits) (ha : apart) :
      UnpPasses (descFields desc count) s :=
    ⟨(hnarrow hl).mpr hn, htotal.mpr ht, hfits.mpr hf, hapart.mpr ha⟩
  have hdefaults : readDefaults s.dmem (descFields desc count) = none ↔
      ¬ForConstants desc count fun a k => ¬HasUnwritten s a k := by
    rw [readDefaults_eq_none_iff, everyConstant_descFields]
  refine ⟨fun hbad => ?_, fun hl hn => ?_, fun hl hn ht => ?_, fun hl hn ht hf => ?_, fun hl hn ht hf ha => ?_,
    fun hl hn ht hf ha hunread => ?_, fun bits hbitsLen hbits hhard hl hn ht hf ha hwritten => ?_⟩
  · obtain ⟨f, hf, hbad⟩ : ∃ f, f < count ∧ descBad desc f := by
      simpa only [legal, not_forall, not_not, exists_prop] using hbad
    exact ⟨_, execUnp_of_bad hfit hread (schemaOf_of_bad hlen hf hbad), raiseErr_failsWith _ _⟩
  · exact ⟨_, (hexec hl).trans (unpackFields_of_tooWide (not_not.mp ((hnarrow hl).not.mpr hn))), raiseErr_failsWith _ _⟩
  · exact ⟨_, (hexec hl).trans (unpackFields_of_length ((hnarrow hl).mpr hn) (htotal.not.mpr ht)),
      raiseErr_failsWith _ _⟩
  · exact ⟨_, (hexec hl).trans (unpackFields_of_unfit ((hnarrow hl).mpr hn) (htotal.mpr ht)
      (hfits.not.mpr hf)), raiseErr_failsWith _ _⟩
  · exact ⟨_, (hexec hl).trans (unpackFields_of_shared ((hnarrow hl).mpr hn) (htotal.mpr ht)
      (hfits.mpr hf) (hapart.not.mpr ha)), raiseErr_failsWith _ _⟩
  · have hnone := hunread.imp readRange_iff_unwritten.mpr hdefaults.mpr
    exact ⟨_, (hexec hl).trans (unpackFields_of_unread (hpasses hl hn ht hf ha) hnone), meetUninit_meets _⟩
  · obtain ⟨defaults, hread⟩ := Option.ne_none_iff_exists'.mp (hdefaults.not.mpr (not_not.mpr hwritten))
    have hinput := readRange_iff_holds.mpr ⟨hbitsLen, hbits⟩
    exact ⟨_, (hexec hl).trans (unpackFields_of_notHard (hpasses hl hn ht hf ha) hinput hread hhard),
      raiseErr_failsWith _ _⟩

end Sys2Proof.Machine

/-! # Commands with one input and one output region (R74, R75, R76)
The checks and the read that these commands share, up to what each does with the bytes it has read. -/

namespace Sys2Proof.Machine

/-- The input (src, n) and the output (dst, m) are checked and the input is read; `finish` is the rest of the command. -/
def checkThenRead (s : State) (src n dst m : Nat) (finish : List Byte → Host.Outcome State Fault Refusal) :
    Host.Outcome State Fault Refusal :=
  if !(s.inRange src n && s.inRange dst m) then .next (s.raiseErr .address)
  else if overlaps dst m src n then .next (s.raiseErr .overlap)
  else match s.dmem.readRange src n with
    | none => .next s.meetUninit
    | some b => finish b

section CheckThenRead

variable {s : State} {src n dst m : Nat} {finish : List Byte → Host.Outcome State Fault Refusal}

theorem checkThenRead_of_unfit (hfit : ¬(Fits s src n ∧ Fits s dst m)) :
    checkThenRead s src n dst m finish = .next (s.raiseErr .address) := by
  rw [← inRange_iff, ← inRange_iff, ← Bool.and_eq_true, Bool.not_eq_true, ← Bool.not_eq_true'] at hfit
  exact if_pos hfit

/-- Past the range check, what is left is the overlap check and the read. -/
theorem checkThenRead_of_fit (hfit : Fits s src n ∧ Fits s dst m) :
    checkThenRead s src n dst m finish =
      if overlaps dst m src n then .next (s.raiseErr .overlap)
      else (s.dmem.readRange src n).elim (.next s.meetUninit) finish := by
  have hrange : s.inRange src n = true ∧ s.inRange dst m = true := hfit.imp inRange_iff.mpr inRange_iff.mpr
  rw [checkThenRead, hrange.1, hrange.2]
  cases s.dmem.readRange src n <;> rfl

theorem checkThenRead_of_shared (hfit : Fits s src n ∧ Fits s dst m) (hshared : SharesByte dst m src n) :
    checkThenRead s src n dst m finish = .next (s.raiseErr .overlap) := by
  rw [checkThenRead_of_fit hfit, if_pos (overlaps_iff.mpr hshared)]

theorem checkThenRead_of_unwritten (hfit : Fits s src n ∧ Fits s dst m) (hapart : ¬SharesByte dst m src n)
    (hread : HasUnwritten s src n) : checkThenRead s src n dst m finish = .next s.meetUninit := by
  rw [checkThenRead_of_fit hfit, if_neg (overlaps_iff.not.mpr hapart), readRange_iff_unwritten.mpr hread,
    Option.elim_none]

theorem checkThenRead_of_holds {b : List Byte} (hfit : Fits s src n ∧ Fits s dst m)
    (hapart : ¬SharesByte dst m src n) (hlen : b.length = n) (hholds : Holds s src b) :
    checkThenRead s src n dst m finish = finish b := by
  rw [checkThenRead_of_fit hfit, if_neg (overlaps_iff.not.mpr hapart), readRange_iff_holds.mpr ⟨hlen, hholds⟩,
    Option.elim_some]

/-- How a command that starts with these checks ends where it does not get past the read. -/
theorem checkThenRead_ends {i : Instr} (hexec : exec i s = checkThenRead s src n dst m finish) :
    (¬(Fits s src n ∧ Fits s dst m) → Ends i s (FailsWith s · 6)) ∧
    (Fits s src n ∧ Fits s dst m → ¬¬SharesByte dst m src n → Ends i s (FailsWith s · 7)) ∧
    (Fits s src n ∧ Fits s dst m → ¬SharesByte dst m src n → HasUnwritten s src n → Ends i s (MeetsUninit s ·)) := by
  refine ⟨fun hfit => ?_, fun hfit hshared => ?_, fun hfit hapart hread => ?_⟩
  · exact ⟨_, hexec.trans (checkThenRead_of_unfit hfit), raiseErr_failsWith _ _⟩
  · exact ⟨_, hexec.trans (checkThenRead_of_shared hfit (not_not.mp hshared)), raiseErr_failsWith _ _⟩
  · exact ⟨_, hexec.trans (checkThenRead_of_unwritten hfit hapart hread), meetUninit_meets _⟩

end CheckThenRead

/-- Only hard elements get past the value check of R12; any other input ends with ERR_INVALID_ARGUMENT. -/
def requireHard (s : State) (b : List Byte) (success : State) : Host.Outcome State Fault Refusal :=
  if !allHard b then .next (s.raiseErr .invalidArgument) else .next success

theorem requireHard_of_hard {s success : State} {b : List Byte} (h : HardBits b) :
    requireHard s b success = .next success := by
  rw [requireHard, allHard_iff.mpr h]
  rfl

theorem requireHard_of_not_hard {s success : State} {b : List Byte} (h : ¬HardBits b) :
    requireHard s b success = .next (s.raiseErr .invalidArgument) := by
  rw [← allHard_iff, Bool.not_eq_true] at h
  rw [requireHard, h]
  rfl

end Sys2Proof.Machine

/-! # H2S and S2H (R130, R131, R132, R157) -/

namespace Sys2Proof.Machine

/-! The element rules. -/

/-- The threshold of R131 from below. -/
theorem softToHard_eq_ite_lt (v : Byte) : softToHard v = if v.toNat < 0x80 then 0 else 1 := by
  simp only [softToHard, ← not_lt, ite_not]

theorem softToHard_hardToSoft {v : Byte} (h : v = 0 ∨ v = 1) : softToHard (hardToSoft v) = v := by
  rcases h with rfl | rfl <;> rfl

/-- A scrambling bit 1 complements a soft element (R155, R157). -/
theorem scrambleSoft_one (v : Byte) : scrambleSoft v 1 = ~~~v :=
  BitVec.xor_allOnes

/-! The commands. -/

theorem exec_h2s (s : State) : exec .h2s s = checkThenRead s (s.argNat 0) (s.argNat 1) (s.argNat 2) (s.argNat 1)
    fun b => requireHard s b (s.complete (s.argNat 2) (b.map hardToSoft) (s.argNat 1) 0) :=
  rfl

theorem exec_s2h (s : State) : exec .s2h s = checkThenRead s (s.argNat 0) (s.argNat 1) (s.argNat 2) (s.argNat 1)
    fun b => .next (s.complete (s.argNat 2) (b.map softToHard) (s.argNat 1) 0) :=
  rfl

/-- Settles O6: the shared checks and read (checkThenRead_ends), then the value check on what was read. -/
theorem h2SRule : Obligations.H2SRule := by
  unfold Obligations.H2SRule
  intro s src n dst fits apart
  obtain ⟨haddress, hoverlap, huninit⟩ := checkThenRead_ends (exec_h2s s)
  refine ⟨haddress, hoverlap, huninit, fun b hlen hholds hfit hapart => ?_⟩
  have hread := (exec_h2s s).trans (checkThenRead_of_holds hfit hapart hlen hholds)
  constructor
  · intro hsoft
    exact ⟨_, hread.trans (requireHard_of_not_hard hsoft), raiseErr_failsWith _ _⟩
  · intro hhard
    exact ⟨_, hread.trans (requireHard_of_hard hhard), complete_succeeds _ _ _ _ _, complete_writesOnly _ _ _ _ _⟩

/-- Settles O7: the shared checks and read (checkThenRead_ends); whatever was read is decided, with no value check. -/
theorem s2HRule : Obligations.S2HRule := by
  unfold Obligations.S2HRule
  intro s src n dst fits apart
  obtain ⟨haddress, hoverlap, huninit⟩ := checkThenRead_ends (exec_s2h s)
  refine ⟨haddress, hoverlap, huninit, fun b hlen hholds hfit hapart => ?_⟩
  have hread := (exec_s2h s).trans (checkThenRead_of_holds hfit hapart hlen hholds)
  have hout : (b.map fun v => if v.toNat < 0x80 then 0 else 1) = b.map softToHard :=
    List.map_congr_left fun v _ => (softToHard_eq_ite_lt v).symm
  rw [hout]
  exact ⟨_, hread, complete_succeeds _ _ _ _ _, complete_writesOnly _ _ _ _ _⟩

/-- Settles O45: hard elements come back one by one, and soft scrambling is the complement, which is 255 - v. -/
theorem softBitLaws : Obligations.SoftBitLaws := by
  unfold Obligations.SoftBitLaws
  refine ⟨fun b hhard => ?_, fun v => ?_, rfl, rfl, rfl⟩
  · calc (b.map hardToSoft).map softToHard
        = b.map (softToHard ∘ hardToSoft) := List.map_map
      _ = b.map id := List.map_congr_left fun v hv => softToHard_hardToSoft (hhard v hv)
      _ = b := List.map_id b
  · rw [scrambleSoft_one, BitVec.toNat_not]

end Sys2Proof.Machine

/-! # The scrambling sequence (R151, R153)
Over the working buffer p, newest element first, as scrambleFrom keeps it: initial parts, hardness, the recurrence. -/

namespace Sys2Proof.Machine

/-- The XOR of hard elements is hard (R11, R12). -/
theorem hard_xor {a b : Byte} (ha : a = 0 ∨ a = 1) (hb : b = 0 ∨ b = 1) : a ^^^ b = 0 ∨ a ^^^ b = 1 := by
  rcases ha with rfl | rfl <;> rcases hb with rfl | rfl <;> decide

/-- An element of a hard list is hard, and so is the 0 read outside of it. -/
theorem hard_getD {bs : List Byte} (h : HardBits bs) (i : Nat) : bs.getD i 0 = 0 ∨ bs.getD i 0 = 1 := by
  rw [List.getD_eq_getElem?_getD]
  cases hi : bs[i]? with
  | none => exact .inl rfl
  | some b => exact h b (List.mem_of_getElem? hi)

/-- A mod-2 sum of elements of a hard list is hard, whatever the taps. -/
theorem hard_foldl_xor {history : List Byte} (h : HardBits history) (ts : List Nat) {acc : Byte}
    (hacc : acc = 0 ∨ acc = 1) :
    let sum := ts.foldl (fun acc t => acc ^^^ history.getD (t - 1) 0) acc
    sum = 0 ∨ sum = 1 := by
  induction ts generalizing acc with
  | nil => exact hacc
  | cons t ts ih => exact ih (hard_xor hacc (hard_getD h _))

theorem hard_nextScrambleBit {history : List Byte} (h : HardBits history) :
    nextScrambleBit history = 0 ∨ nextScrambleBit history = 1 :=
  hard_foldl_xor h taps (.inl rfl)

theorem hardBits_scrambleFrom {history : List Byte} (h : HardBits history) (n : Nat) :
    HardBits (scrambleFrom history n) := by
  induction n generalizing history with
  | zero => exact List.forall_mem_nil _
  | succ n ih =>
    have hnext := hard_nextScrambleBit h
    exact List.forall_mem_cons.mpr ⟨hnext, ih (List.forall_mem_cons.mpr ⟨hnext, h⟩)⟩

theorem hardBits_initialBuffer {cc : List Byte} (h : HardBits cc) : HardBits (initialBuffer cc) :=
  List.forall_mem_cons.mpr ⟨.inr rfl, List.forall_mem_cons.mpr ⟨.inr rfl, h⟩⟩

theorem hardBits_scrseq {cc : List Byte} (h : HardBits cc) (n : Nat) : HardBits (scrseq cc n) :=
  hardBits_scrambleFrom (fun b hb => hardBits_initialBuffer h b (List.mem_reverse.mp hb)) n

theorem scrambleFrom_take (history : List Byte) {m n : Nat} (h : m ≤ n) :
    (scrambleFrom history n).take m = scrambleFrom history m := by
  induction m generalizing history n with
  | zero => rfl
  | succ m ih =>
    obtain ⟨k, rfl⟩ := Nat.exists_eq_add_of_le' (Nat.zero_lt_of_lt h)
    rw [scrambleFrom, List.take_succ_cons, ih _ (Nat.le_of_succ_le_succ h), ← scrambleFrom]

/-- Settles O42: both laws hold of scrambleFrom, from any history. -/
theorem scrseqPrefixAndHard : Obligations.ScrseqPrefixAndHard := by
  unfold Obligations.ScrseqPrefixAndHard
  exact fun c n m => ⟨scrambleFrom_take _, fun hc => hardBits_scrseq hc n⟩

/-- Each element of p past the history is nextScrambleBit of the elements before it. -/
theorem scrambleFrom_getD (history : List Byte) (n : Nat) {k : Nat} (hlow : history.length ≤ k)
    (hhigh : k < history.length + n) :
    (history.reverse ++ scrambleFrom history n).getD k 0 =
      nextScrambleBit ((history.reverse ++ scrambleFrom history n).take k).reverse := by
  induction n generalizing history with
  | zero => omega
  | succ n ih =>
    rw [scrambleFrom]
    rcases hlow.eq_or_lt with rfl | hlater
    · simp
    · have hrest := ih (nextScrambleBit history :: history) hlater (by rw [List.length_cons]; omega)
      rwa [List.reverse_cons, List.append_assoc, List.singleton_append] at hrest

/-- Seen from place k, newest first, the element t places back is p[k - t]. -/
theorem getD_reverse_take {p : List Byte} {k t : Nat} (hk : k ≤ p.length) (ht : 0 < t) (htk : t ≤ k) :
    (p.take k).reverse.getD (t - 1) 0 = p.getD (k - t) 0 := by
  have hplace : k - 1 - (t - 1) = k - t := by omega
  have hback : t - 1 < (p.take k).length := by rw [List.length_take]; omega
  rw [List.getD_reverse _ hback, List.length_take_of_le hk, hplace, List.getD_eq_getElem?_getD,
    List.getElem?_take_of_lt (by omega), ← List.getD_eq_getElem?_getD]

/-- The recurrence of R151 over p, with the taps written out. -/
theorem scrseq_recurrence {cc : List Byte} (hcc : cc.length = 30) (n : Nat) :
    let p := fun k => (1 :: 1 :: cc ++ scrseq cc n).getD k 0
    ∀ k, 32 ≤ k → k < 32 + n →
      p k = p (k - 1) ^^^ p (k - 2) ^^^ p (k - 4) ^^^ p (k - 5) ^^^ p (k - 7) ^^^ p (k - 8) ^^^ p (k - 10)
        ^^^ p (k - 11) ^^^ p (k - 12) ^^^ p (k - 16) ^^^ p (k - 22) ^^^ p (k - 23) ^^^ p (k - 26) ^^^ p (k - 32) := by
  intro p k hlow hhigh
  have hbuffer : (initialBuffer cc).reverse.length = 32 := by simp [initialBuffer, hcc]
  have hlen : k ≤ (initialBuffer cc ++ scrseq cc n).length := by
    rw [List.length_append, scrseq_length, ← List.length_reverse, hbuffer]
    omega
  have hback {t : Nat} (ht : 0 < t) (htk : t ≤ 32) :=
    getD_reverse_take hlen ht (htk.trans hlow)
  have hzero (v : Byte) : 0 ^^^ v = v := BitVec.zero_xor
  have hnext := scrambleFrom_getD (initialBuffer cc).reverse n (hbuffer.trans_le hlow) (by rwa [hbuffer])
  rw [List.reverse_reverse] at hnext
  calc p k
      = nextScrambleBit ((initialBuffer cc ++ scrseq cc n).take k).reverse := hnext
    _ = _ := by
      simp (disch := decide) only [nextScrambleBit, taps, List.foldl_cons, List.foldl_nil, hback, hzero]
      rfl

end Sys2Proof.Machine

/-! # The register form of the sequence (R154)
Bit i of the 32-bit register is the element of p that is i places before the newest. -/

namespace Sys2Proof.Machine

/-- The register shows the 32 newest elements of p. -/
def RegisterShows (r : Word) (history : List Byte) : Prop :=
  ∀ i, i < 32 → history.getD i 0 = hardBit (r.getLsbD i)

theorem hardBit_xor (a b : Bool) : hardBit (a ^^ b) = hardBit a ^^^ hardBit b := by
  cases a <;> cases b <;> rfl

theorem hardBit_decide {b : Byte} (h : b = 0 ∨ b = 1) : hardBit (decide (b = 1)) = b := by
  rcases h with rfl | rfl <;> rfl

/-- The mask has the bits t - 1 of the taps t. -/
theorem filter_tapMask : (List.range 32).filter tapMask.getLsbD = taps.map (· - 1) := by decide

/-- The parity under the mask is the sum over the taps. -/
theorem parity_tapMask (r : Word) :
    parity (r &&& tapMask) = taps.foldl (fun p t => p ^^ r.getLsbD (t - 1)) false := by
  have hmask (p : Bool) (i : Nat) :
      (p ^^ (r &&& tapMask).getLsbD i) = if tapMask.getLsbD i then p ^^ r.getLsbD i else p := by
    rw [BitVec.getLsbD_and]
    cases tapMask.getLsbD i <;> simp
  calc parity (r &&& tapMask)
      = (List.range 32).foldl (fun p i => if tapMask.getLsbD i then p ^^ r.getLsbD i else p) false := by
        simp only [parity, hmask]
    _ = ((List.range 32).filter tapMask.getLsbD).foldl (fun p i => p ^^ r.getLsbD i) false :=
        List.foldl_filter.symm
    _ = _ := by rw [filter_tapMask, List.foldl_map]

/-- A sum over places that the register shows is the same sum over its bits. -/
theorem RegisterShows.foldl_xor {r : Word} {history : List Byte} (h : RegisterShows r history) {ts : List Nat}
    (hts : ∀ t ∈ ts, t - 1 < 32) (b : Bool) :
    ts.foldl (fun acc t => acc ^^^ history.getD (t - 1) 0) (hardBit b) =
      hardBit (ts.foldl (fun p t => p ^^ r.getLsbD (t - 1)) b) := by
  induction ts generalizing b with
  | nil => rfl
  | cons t ts ih =>
    obtain ⟨ht, hts⟩ := List.forall_mem_cons.mp hts
    rw [List.foldl_cons, List.foldl_cons, h _ ht, ← hardBit_xor, ih hts]

/-- The register's output is the next element of p. -/
theorem RegisterShows.output {r : Word} {history : List Byte} (h : RegisterShows r history) :
    nextScrambleBit history = hardBit (registerStep r).1 := by
  have hsum := h.foldl_xor (ts := taps) (by decide) false
  rwa [← parity_tapMask] at hsum

theorem registerStep_getLsbD_zero (r : Word) : (registerStep r).2.getLsbD 0 = (registerStep r).1 := by
  simp [registerStep, -BitVec.getLsbD_eq_getElem]

theorem registerStep_getLsbD_succ (r : Word) {i : Nat} (hi : i + 1 < 32) :
    (registerStep r).2.getLsbD (i + 1) = r.getLsbD i := by
  simp [registerStep, hi, -BitVec.getLsbD_eq_getElem]

/-- The next register shows p with the output as its newest element. -/
theorem RegisterShows.next {r : Word} {history : List Byte} (h : RegisterShows r history) :
    RegisterShows (registerStep r).2 (hardBit (registerStep r).1 :: history) := by
  intro i hi
  cases i with
  | zero => rw [List.getD_cons_zero, registerStep_getLsbD_zero]
  | succ i => rw [List.getD_cons_succ, registerStep_getLsbD_succ r hi, h i (Nat.lt_of_succ_lt hi)]

/-- From a register that shows the history, the two forms give the same elements. -/
theorem RegisterShows.registerOutputs_eq {r : Word} {history : List Byte} (h : RegisterShows r history) (n : Nat) :
    registerOutputs r n = scrambleFrom history n := by
  induction n generalizing r history with
  | zero => rfl
  | succ n ih => rw [registerOutputs, scrambleFrom, h.output, ih h.next]

/-! The start register. -/

/-- A bit of a disjunction of words is set where it is set in one of them. -/
theorem getLsbD_foldl_or (ks : List Nat) (f : Nat → Word) (a : Word) (i : Nat) :
    (ks.foldl (fun acc k => acc ||| f k) a).getLsbD i = (a.getLsbD i || ks.any fun k => (f k).getLsbD i) := by
  induction ks generalizing a with
  | nil => simp
  | cons k ks ih => simp [ih, Bool.or_assoc]

/-- A hard element as a word is its bit as a word. -/
theorem zeroExtend_of_hard {b : Byte} (h : b = 0 ∨ b = 1) : b.zeroExtend 32 = bitWord (decide (b = 1)) := by
  rcases h with rfl | rfl <;> rfl

/-- Bits 0 to 29 of the start register are the colour code's, the last lowest (R154). -/
theorem initialRegister_getLsbD {cc : List Byte} (h : HardBits cc) {i : Nat} (hi : i < 30) :
    (initialRegister cc).getLsbD i = decide (cc.getD (29 - i) 0 = 1) := by
  have htop : ∀ i < 30, (0xC0000000 : Word).getLsbD i = false := by decide
  have hshift (j : Nat) : ((cc.getD j 0).zeroExtend 32 <<< (29 - j)).getLsbD i =
      (decide (i = 29 - j) && decide (cc.getD j 0 = 1)) := by
    rw [zeroExtend_of_hard (hard_getD h j), bitWord_shift_getLsbD _ (by omega)]
  have hzero : (0 : Word).getLsbD i = false := BitVec.getLsbD_zero
  rw [initialRegister, BitVec.getLsbD_or, getLsbD_foldl_or, Bool.eq_iff_iff]
  simp only [htop i hi, hshift, hzero, Bool.false_or, List.any_eq_true, List.mem_range, Bool.and_eq_true,
    decide_eq_true_eq]
  constructor
  · rintro ⟨j, hj, rfl, hone⟩
    rwa [show 29 - (29 - j) = j by omega]
  · exact fun hone => ⟨29 - i, by omega, by omega, hone⟩

/-- Bits 30 and 31 of the start register are ones (R154). -/
theorem initialRegister_getLsbD_top (cc : List Byte) {i : Nat} (hlow : 30 ≤ i) (hhigh : i < 32) :
    (initialRegister cc).getLsbD i = true := by
  have htop : ∀ i < 32, 30 ≤ i → (0xC0000000 : Word).getLsbD i = true := by decide
  rw [initialRegister, BitVec.getLsbD_or, htop i hhigh hlow, Bool.true_or]

/-- The start register shows the first 32 elements of p. -/
theorem initialRegister_shows {cc : List Byte} (hcc : cc.length = 30) (hhard : HardBits cc) :
    RegisterShows (initialRegister cc) (initialBuffer cc).reverse := by
  intro i hi
  have hplace : (initialBuffer cc).reverse.getD i 0 = (initialBuffer cc).getD (31 - i) 0 := by
    have hlen : (initialBuffer cc).length = 32 := by simp [initialBuffer, hcc]
    rw [List.getD_reverse _ (hi.trans_eq hlen.symm), hlen]
  rw [hplace]
  rcases Nat.lt_or_ge i 30 with hlow | hhigh
  · have hcode : 31 - i = 29 - i + 1 + 1 := by omega
    rw [hcode, initialBuffer, List.getD_cons_succ, List.getD_cons_succ, initialRegister_getLsbD hhard hlow,
      hardBit_decide (hard_getD hhard _)]
  · rw [initialRegister_getLsbD_top cc hhigh hi]
    obtain rfl | rfl : i = 30 ∨ i = 31 := by omega
    · rfl
    · rfl

/-- Settles O43: the start register shows the first 32 elements of p, and every step keeps showing the newest 32. -/
theorem registerFormGivesTheSequence : Obligations.RegisterFormGivesTheSequence := by
  unfold Obligations.RegisterFormGivesTheSequence
  exact fun c n hlen hhard => (initialRegister_shows hlen hhard).registerOutputs_eq n

end Sys2Proof.Machine

/-! # SCRSEQ and SCR (R152, R155, R156) -/

namespace Sys2Proof.Machine

/-! SCRSEQ. -/

theorem exec_scrseq_of_length {s : State} (hlen : s.argNat 1 ≠ 30) :
    exec .scrseq s = .next (s.raiseErr .invalidArgument) :=
  if_pos hlen

/-- With a colour code of 30 bits, SCRSEQ is the shared checks and read, then the value check. -/
theorem exec_scrseq {s : State} (hlen : s.argNat 1 = 30) :
    exec .scrseq s = checkThenRead s (s.argNat 0) 30 (s.argNat 2) (s.argNat 3)
      fun c => requireHard s c (s.complete (s.argNat 2) (scrseq c (s.argNat 3)) (s.argNat 3) 0) :=
  if_neg (not_not.mpr hlen)

/-- Settles O8: the length check, then checkThenRead_ends; what is written obeys scrseq_recurrence. -/
theorem scrseqRule : Obligations.ScrseqRule := by
  unfold Obligations.ScrseqRule
  intro s cc dst n fits apart
  have hends (hlen : s.argNat 1 = 30) := checkThenRead_ends (exec_scrseq hlen)
  refine ⟨fun hlen => ⟨_, exec_scrseq_of_length hlen, raiseErr_failsWith _ _⟩, fun hlen => (hends hlen).1,
    fun hlen => (hends hlen).2.1, fun hlen => (hends hlen).2.2, fun c hlen hc hholds hfit hapart => ?_⟩
  have hread := (exec_scrseq hlen).trans (checkThenRead_of_holds hfit hapart hc hholds)
  constructor
  · intro hsoft
    exact ⟨_, hread.trans (requireHard_of_not_hard hsoft), raiseErr_failsWith _ _⟩
  · intro hhard
    exact ⟨_, hread.trans (requireHard_of_hard hhard), scrseq c n, scrseq_length c n, complete_succeeds _ _ _ _ _,
      complete_writesOnly _ _ _ _ _, scrseq_recurrence hc n⟩

/-! SCR: the checks and reads that its two variants share. -/

/-- SCR's regions are in range (R155). -/
abbrev ScrRegionsFit (s : State) : Prop :=
  Fits s (s.argNat 0) (s.argNat 1) ∧ Fits s (s.argNat 2) (s.argNat 1) ∧ Fits s (s.argNat 4) (s.argNat 1)

/-- SCR's output shares no byte with its inputs (R155). -/
abbrev ScrRegionsApart (s : State) : Prop :=
  ¬SharesByte (s.argNat 4) (s.argNat 1) (s.argNat 0) (s.argNat 1) ∧
    ¬SharesByte (s.argNat 4) (s.argNat 1) (s.argNat 2) (s.argNat 1)

theorem scrRegionsFit_iff {s : State} :
    ¬(!(s.inRange (s.argNat 0) (s.argNat 1) && s.inRange (s.argNat 2) (s.argNat 1)
      && s.inRange (s.argNat 4) (s.argNat 1))) = true ↔ ScrRegionsFit s := by
  simp only [ScrRegionsFit, Bool.not_eq_true, Bool.not_eq_false', Bool.and_eq_true, inRange_iff, and_assoc]

theorem scrRegionsApart_iff {s : State} :
    ¬(overlaps (s.argNat 4) (s.argNat 1) (s.argNat 0) (s.argNat 1)
      || overlaps (s.argNat 4) (s.argNat 1) (s.argNat 2) (s.argNat 1)) = true ↔ ScrRegionsApart s := by
  simp only [ScrRegionsApart, Bool.or_eq_true, not_or, overlaps_iff]

/-- SCR meets every check before its reads. -/
structure ScrPasses (s : State) : Prop where
  lengths : s.argNat 1 = s.argNat 3
  fit : ScrRegionsFit s
  apart : ScrRegionsApart s

section Scr

variable {mix : Byte → Byte → Byte} {hardData : Bool} {s : State}

theorem scrambleCommand_of_lengths (hlen : s.argNat 1 ≠ s.argNat 3) :
    scrambleCommand mix hardData s = .next (s.raiseErr .lengthMismatch) :=
  if_pos hlen

theorem scrambleCommand_of_unfit (hlen : s.argNat 1 = s.argNat 3) (hfit : ¬ScrRegionsFit s) :
    scrambleCommand mix hardData s = .next (s.raiseErr .address) :=
  (if_neg (not_not.mpr hlen)).trans <| if_pos (not_not.mp (scrRegionsFit_iff.not.mpr hfit))

theorem scrambleCommand_of_shared (hlen : s.argNat 1 = s.argNat 3) (hfit : ScrRegionsFit s)
    (hapart : ¬ScrRegionsApart s) : scrambleCommand mix hardData s = .next (s.raiseErr .overlap) :=
  (if_neg (not_not.mpr hlen)).trans <| (if_neg (scrRegionsFit_iff.mpr hfit)).trans <|
    if_pos (not_not.mp (scrRegionsApart_iff.not.mpr hapart))

/-- Past its checks, SCR reads both inputs; an unwritten byte of either is MF_UNINIT (R76, R155). -/
theorem scrambleCommand_of_unwritten (h : ScrPasses s)
    (hread : HasUnwritten s (s.argNat 0) (s.argNat 1) ∨ HasUnwritten s (s.argNat 2) (s.argNat 1)) :
    scrambleCommand mix hardData s = .next s.meetUninit := by
  obtain ⟨hlen, hfit, hapart⟩ := h
  rw [← scrRegionsFit_iff] at hfit
  rw [← scrRegionsApart_iff] at hapart
  rw [← readRange_iff_unwritten, ← readRange_iff_unwritten] at hread
  simp only [scrambleCommand, if_neg (not_not.mpr hlen), if_neg hfit, if_neg hapart]
  rcases hread with hdata | hseq
  · rw [hdata]
  · rw [hseq]
    cases s.dmem.readRange (s.argNat 0) (s.argNat 1) <;> rfl

/-- How SCR ends where it does not get past its reads, in either variant. -/
theorem scrambleCommand_ends {i : Instr} (hexec : exec i s = scrambleCommand mix hardData s) :
    (s.argNat 1 ≠ s.argNat 3 → Ends i s (FailsWith s · 3)) ∧
    (s.argNat 1 = s.argNat 3 → ¬ScrRegionsFit s → Ends i s (FailsWith s · 6)) ∧
    (s.argNat 1 = s.argNat 3 → ScrRegionsFit s → ¬ScrRegionsApart s → Ends i s (FailsWith s · 7)) ∧
    (s.argNat 1 = s.argNat 3 → ScrRegionsFit s → ScrRegionsApart s →
      HasUnwritten s (s.argNat 0) (s.argNat 1) ∨ HasUnwritten s (s.argNat 2) (s.argNat 1) →
      Ends i s (MeetsUninit s ·)) := by
  refine ⟨fun hlen => ?_, fun hlen hfit => ?_, fun hlen hfit hapart => ?_, fun hlen hfit hapart hread => ?_⟩
  · exact ⟨_, hexec.trans (scrambleCommand_of_lengths hlen), raiseErr_failsWith _ _⟩
  · exact ⟨_, hexec.trans (scrambleCommand_of_unfit hlen hfit), raiseErr_failsWith _ _⟩
  · exact ⟨_, hexec.trans (scrambleCommand_of_shared hlen hfit hapart), raiseErr_failsWith _ _⟩
  · exact ⟨_, hexec.trans (scrambleCommand_of_unwritten ⟨hlen, hfit, hapart⟩ hread), meetUninit_meets _⟩

/-- SCR meets every check before its reads, and both inputs are written. -/
structure ScrReadsInputs (s : State) (b q : List Byte) : Prop extends ScrPasses s where
  dataLength : b.length = s.argNat 1
  seqLength : q.length = s.argNat 1
  dataHeld : Holds s (s.argNat 0) b
  seqHeld : Holds s (s.argNat 2) q

variable {b q : List Byte}

/-- Where both inputs are read, what is left is the value checks, the sequence's first (R155). -/
theorem scrambleCommand_of_holds (h : ScrReadsInputs s b q) :
    scrambleCommand mix hardData s =
      if !allHard q then .next (s.raiseErr .invalidArgument)
      else if hardData && !allHard b then .next (s.raiseErr .invalidArgument)
      else .next (s.complete (s.argNat 4) (List.zipWith mix b q) (s.argNat 1) 0) := by
  obtain ⟨⟨hlen, hfit, hapart⟩, hb, hq, hdata, hseq⟩ := h
  rw [← scrRegionsFit_iff] at hfit
  rw [← scrRegionsApart_iff] at hapart
  have hdata := readRange_iff_holds.mpr ⟨hb, hdata⟩
  have hseq := readRange_iff_holds.mpr ⟨hq, hseq⟩
  simp only [scrambleCommand, if_neg (not_not.mpr hlen), if_neg hfit, if_neg hapart, hdata, hseq]

theorem scrambleCommand_of_hard (h : ScrReadsInputs s b q) (hq : HardBits q)
    (hb : hardData = true → HardBits b) : scrambleCommand mix hardData s =
      .next (s.complete (s.argNat 4) (List.zipWith mix b q) (s.argNat 1) 0) := by
  have hdata : (hardData && !allHard b) = false := by
    cases hardData with
    | false => rfl
    | true => rw [allHard_iff.mpr (hb rfl)]; rfl
  rw [scrambleCommand_of_holds h, allHard_iff.mpr hq, hdata]
  rfl

theorem scrambleCommand_of_not_hard (h : ScrReadsInputs s b q)
    (hsoft : ¬HardBits q ∨ hardData = true ∧ ¬HardBits b) :
    scrambleCommand mix hardData s = .next (s.raiseErr .invalidArgument) := by
  rw [← allHard_iff, ← allHard_iff, Bool.not_eq_true, Bool.not_eq_true] at hsoft
  rw [scrambleCommand_of_holds h]
  rcases hsoft with hq | ⟨hvariant, hb⟩
  · rw [hq]
    rfl
  · rw [hvariant, hb]
    exact ite_self _

end Scr

/-! The two variants (R155). -/

theorem exec_scrHard (s : State) : exec .scrHard s = scrambleCommand scrambleHard true s :=
  rfl

theorem exec_scrSoft (s : State) : exec .scrSoft s = scrambleCommand scrambleSoft false s :=
  rfl

/-- Settles O9: the shared checks and reads (scrambleCommand_ends), then both inputs must be hard. -/
theorem scrHardRule : Obligations.ScrHardRule := by
  unfold Obligations.ScrHardRule
  intro s src n sq ns dst fits apart
  obtain ⟨hlength, haddress, hoverlap, huninit⟩ := scrambleCommand_ends (exec_scrHard s)
  refine ⟨hlength, haddress, hoverlap, huninit, fun b q hlen hb hq hdata hseq hfit hapart => ?_⟩
  have hreads : ScrReadsInputs s b q := ⟨⟨hlen, hfit, hapart⟩, hb, hq, hdata, hseq⟩
  constructor
  · intro hsoft
    have hsoft : ¬HardBits q ∨ true = true ∧ ¬HardBits b := hsoft.imp_right fun hb => ⟨rfl, hb⟩
    exact ⟨_, (exec_scrHard s).trans (scrambleCommand_of_not_hard hreads hsoft), raiseErr_failsWith _ _⟩
  · intro hq hb
    exact ⟨_, (exec_scrHard s).trans (scrambleCommand_of_hard hreads hq fun _ => hb), complete_succeeds _ _ _ _ _,
      complete_writesOnly _ _ _ _ _⟩

/-- Settles O10: the shared checks and reads (scrambleCommand_ends), then only the sequence must be hard. -/
theorem scrSoftRule : Obligations.ScrSoftRule := by
  unfold Obligations.ScrSoftRule
  intro s src n sq ns dst fits apart
  obtain ⟨hlength, haddress, hoverlap, huninit⟩ := scrambleCommand_ends (exec_scrSoft s)
  refine ⟨hlength, haddress, hoverlap, huninit, fun b q hlen hb hq hdata hseq hfit hapart => ?_⟩
  have hreads : ScrReadsInputs s b q := ⟨⟨hlen, hfit, hapart⟩, hb, hq, hdata, hseq⟩
  constructor
  · intro hsoft
    exact ⟨_, (exec_scrSoft s).trans (scrambleCommand_of_not_hard hreads (.inl hsoft)), raiseErr_failsWith _ _⟩
  · intro hq
    exact ⟨_, (exec_scrSoft s).trans (scrambleCommand_of_hard hreads hq fun h => absurd h Bool.false_ne_true),
      complete_succeeds _ _ _ _ _, complete_writesOnly _ _ _ _ _⟩

/-! Scrambling twice (R156). -/

theorem scrambleHard_scrambleHard (b q : Byte) : scrambleHard (scrambleHard b q) q = b := by
  rw [scrambleHard, scrambleHard, BitVec.xor_assoc, BitVec.xor_self, BitVec.xor_zero]

theorem scrambleSoft_scrambleSoft (b q : Byte) : scrambleSoft (scrambleSoft b q) q = b := by
  rw [scrambleSoft, scrambleSoft, BitVec.xor_assoc, BitVec.xor_self, BitVec.xor_zero]

/-- An element rule that undoes itself undoes itself along two lists of one length. -/
theorem zipWith_zipWith_self {f : Byte → Byte → Byte} (hf : ∀ v e, f (f v e) e = v) {b q : List Byte}
    (hlen : b.length = q.length) : List.zipWith f (List.zipWith f b q) q = b := by
  induction b generalizing q with
  | nil => rfl
  | cons v b ih =>
    cases q with
    | nil => simp at hlen
    | cons e q => rw [List.zipWith_cons_cons, List.zipWith_cons_cons, hf, ih (Nat.succ.inj hlen)]

/-- Settles O44: both element rules undo themselves. -/
theorem scramblingIsSelfInverse : Obligations.ScramblingIsSelfInverse := by
  unfold Obligations.ScramblingIsSelfInverse
  exact fun b q hlen _ =>
    ⟨zipWith_zipWith_self scrambleHard_scrambleHard hlen, zipWith_zipWith_self scrambleSoft_scrambleSoft hlen⟩

end Sys2Proof.Machine

/-! # The bit deinterleaver (R180, R182, R183, R185)
The pattern i ↦ a (i + 1) mod K as a map on [0, K), and DIL as the depth check followed by the shared checks and read. -/

namespace Sys2Proof.Machine

/-! The pattern (R180, R182). -/

theorem mem_interleavePattern {k a m : Nat} : m ∈ interleavePattern k a ↔ ∃ i, i < k ∧ a * (i + 1) % k = m := by
  simp [interleavePattern]

theorem getElem?_interleavePattern {k i : Nat} (a : Nat) (hi : i < k) :
    (interleavePattern k a)[i]? = some (a * (i + 1) % k) := by
  simp [interleavePattern, hi]

theorem lt_of_mem_interleavePattern {k a m : Nat} (hm : m ∈ interleavePattern k a) : m < k := by
  obtain ⟨i, hi, rfl⟩ := mem_interleavePattern.mp hm
  exact Nat.mod_lt _ (Nat.zero_lt_of_lt hi)

/-- A coprime depth can be cancelled modulo K, so no two places of the pattern agree. -/
theorem nodup_interleavePattern {k a : Nat} (h : a.Coprime k) : (interleavePattern k a).Nodup := by
  refine List.Nodup.map_on (fun i hi j hj (heq : a * (i + 1) ≡ a * (j + 1) [MOD k]) => ?_) List.nodup_range
  have hsucc : i + 1 ≡ j + 1 [MOD k] := heq.cancel_left_of_coprime h.symm
  exact (Nat.ModEq.add_right_cancel' 1 hsucc).eq_of_lt_of_lt (List.mem_range.mp hi) (List.mem_range.mp hj)

/-- A pattern that reaches 1 mod K inverts its depth modulo K. -/
theorem coprime_of_one_mem_interleavePattern {k a : Nat} (h : 1 % k ∈ interleavePattern k a) : a.Coprime k := by
  obtain ⟨i, -, hone⟩ := mem_interleavePattern.mp h
  exact Nat.coprime_of_mul_modEq_one (i + 1) hone

theorem interleavePattern_perm_iff {k a : Nat} :
    (interleavePattern k a).Perm (List.range k) ↔ k = 0 ∨ Nat.gcd a k = 1 := by
  constructor
  · intro hperm
    refine k.eq_zero_or_pos.imp_right fun hk => coprime_of_one_mem_interleavePattern ?_
    exact hperm.mem_iff.mpr (List.mem_range.mpr (Nat.mod_lt 1 hk))
  · rintro (rfl | hgcd)
    · exact List.Perm.nil
    · have hsubset : interleavePattern k a ⊆ List.range k :=
        fun _ hm => List.mem_range.mpr (lt_of_mem_interleavePattern hm)
      exact ((nodup_interleavePattern hgcd).subperm hsubset).perm_of_length_le (by simp)

/-! The gather (R183, R185). -/

theorem getElem?_gather {bits : List Byte} {pattern : List Nat} {i j : Nat} (hi : pattern[i]? = some j)
    (hj : j < bits.length) : (gather bits pattern)[i]? = bits[j]? := by
  rw [gather, List.getElem?_map, hi, List.getElem?_eq_getElem hj, Option.map_some, List.getD_eq_getElem bits 0 hj]

theorem getElem?_deinterleaved {bits : List Byte} {i : Nat} (a : Nat) (hi : i < bits.length) :
    (gather bits (interleavePattern bits.length a))[i]? = bits[a * (i + 1) % bits.length]? :=
  getElem?_gather (getElem?_interleavePattern a hi) (Nat.mod_lt _ (Nat.zero_lt_of_lt hi))

/-- Where the pattern reaches every place m, as a (i + 1) mod K for some i, the inverse pattern sends m back to i, and
the deinterleaver has put bit m there (R185). -/
theorem gather_inverse_deinterleaved {bits : List Byte} {q : List Nat} {a : Nat}
    (hperm : (interleavePattern bits.length a).Perm (List.range bits.length)) (hlen : q.length = bits.length)
    (hq : ∀ i, i < bits.length → q[a * (i + 1) % bits.length]? = some i) :
    gather (gather bits (interleavePattern bits.length a)) q = bits := by
  refine List.ext_getElem? fun m => ?_
  rcases Nat.lt_or_ge m bits.length with hm | hm
  · obtain ⟨i, hi, rfl⟩ := mem_interleavePattern.mp (hperm.mem_iff.mpr (List.mem_range.mpr hm))
    rw [getElem?_gather (hq i hi) (by simpa using hi), getElem?_deinterleaved a hi]
  · rw [List.getElem?_eq_none (by simpa [hlen] using hm), List.getElem?_eq_none hm]

/-- Settles O46: a coprime depth cancels modulo K, and a pattern that reaches 1 inverts its depth; a permutation reaches
every place, which is all that the inverse pattern needs. -/
theorem patternIsAPermutationIffCoprime : Obligations.PatternIsAPermutationIffCoprime := by
  unfold Obligations.PatternIsAPermutationIffCoprime
  exact ⟨fun _ _ => interleavePattern_perm_iff,
    fun _ _ _ hcoprime hlen hq => gather_inverse_deinterleaved (interleavePattern_perm_iff.mpr hcoprime) hlen hq⟩

/-! The command (R181, R183). -/

section Dil

variable {s : State}

theorem depthCheck_fails_iff {k a : Nat} :
    (!(k == 0 || Nat.gcd a k == 1)) = true ↔ ¬(k = 0 ∨ Nat.gcd a k = 1) := by
  simp only [Bool.not_eq_true', Bool.or_eq_false_iff, beq_eq_false_iff_ne, not_or, ne_eq]

theorem exec_dil_of_not_permutes (h : ¬(s.argNat 1 = 0 ∨ Nat.gcd s.depth (s.argNat 1) = 1)) :
    exec .dil s = .next (s.raiseErr .unsupported) :=
  if_pos (depthCheck_fails_iff.mpr h)

/-- With a depth and a length that give a permutation, DIL is the shared checks and read, with no value check. -/
theorem exec_dil_of_permutes (h : s.argNat 1 = 0 ∨ Nat.gcd s.depth (s.argNat 1) = 1) :
    exec .dil s = checkThenRead s (s.argNat 0) (s.argNat 1) (s.argNat 2) (s.argNat 1)
      fun b => .next (s.complete (s.argNat 2) (gather b (interleavePattern (s.argNat 1) s.depth)) (s.argNat 1) 0) :=
  if_neg fun hfails => depthCheck_fails_iff.mp hfails h

end Dil

/-- Settles O11: the depth check, then checkThenRead_ends; what is written is the gather, element by element. -/
theorem dilRule : Obligations.DilRule := by
  unfold Obligations.DilRule
  intro s src n dst a permutes fits apart
  have hends (hperm : permutes) := checkThenRead_ends (exec_dil_of_permutes hperm)
  refine ⟨fun hperm => ⟨_, exec_dil_of_not_permutes hperm, raiseErr_failsWith _ _⟩, fun hperm => (hends hperm).1,
    fun hperm => (hends hperm).2.1, fun hperm => (hends hperm).2.2, fun b hlen hholds hperm hfit hapart => ?_⟩
  have hread := (exec_dil_of_permutes hperm).trans (checkThenRead_of_holds hfit hapart hlen hholds)
  have hout : ∀ i, i < n → (gather b (interleavePattern n a))[i]? = b[a * (i + 1) % n]? := by
    rw [← hlen]
    exact fun i hi => getElem?_deinterleaved a hi
  exact ⟨_, hread, gather b (interleavePattern n a), by simp, hout, complete_succeeds _ _ _ _ _,
    complete_writesOnly _ _ _ _ _⟩

end Sys2Proof.Machine

/-! # The convolutional depuncturer (R200, R201, R203, R205)
The targets in their order, what a scatter leaves at each place, and DPN as its two refusals followed by the shared
checks and read. -/

namespace Sys2Proof.Machine

/-! The targets (R200, R201). -/

/-- R200 counts j from 1; from 0, the place in the group of eight is that of j mod 3. -/
theorem punctureTarget_succ (j : Nat) : punctureTarget (j + 1) = 8 * (j / 3) + [0, 1, 4].getD (j % 3) 0 := by
  have hplace : j + 1 - 3 * (j / 3) = j % 3 + 1 := by omega
  have hmod : j % 3 < 3 := Nat.mod_lt j (by decide)
  rw [punctureTarget, Nat.add_sub_cancel, hplace]
  interval_cases j % 3 <;> rfl

/-- The three places of a group, for linear arithmetic. -/
theorem punctureTarget_succ_cases (j : Nat) :
    (j % 3 = 0 ∧ punctureTarget (j + 1) = 8 * (j / 3)) ∨ (j % 3 = 1 ∧ punctureTarget (j + 1) = 8 * (j / 3) + 1) ∨
      (j % 3 = 2 ∧ punctureTarget (j + 1) = 8 * (j / 3) + 4) := by
  have hmod : j % 3 < 3 := Nat.mod_lt j (by decide)
  rw [punctureTarget_succ]
  interval_cases j % 3 <;> simp

theorem strictMono_punctureTarget_succ : StrictMono fun j => punctureTarget (j + 1) := by
  refine strictMono_nat_of_lt_succ fun j => ?_
  have hthis := punctureTarget_succ_cases j
  have hnext := punctureTarget_succ_cases (j + 1)
  omega

theorem punctureTarget_succ_lt {k3 j : Nat} (hk : k3 % 3 ≠ 1) (hj : j < k3) :
    punctureTarget (j + 1) < unpuncturedLength k3 := by
  have hcases := punctureTarget_succ_cases j
  rw [unpuncturedLength]
  omega

/-- K3 = 3 g + 1 leaves a last group of one bit, whose target 8 g is U itself. -/
theorem punctureTarget_eq_unpuncturedLength {k3 : Nat} (hk : k3 % 3 = 1) :
    punctureTarget k3 = unpuncturedLength k3 := by
  obtain ⟨j, rfl⟩ : ∃ j, k3 = j + 1 := ⟨k3 - 1, by omega⟩
  have hcases := punctureTarget_succ_cases j
  rw [unpuncturedLength]
  omega

theorem mem_punctureTargets {k3 x : Nat} : x ∈ punctureTargets k3 ↔ ∃ j, j < k3 ∧ punctureTarget (j + 1) = x := by
  simp [punctureTargets]

theorem getElem?_punctureTargets {k3 j : Nat} (hj : j < k3) :
    (punctureTargets k3)[j]? = some (punctureTarget (j + 1)) := by
  simp [punctureTargets, hj]

theorem pairwise_punctureTargets (k3 : Nat) : (punctureTargets k3).Pairwise (· < ·) :=
  List.pairwise_map.mpr (List.pairwise_lt_range.imp fun hlt => strictMono_punctureTarget_succ hlt)

theorem punctureTargets_lt_iff {k3 : Nat} :
    (∀ x ∈ punctureTargets k3, x < unpuncturedLength k3) ↔ k3 % 3 ≠ 1 := by
  constructor
  · intro hbelow hk
    have hlast : punctureTarget k3 ∈ punctureTargets k3 :=
      mem_punctureTargets.mpr ⟨k3 - 1, by omega, by rw [Nat.sub_add_cancel (by omega)]⟩
    exact (hbelow _ hlast).ne (punctureTarget_eq_unpuncturedLength hk)
  · intro hk x hx
    obtain ⟨j, hj, rfl⟩ := mem_punctureTargets.mp hx
    exact punctureTarget_succ_lt hk hj

/-- Settles O47: the targets rise strictly from each j to the next, and only a last group of one bit reaches U. -/
theorem punctureTargetsAreDistinct : Obligations.PunctureTargetsAreDistinct := by
  unfold Obligations.PunctureTargetsAreDistinct
  exact fun k3 => ⟨pairwise_punctureTargets k3, punctureTargets_lt_iff⟩

/-! What a scatter leaves at each place (R203). -/

theorem getElem?_scatter_of_notMem {out : List Byte} {ps : List (Nat × Byte)} {x : Nat}
    (hx : x ∉ ps.map Prod.fst) : (scatter out ps)[x]? = out[x]? := by
  induction ps generalizing out with
  | nil => rfl
  | cons p ps ih =>
    obtain ⟨hne, hrest⟩ := not_or.mp (List.mem_cons.not.mp hx)
    rw [scatter, ih hrest, List.getElem?_set_ne (Ne.symm hne)]

/-- With distinct targets no element is written over. -/
theorem getElem?_scatter_of_mem {out : List Byte} {ps : List (Nat × Byte)} {t : Nat} {b : Byte}
    (hdistinct : (ps.map Prod.fst).Nodup) (hmem : (t, b) ∈ ps) (ht : t < out.length) :
    (scatter out ps)[t]? = some b := by
  induction ps generalizing out with
  | nil => exact absurd hmem List.not_mem_nil
  | cons p ps ih =>
    obtain ⟨hfresh, hrest⟩ := List.nodup_cons.mp hdistinct
    rw [scatter]
    rcases List.mem_cons.mp hmem with rfl | hmem
    · rw [getElem?_scatter_of_notMem hfresh, List.getElem?_set_self ht]
    · exact ih hrest hmem (by rwa [List.length_set])

/-! The depunctured array (R203, R205). -/

theorem map_fst_zip_punctureTargets (bits : List Byte) :
    ((punctureTargets bits.length).zip bits).map Prod.fst = punctureTargets bits.length :=
  List.map_fst_zip (by simp)

theorem punctureTarget_succ_lt_depuncture {bits : List Byte} {j : Nat} (hlen : bits.length % 3 ≠ 1)
    (hj : j < bits.length) : punctureTarget (j + 1) < (depuncture bits).length := by
  rw [depuncture_length]
  exact Nat.lt_add_right pad (punctureTarget_succ_lt hlen hj)

theorem getElem?_depuncture_target {bits : List Byte} {j : Nat} (hlen : bits.length % 3 ≠ 1)
    (hj : j < bits.length) : (depuncture bits)[punctureTarget (j + 1)]? = bits[j]? := by
  have hmem : (punctureTarget (j + 1), bits[j]) ∈ (punctureTargets bits.length).zip bits :=
    List.mem_of_getElem? (List.getElem?_zip_eq_some.mpr
      ⟨getElem?_punctureTargets hj, List.getElem?_eq_getElem hj⟩)
  have hdistinct : (((punctureTargets bits.length).zip bits).map Prod.fst).Nodup := by
    rw [map_fst_zip_punctureTargets]
    exact (pairwise_punctureTargets bits.length).imp Nat.ne_of_lt
  rw [List.getElem?_eq_getElem hj, depuncture]
  refine getElem?_scatter_of_mem hdistinct hmem ?_
  simpa using punctureTarget_succ_lt_depuncture hlen hj

theorem getElem?_depuncture_of_not_target {bits : List Byte} {x : Nat} (hx : x < unpuncturedLength bits.length + pad)
    (hnot : ∀ j, j < bits.length → x ≠ punctureTarget (j + 1)) : (depuncture bits)[x]? = some erasure := by
  have hfree : x ∉ ((punctureTargets bits.length).zip bits).map Prod.fst := by
    rw [map_fst_zip_punctureTargets, mem_punctureTargets]
    rintro ⟨j, hj, rfl⟩
    exact hnot j hj rfl
  rw [depuncture, getElem?_scatter_of_notMem hfree, List.getElem?_replicate_of_lt hx]

theorem gather_depuncture {bits : List Byte} (hlen : bits.length % 3 ≠ 1) :
    gather (depuncture bits) (punctureTargets bits.length) = bits := by
  refine List.ext_getElem? fun j => ?_
  rcases Nat.lt_or_ge j bits.length with hj | hj
  · rw [getElem?_gather (getElem?_punctureTargets hj) (punctureTarget_succ_lt_depuncture hlen hj),
      getElem?_depuncture_target hlen hj]
  · rw [List.getElem?_eq_none (by simpa using hj), List.getElem?_eq_none hj]

/-- Settles O48: R200's numbers at K3 = 120, and each target of the depunctured array holds its own bit. -/
theorem gatheringRecoversThePuncturedBits : Obligations.GatheringRecoversThePuncturedBits := by
  unfold Obligations.GatheringRecoversThePuncturedBits
  exact ⟨rfl, rfl, rfl, fun _ hlen => gather_depuncture hlen⟩

/-! The command (R202, R203). -/

theorem exec_dpn_of_rate {rate : Nat} (s : State) (h : rate ≠ 0) :
    exec (.dpn rate) s = .next (s.raiseErr .unsupported) :=
  if_pos h

theorem exec_dpn_of_lone_bit {s : State} (h : s.argNat 1 % 3 = 1) :
    exec (.dpn 0) s = .next (s.raiseErr .unsupported) :=
  if_pos h

/-- At rate 2/3, with a length that the targets allow, DPN is the shared checks and read, with no value check. -/
theorem exec_dpn_of_allowed {s : State} (h : s.argNat 1 % 3 ≠ 1) :
    exec (.dpn 0) s =
      checkThenRead s (s.argNat 0) (s.argNat 1) (s.argNat 2) (unpuncturedLength (s.argNat 1) + pad)
        fun b => .next (s.complete (s.argNat 2) (depuncture b) (unpuncturedLength (s.argNat 1) + pad)
          (unpuncturedLength (s.argNat 1))) :=
  if_neg h

/-- Settles O12: the rate and length checks, then checkThenRead_ends; what is written is described place by place, with
the targets counted from 0 (punctureTarget_succ). -/
theorem dpnRule : Obligations.DpnRule := by
  unfold Obligations.DpnRule
  intro s rate src n dst u target fits apart
  have hends (hk : n % 3 ≠ 1) := checkThenRead_ends (exec_dpn_of_allowed hk)
  refine ⟨fun hrate => ⟨_, exec_dpn_of_rate s hrate, raiseErr_failsWith _ _⟩,
    fun hk => ⟨_, exec_dpn_of_lone_bit hk, raiseErr_failsWith _ _⟩, fun hk => (hends hk).1, fun hk => (hends hk).2.1,
    fun hk => (hends hk).2.2, fun b hlen hholds hk hfit hapart => ?_⟩
  have hread := (exec_dpn_of_allowed hk).trans (checkThenRead_of_holds hfit hapart hlen hholds)
  have hout : (depuncture b).length = u + 16 := by
    rw [depuncture_length, hlen]
    rfl
  have htarget : ∀ j, j < n → (depuncture b)[target j]? = b[j]? := fun j hj => by
    rw [← hlen] at hk hj
    rw [← getElem?_depuncture_target hk hj, punctureTarget_succ]
  have herasure : ∀ x, x < u + 16 → (∀ j, j < n → x ≠ target j) → (depuncture b)[x]? = some 0x80 := by
    intro x hx hnot
    rw [← hout, depuncture_length] at hx
    refine getElem?_depuncture_of_not_target hx fun j hj => ?_
    rw [punctureTarget_succ]
    exact hnot j (hlen ▸ hj)
  exact ⟨_, hread, depuncture b, hout, htarget, herasure, complete_succeeds _ _ _ _ _, complete_writesOnly _ _ _ _ _⟩

end Sys2Proof.Machine

/-! # The mother code and the branch metric (R221, R222, R223)
The two transitions into a state as the two registers that lead there, the codeword of an input sequence step by step,
and the costs of a codeword. -/

namespace Sys2Proof.Machine

/-! The trellis. -/

@[simp] theorem nextState_incomingRegister (s : Trellis) (x : Bool) : nextState (incomingRegister s x) = s := by
  revert s x; decide

theorem stepRegister_predecessor (s : Trellis) (x : Bool) :
    stepRegister (predecessor s x) (s.getLsbD 0) = incomingRegister s x := by
  revert s x; decide

/-- A step out of p is one of the two transitions into the state it reaches, the one whose oldest bit is p's. -/
theorem predecessor_nextState (p : Trellis) (b : Bool) :
    predecessor (nextState (stepRegister p b)) (p.getLsbD 3) = p ∧
      incomingRegister (nextState (stepRegister p b)) (p.getLsbD 3) = stepRegister p b := by
  revert p b; decide

/-- Settles O49: the 32 transitions, and the table of R222. -/
theorem trellisAndExpectedBits : Obligations.TrellisAndExpectedBits := by
  unfold Obligations.TrellisAndExpectedBits
  exact ⟨fun s x => ⟨nextState_incomingRegister s x, stepRegister_predecessor s x⟩, by decide⟩

/-! Input sequences and their codewords. -/

@[simp] theorem expectedBits_length (r : BitVec 5) : (expectedBits r).length = 4 := by
  simp [expectedBits, generators]

/-- Every generator taps the newest bit, so the first output bit already tells the two steps out of a state apart. -/
theorem expectedBits_stepRegister_inj {p : Trellis} {b c : Bool}
    (h : expectedBits (stepRegister p b) = expectedBits (stepRegister p c)) : b = c := by
  revert p b c; decide

@[simp] theorem convFrom_length (p : Trellis) (u : List Bool) : (convFrom p u).length = 4 * u.length := by
  induction u generalizing p with
  | nil => rfl
  | cons b u ih => rw [convFrom, List.length_append, expectedBits_length, ih, List.length_cons]; omega

@[simp] theorem conv_length (u : List Bool) : (conv u).length = 4 * u.length := convFrom_length 0 u

/-- The state that an input sequence leads to from p; from state 0 it is `endState` (R221). -/
def stateFrom (p : Trellis) (u : List Bool) : Trellis := u.foldl (fun p b => nextState (stepRegister p b)) p

theorem endState_append (u v : List Bool) : endState (u ++ v) = stateFrom (endState u) v :=
  List.foldl_append

theorem endState_concat (u : List Bool) (b : Bool) :
    endState (u ++ [b]) = nextState (stepRegister (endState u) b) :=
  endState_append u [b]

theorem convFrom_append (p : Trellis) (u v : List Bool) :
    convFrom p (u ++ v) = convFrom p u ++ convFrom (stateFrom p u) v := by
  induction u generalizing p with
  | nil => rfl
  | cons b u ih =>
    rw [List.cons_append, convFrom, convFrom, ih, List.append_assoc]
    rfl

/-- The codeword of a sequence with one more bit: the last step starts at the state the sequence ends in. -/
theorem conv_concat (u : List Bool) (b : Bool) :
    conv (u ++ [b]) = conv u ++ expectedBits (stepRegister (endState u) b) := by
  rw [conv, convFrom_append, convFrom, convFrom, List.append_nil]
  rfl

theorem convFrom_injective (p : Trellis) : Function.Injective (convFrom p) := by
  intro u v h
  induction u generalizing p v with
  | nil =>
    have hlen := congrArg List.length h
    rw [convFrom_length, convFrom_length] at hlen
    exact (List.eq_nil_of_length_eq_zero (by simpa using hlen.symm)).symm
  | cons b u ih =>
    cases v with
    | nil => simpa using congrArg List.length h
    | cons c v =>
      obtain ⟨hfirst, hrest⟩ := List.append_inj h (by simp)
      obtain rfl := expectedBits_stepRegister_inj hfirst
      rw [ih _ hrest]

/-- The all-zero path reaches state 0 at every step (R225). -/
@[simp] theorem endState_replicate_false (n : Nat) : endState (List.replicate n false) = 0 := by
  induction n with
  | zero => rfl
  | succ n ih => rw [List.replicate_succ', endState_concat, ih]; rfl

/-- Four zeros flush the register: they lead every state to state 0. -/
theorem endState_append_four_zeros (u : List Bool) : endState (u ++ List.replicate 4 false) = 0 := by
  have hflush : ∀ p : Trellis, stateFrom p (List.replicate 4 false) = 0 := by decide
  rw [endState_append, hflush]

theorem endState_of_terminated {u : List Bool} (hlen : 4 ≤ u.length)
    (hzero : ∀ i, u.length ≤ i + 4 → i < u.length → u[i]? = some false) : endState u = 0 := by
  have htail : u.drop (u.length - 4) = List.replicate 4 false := by
    refine List.eq_replicate_iff.mpr ⟨by rw [List.length_drop]; omega, fun b hb => ?_⟩
    obtain ⟨i, hi, rfl⟩ := List.mem_iff_getElem.mp hb
    rw [List.length_drop] at hi
    rw [List.getElem_drop]
    exact (List.getElem_eq_iff _).mpr (hzero _ (by omega) (by omega))
  rw [← List.take_append_drop (u.length - 4) u, htail, endState_append_four_zeros]

/-! Costs. -/

theorem bitCost_le (e : Bool) (y : Byte) : bitCost e y ≤ 255 := by
  cases e with
  | false => exact Nat.le_of_lt_succ y.isLt
  | true => exact Nat.sub_le _ _

/-- R223's absolute difference. -/
theorem bitCost_eq_absDiff (e : Bool) (y : Byte) :
    bitCost e y = (y.toNat - if e then 255 else 0) + ((if e then 255 else 0) - y.toNat) := by
  have := y.isLt
  cases e <;> simp [bitCost]
  omega

theorem sum_bitCost_le (es : List Bool) (y : List Byte) : (List.zipWith bitCost es y).sum ≤ 255 * es.length := by
  induction es generalizing y with
  | nil => simp
  | cons e es ih =>
    cases y with
    | nil => simp
    | cons y ys =>
      have := bitCost_le e y
      have := ih ys
      simp only [List.zipWith_cons_cons, List.sum_cons, List.length_cons]
      omega

theorem branchMetric_le (y : List Byte) (r : BitVec 5) : branchMetric y r ≤ 1020 := by
  have := sum_bitCost_le (expectedBits r) y
  rwa [expectedBits_length] at this

/-- Settles O50: each sample's cost is its absolute difference (bitCost_eq_absDiff), and four costs of at most 255. -/
theorem branchMetricSum : Obligations.BranchMetricSum := by
  unfold Obligations.BranchMetricSum
  refine ⟨fun y0 y1 y2 y3 r => ?_, branchMetric_le, rfl, rfl⟩
  simp only [branchMetric, expectedBits, generators, List.zipWith_map_left, bitCost_eq_absDiff]

theorem pathCost_le (u : List Bool) (y : List Byte) : pathCost u y ≤ 1020 * u.length := by
  have := sum_bitCost_le (conv u) y
  rw [conv_length] at this
  exact this.trans_eq (by omega)

/-- One more bit costs the branch metric of its transition. -/
theorem pathCost_concat {u : List Bool} {z : List Byte} (hlen : z.length = 4 * u.length) (b : Bool) (y : List Byte) :
    pathCost (u ++ [b]) (z ++ y) = pathCost u z + branchMetric y (stepRegister (endState u) b) := by
  rw [pathCost, conv_concat, List.zipWith_append (by rw [conv_length, hlen]), List.sum_append]
  rfl

/-- Full-confidence samples cost a codeword nothing exactly where they are its bits. -/
theorem sum_bitCost_eq_zero_iff {es bs : List Bool} (hlen : es.length = bs.length) :
    (List.zipWith bitCost es (bs.map fun b => if b then 0xFF else 0x00)).sum = 0 ↔ es = bs := by
  have hbit (e b : Bool) : bitCost e (if b then 0xFF else 0x00) = 0 ↔ e = b := by
    revert e b; decide
  induction es generalizing bs with
  | nil => simp [List.eq_nil_of_length_eq_zero hlen.symm]
  | cons e es ih =>
    cases bs with
    | nil => simp at hlen
    | cons b bs =>
      rw [List.map_cons, List.zipWith_cons_cons, List.sum_cons, Nat.add_eq_zero_iff, List.cons.injEq]
      exact and_congr (hbit e b) (ih (Nat.succ.inj hlen))

/-- The encoder is injective, so only the sequence itself has cost 0 against its codeword (R232). -/
theorem pathCost_codeword_eq_zero_iff {u v : List Bool} (hlen : v.length = u.length) :
    pathCost v ((conv u).map fun b => if b then 0xFF else 0x00) = 0 ↔ v = u := by
  rw [pathCost, sum_bitCost_eq_zero_iff (by rw [conv_length, conv_length, hlen])]
  exact (convFrom_injective 0).eq_iff

end Sys2Proof.Machine

/-! # Add-compare-select (R224, R226)
Metrics as extended naturals, ∞ being ⊤, and one step of the recursion state by state. -/

namespace Sys2Proof.Machine

/-! Metrics. -/

/-- The metric in the order of R224, with ∞ on top. -/
def Metric.toENat : Metric → ℕ∞
  | some n => n
  | none => ⊤

@[simp] theorem Metric.toENat_some (n : Nat) : Metric.toENat (some n) = n := rfl

@[simp] theorem Metric.toENat_none : Metric.toENat none = ⊤ := rfl

theorem Metric.less_iff {a b : Metric} : a.less b = true ↔ a.toENat < b.toENat := by
  cases a <;> cases b <;> simp [Metric.less]

/-- Winning against b: being finite, and below b where b is finite too. -/
theorem Metric.less_iff_exists {a b : Metric} :
    a.less b = true ↔ ∃ m, a = some m ∧ ∀ n, b = some n → m < n := by
  cases a <;> cases b <;> simp [Metric.less]

@[simp] theorem Metric.toENat_plus (m : Metric) (n : Nat) : (m.plus n).toENat = m.toENat + n := by
  cases m <;> simp [Metric.plus]

theorem Metric.eq_some_of_toENat_le {m : Metric} {n : Nat} (h : m.toENat ≤ n) : ∃ k, m = some k := by
  cases m with
  | none => simp at h
  | some k => exact ⟨k, rfl⟩

/-! Lists over the sixteen states. -/

theorem getElem?_map_trellisStates {α : Type} (f : Trellis → α) (s : Trellis) :
    (trellisStates.map f)[s.toNat]? = some (f s) := by
  simp [trellisStates, s.isLt]

theorem metricOf_map_trellisStates (f : Trellis → Metric) (s : Trellis) : metricOf (trellisStates.map f) s = f s := by
  rw [metricOf, List.getD_eq_getElem?_getD, getElem?_map_trellisStates, Option.getD_some]

theorem metricOf_initialMetrics (s : Trellis) : metricOf initialMetrics s = if s = 0 then some 0 else none :=
  metricOf_map_trellisStates _ s

theorem metricOf_nextMetrics (pm : List Metric) (y : List Byte) (s : Trellis) :
    metricOf (nextMetrics pm y) s = candidate pm y s (decision pm y s) :=
  metricOf_map_trellisStates _ s

theorem getElem?_decisions (pm : List Metric) (y : List Byte) (s : Trellis) :
    (decisions pm y)[s.toNat]? = some (decision pm y s) :=
  getElem?_map_trellisStates _ s

/-! One step. -/

/-- Settles O51: a candidate wins by being less (Metric.less_iff_exists), which is the decision; metric and record
follow it. -/
theorem addCompareSelect : Obligations.AddCompareSelect := by
  unfold Obligations.AddCompareSelect
  intro pm y s cand wins
  have hwins : decision pm y s = true ↔ wins := Metric.less_iff_exists
  rw [metricOf_nextMetrics, getElem?_decisions]
  constructor
  · intro hwin
    rw [hwins.mpr hwin]
    exact ⟨rfl, rfl⟩
  · intro hlose
    rw [Bool.eq_false_iff.mpr (hwins.not.mpr hlose)]
    exact ⟨rfl, rfl⟩

/-- The selected candidate is the lesser of the two. -/
theorem candidate_decision_le (pm : List Metric) (y : List Byte) (s : Trellis) (x : Bool) :
    (candidate pm y s (decision pm y s)).toENat ≤ (candidate pm y s x).toENat := by
  cases hd : decision pm y s with
  | true =>
    have hlt : (candidate pm y s true).toENat < (candidate pm y s false).toENat := Metric.less_iff.mp hd
    cases x with
    | true => exact le_rfl
    | false => exact hlt.le
  | false =>
    have hle : (candidate pm y s false).toENat ≤ (candidate pm y s true).toENat :=
      not_lt.mp (Metric.less_iff.not.mp (Bool.eq_false_iff.mp hd))
    cases x with
    | true => exact hle
    | false => exact le_rfl

/-- A step out of p bounds the metric of the state it reaches. -/
theorem metricOf_nextMetrics_le (pm : List Metric) (y : List Byte) (p : Trellis) (b : Bool) :
    (metricOf (nextMetrics pm y) (nextState (stepRegister p b))).toENat ≤
      (metricOf pm p).toENat + branchMetric y (stepRegister p b) := by
  obtain ⟨hpred, hreg⟩ := predecessor_nextState p b
  have hle := candidate_decision_le pm y (nextState (stepRegister p b)) (p.getLsbD 3)
  rwa [← metricOf_nextMetrics, candidate, hpred, hreg, Metric.toENat_plus] at hle

/-- A finite metric after a step is that of the recorded predecessor and the branch metric of the transition. -/
theorem metricOf_nextMetrics_eq_some {pm : List Metric} {y : List Byte} {s : Trellis} {m : Nat}
    (h : metricOf (nextMetrics pm y) s = some m) :
    ∃ k, metricOf pm (predecessor s (decision pm y s)) = some k ∧
      k + branchMetric y (incomingRegister s (decision pm y s)) = m := by
  rw [metricOf_nextMetrics] at h
  exact Option.map_eq_some_iff.mp h

theorem traceback_decisions (pm : List Metric) (y : List Byte) (record : List (List Bool)) (s : Trellis)
    (out : List Byte) :
    traceback (decisions pm y :: record) s out =
      traceback record (predecessor s (decision pm y s)) (hardBit (s.getLsbD 0) :: out) := by
  rw [traceback, List.getD_eq_getElem?_getD, getElem?_decisions, Option.getD_some]

end Sys2Proof.Machine

/-! # Survivor paths (R224 to R228)
What the metrics and the decision record hold after any number of steps, kept by every step; then the state from which
each mode traces back. -/

namespace Sys2Proof.Machine

/-! The invariant of the recursion. -/

/-- The input sequence u is a path into state s, of cost m against the samples z, and the record's traceback from s
gives it. -/
structure TracedPath (z : List Byte) (record : List (List Bool)) (s : Trellis) (m : Nat) (u : List Bool) : Prop where
  steps : z.length = 4 * u.length
  ends : endState u = s
  cost : pathCost u z = m
  traced : ∀ out, traceback record s out = u.map hardBit ++ out

/-- After the samples z: a finite metric is the cost of the path that its state's traceback gives, and no path into a
state costs less than the state's metric. -/
structure Survivors (z : List Byte) (pm : List Metric) (record : List (List Bool)) : Prop where
  /-- The traceback from a state of finite metric gives a path into it, of that cost. -/
  traced : ∀ {s m}, metricOf pm s = some m → ∃ u, TracedPath z record s m u
  /-- The metric of a state bounds the cost of every path into it from below. -/
  least : ∀ {v : List Bool}, z.length = 4 * v.length → (metricOf pm (endState v)).toENat ≤ pathCost v z

/-- Before the first step, the empty path into state 0 is the only one (R225). -/
theorem survivors_initial : Survivors [] initialMetrics [] where
  traced {s m} h := by
    rw [metricOf_initialMetrics] at h
    obtain ⟨rfl, rfl⟩ : s = 0 ∧ 0 = m := by simpa using h
    exact ⟨[], rfl, rfl, rfl, fun _ => rfl⟩
  least {v} h := by
    obtain rfl : v = [] := List.eq_nil_of_length_eq_zero (by simpa using h.symm)
    exact le_rfl

section Step

variable {z y : List Byte} {pm : List Metric} {record : List (List Bool)}

/-- The path into a state is its recorded predecessor's path with the state's newest bit. -/
theorem Survivors.traced_next (h : Survivors z pm record) (hy : y.length = 4) {s : Trellis} {m : Nat}
    (hm : metricOf (nextMetrics pm y) s = some m) :
    ∃ u, TracedPath (z ++ y) (decisions pm y :: record) s m u := by
  obtain ⟨k, hpred, hsum⟩ := metricOf_nextMetrics_eq_some hm
  obtain ⟨u, hlen, hend, hcost, htrace⟩ := h.traced hpred
  refine ⟨u ++ [s.getLsbD 0], ?_, ?_, ?_, fun out => ?_⟩
  · rw [List.length_append, List.length_append, hlen, hy, List.length_singleton, Nat.mul_add]
  · rw [endState_concat, hend, stepRegister_predecessor, nextState_incomingRegister]
  · rw [pathCost_concat hlen, hend, stepRegister_predecessor, hcost, hsum]
  · rw [traceback_decisions, htrace, List.map_append, List.append_assoc]
    rfl

/-- Every path of one more step is a path so far and one of the compared transitions. -/
theorem Survivors.least_next (h : Survivors z pm record) (hy : y.length = 4) {v : List Bool}
    (hv : (z ++ y).length = 4 * v.length) :
    (metricOf (nextMetrics pm y) (endState v)).toENat ≤ pathCost v (z ++ y) := by
  rw [List.length_append, hy] at hv
  obtain rfl | ⟨w, b, rfl⟩ := v.eq_nil_or_concat'
  · simp at hv
  · have hlen : z.length = 4 * w.length := by
      rw [List.length_append, List.length_singleton] at hv
      omega
    rw [endState_concat, pathCost_concat hlen, Nat.cast_add]
    exact (metricOf_nextMetrics_le pm y (endState w) b).trans (add_le_add_left (h.least hlen) _)

theorem Survivors.next (h : Survivors z pm record) (hy : y.length = 4) :
    Survivors (z ++ y) (nextMetrics pm y) (decisions pm y :: record) where
  traced := h.traced_next hy
  least := h.least_next hy

end Step

theorem Survivors.forwardPass {z rest : List Byte} {pm : List Metric} {record : List (List Bool)}
    (h : Survivors z pm record) {n : Nat} (hlen : rest.length = 4 * n) :
    Survivors (z ++ rest) (forwardPass rest pm record).1 (forwardPass rest pm record).2 := by
  induction n generalizing z rest pm record with
  | zero =>
    obtain rfl := List.eq_nil_of_length_eq_zero hlen
    rwa [List.append_nil]
  | succ n ih =>
    match rest, hlen with
    | y0 :: y1 :: y2 :: y3 :: rest, hlen =>
      have hrest : rest.length = 4 * n := by
        simp only [List.length_cons] at hlen
        omega
      have hall := ih (h.next (y := [y0, y1, y2, y3]) rfl) hrest
      rwa [List.append_assoc] at hall

/-! From the invariant to the decoder. -/

/-- The metrics after all samples. -/
def finalMetrics (y : List Byte) : List Metric := (forwardPass y initialMetrics []).1

/-- The decision record after all samples, newest step first. -/
def decisionRecord (y : List Byte) : List (List Bool) := (forwardPass y initialMetrics []).2

theorem viterbi_eq (final : List Metric → Trellis) (y : List Byte) :
    viterbi final y = (traceback (decisionRecord y) (final (finalMetrics y)) [],
      metricOf (finalMetrics y) (final (finalMetrics y))) :=
  rfl

section Decoder

variable {n : Nat} {y : List Byte}

theorem survivors_final (hy : y.length = 4 * n) : Survivors y (finalMetrics y) (decisionRecord y) :=
  survivors_initial.forwardPass hy

/-- No path costs less than the final metric of the state it ends in. -/
theorem metricOf_finalMetrics_le (hy : y.length = 4 * n) {v : List Bool} (hv : v.length = n) :
    (metricOf (finalMetrics y) (endState v)).toENat ≤ pathCost v y :=
  (survivors_final hy).least (hv ▸ hy)

/-- From a final state whose metric is at most state 0's, the decoder gives a path into that state and its cost: the
metric of state 0 is finite, as the all-zero path ends there (R225). -/
theorem exists_viterbi_path {final : List Metric → Trellis} (hy : y.length = 4 * n)
    (hfinal : (metricOf (finalMetrics y) (final (finalMetrics y))).toENat ≤ (metricOf (finalMetrics y) 0).toENat) :
    ∃ u : List Bool, u.length = n ∧ endState u = final (finalMetrics y) ∧
      metricOf (finalMetrics y) (endState u) = some (pathCost u y) ∧
      viterbi final y = (u.map hardBit, some (pathCost u y)) := by
  have hzeros := metricOf_finalMetrics_le hy (List.length_replicate (n := n) (a := false))
  rw [endState_replicate_false] at hzeros
  obtain ⟨m, hm⟩ := Metric.eq_some_of_toENat_le (hfinal.trans hzeros)
  obtain ⟨u, hlen, hend, rfl, htrace⟩ := (survivors_final hy).traced hm
  refine ⟨u, by omega, hend, hend ▸ hm, ?_⟩
  rw [viterbi_eq, hm, htrace, List.append_nil]

end Decoder

/-! The least metric, the lowest-numbered state on a tie (R227). -/

/-- What VIT.MIN minimises: the metric first, then the state's number. -/
def stateRank (pm : List Metric) (s : Trellis) : ℕ∞ ×ₗ ℕ := toLex ((metricOf pm s).toENat, s.toNat)

/-- VIT.MIN's choice between the best state so far and the next one. -/
def selectState (pm : List Metric) (best s : Trellis) : Trellis :=
  if (metricOf pm s).less (metricOf pm best) then s else best

theorem leastState_eq_foldl (pm : List Metric) : leastState pm = trellisStates.foldl (selectState pm) 0 := rfl

theorem selectState_eq_or (pm : List Metric) (best s : Trellis) :
    selectState pm best s = s ∨ selectState pm best s = best :=
  ite_eq_or_eq ..

/-- Keeping the lower-numbered state unless the other has a lesser metric keeps the lower rank. -/
theorem stateRank_selectState_le (pm : List Metric) {best s : Trellis} (h : best.toNat ≤ s.toNat) :
    stateRank pm (selectState pm best s) ≤ stateRank pm best ∧
      stateRank pm (selectState pm best s) ≤ stateRank pm s := by
  simp only [selectState, Metric.less_iff]
  split
  · next hlt => exact ⟨Prod.Lex.toLex_le_toLex.mpr (.inl hlt), le_rfl⟩
  · next hle =>
    refine ⟨le_rfl, Prod.Lex.toLex_le_toLex.mpr ?_⟩
    exact (not_lt.mp hle).lt_or_eq.imp_right fun heq => ⟨heq, h⟩

/-- Going through states of rising number, the selection ends with one of least rank. -/
theorem stateRank_foldl_le (pm : List Metric) {states : List Trellis} {best : Trellis}
    (hsorted : (best :: states).Pairwise (·.toNat ≤ ·.toNat)) {s : Trellis} (hs : s ∈ best :: states) :
    stateRank pm (states.foldl (selectState pm) best) ≤ stateRank pm s := by
  induction states generalizing best s with
  | nil => rw [List.mem_singleton.mp hs]; exact le_rfl
  | cons next states ih =>
    obtain ⟨hbest, hrest⟩ := List.pairwise_cons.mp hsorted
    obtain ⟨hle, hle'⟩ := stateRank_selectState_le pm (hbest next List.mem_cons_self)
    have hsorted' : (selectState pm best next :: states).Pairwise (·.toNat ≤ ·.toNat) := by
      rcases selectState_eq_or pm best next with heq | heq <;> rw [heq]
      · exact hrest
      · exact hsorted.sublist (.cons_cons _ (.cons _ (.refl _)))
    have hchosen := ih hsorted' List.mem_cons_self
    rcases List.mem_cons.mp hs with rfl | hs
    · exact hchosen.trans hle
    rcases List.mem_cons.mp hs with rfl | hs
    · exact hchosen.trans hle'
    · exact ih hsorted' (List.mem_cons_of_mem _ hs)

theorem mem_trellisStates (s : Trellis) : s ∈ trellisStates := by
  revert s; decide

theorem stateRank_leastState_le (pm : List Metric) (s : Trellis) : stateRank pm (leastState pm) ≤ stateRank pm s := by
  rw [leastState_eq_foldl]
  exact stateRank_foldl_le pm (by decide) (List.mem_cons_of_mem _ (mem_trellisStates s))

/-- No state has a lesser metric, and none of the same metric a lower number. -/
theorem leastState_le (pm : List Metric) (s : Trellis) :
    (metricOf pm (leastState pm)).toENat ≤ (metricOf pm s).toENat ∧
      ((metricOf pm (leastState pm)).toENat = (metricOf pm s).toENat → (leastState pm).toNat ≤ s.toNat) := by
  rcases Prod.Lex.toLex_le_toLex.mp (stateRank_leastState_le pm s) with hlt | ⟨heq, hle⟩
  · exact ⟨hlt.le, fun heq => absurd heq hlt.ne⟩
  · exact ⟨heq.le, fun _ => hle⟩

end Sys2Proof.Machine

/-! # VIT (R227, R229 to R232)
Maximum likelihood in both modes, its consequences, and the command as its length checks followed by the shared checks
and read. -/

namespace Sys2Proof.Machine

/-! The decoded path. -/

/-- Settles O53: the survivor path into state 0, whose metric bounds every path that ends there. -/
theorem viterbiZeroIsMaximumLikelihood : Obligations.ViterbiZeroIsMaximumLikelihood := by
  unfold Obligations.ViterbiZeroIsMaximumLikelihood
  intro n y hy
  obtain ⟨u, hlen, hend, hmetric, hviterbi⟩ := exists_viterbi_path (final := flushState) hy le_rfl
  refine ⟨u, hlen, hend, hviterbi, fun v hv hzero => ?_⟩
  have hle := metricOf_finalMetrics_le hy hv
  rw [hzero.trans hend.symm, hmetric, Metric.toENat_some] at hle
  exact_mod_cast hle

/-- Settles O54: the survivor path into the state VIT.MIN picks, whose metric is least among the states'
(leastState_le), each of which bounds the paths that end there. -/
theorem viterbiMinIsMaximumLikelihood : Obligations.ViterbiMinIsMaximumLikelihood := by
  unfold Obligations.ViterbiMinIsMaximumLikelihood
  intro n y hy
  obtain ⟨u, hlen, hend, hmetric, hviterbi⟩ :=
    exists_viterbi_path (final := leastState) hy (leastState_le _ 0).1
  refine ⟨u, hlen, hviterbi, fun v hv => ?_⟩
  obtain ⟨hleast, htie⟩ := leastState_le (finalMetrics y) (endState v)
  have hbound := metricOf_finalMetrics_le hy hv
  rw [← hend, hmetric, Metric.toENat_some] at hleast htie
  refine ⟨by exact_mod_cast hleast.trans hbound, fun heq => htie (hleast.antisymm ?_)⟩
  rwa [heq] at hbound

/-- In both modes the decoder gives a path of n bits and its cost, and no path that ends in state 0 costs less. -/
theorem exists_viterbi_path_of_mode {n : Nat} {y : List Byte} {final : List Metric → Trellis}
    (hfinal : final = flushState ∨ final = leastState) (hy : y.length = 4 * n) :
    ∃ u : List Bool, u.length = n ∧ viterbi final y = (u.map hardBit, some (pathCost u y)) ∧
      ∀ v : List Bool, v.length = n → endState v = 0 → pathCost u y ≤ pathCost v y := by
  rcases hfinal with rfl | rfl
  · obtain ⟨u, hlen, -, hviterbi, hleast⟩ := viterbiZeroIsMaximumLikelihood n y hy
    exact ⟨u, hlen, hviterbi, hleast⟩
  · obtain ⟨u, hlen, hviterbi, hleast⟩ := viterbiMinIsMaximumLikelihood n y hy
    exact ⟨u, hlen, hviterbi, fun v hv _ => (hleast v hv).1⟩

/-- Settles O52: the metric is the cost of a path of n steps. -/
theorem pathMetricsAreBounded : Obligations.PathMetricsAreBounded := by
  unfold Obligations.PathMetricsAreBounded
  intro n y final hfinal hy
  obtain ⟨u, rfl, hviterbi, -⟩ := exists_viterbi_path_of_mode hfinal hy
  exact ⟨_, congrArg Prod.snd hviterbi, pathCost_le u y⟩

/-- Settles O55: the sequence ends in state 0 with cost 0, so the decoder's path has cost 0 too, and only the sequence
itself has (pathCost_codeword_eq_zero_iff). -/
theorem errorFreeCodewordsDecode : Obligations.ErrorFreeCodewordsDecode := by
  unfold Obligations.ErrorFreeCodewordsDecode
  intro u hlen hzero final hfinal
  obtain ⟨v, hv, hviterbi, hleast⟩ :=
    exists_viterbi_path_of_mode (y := (conv u).map fun b => if b then 0xFF else 0x00) hfinal
      (by rw [List.length_map, conv_length])
  have hcost := hleast u rfl (endState_of_terminated hlen hzero)
  rw [(pathCost_codeword_eq_zero_iff rfl).mpr rfl, Nat.le_zero] at hcost
  rw [hviterbi, hcost, (pathCost_codeword_eq_zero_iff hv).mp hcost]

/-! The command. -/

section Vit

variable {s : State} {final : List Metric → Trellis}

/-- The lengths VIT accepts (R231). -/
abbrev VitLengths (s : State) : Prop := s.argNat 1 ≠ 0 ∧ s.argNat 1 % 4 = 0 ∧ s.argNat 3 ≤ s.argNat 1 / 4

theorem viterbiCommand_of_bad_lengths (h : ¬VitLengths s) :
    viterbiCommand final s = .next (s.raiseErr .invalidArgument) := by
  rw [viterbiCommand]
  split
  · rfl
  · next hn => exact if_pos (by omega)

/-- With lengths it accepts, VIT is the shared checks and read, with no value check. -/
theorem viterbiCommand_of_lengths (h : VitLengths s) :
    viterbiCommand final s = checkThenRead s (s.argNat 0) (s.argNat 1) (s.argNat 2) (s.argNat 3)
      fun y => .next (s.complete (s.argNat 2) ((viterbi final y).1.take (s.argNat 3)) (s.argNat 3)
        ((viterbi final y).2.getD 0)) := by
  obtain ⟨hpos, hmod, hout⟩ := h
  exact (if_neg (by omega)).trans (if_neg (by omega))

end Vit

/-- Settles O13: the length checks, then checkThenRead_ends; what is decoded is a path, whose cost is the metric. -/
theorem vitRule : Obligations.VitRule := by
  unfold Obligations.VitRule
  intro s i final hmode src n dst m lengths fits apart
  have hexec : exec i s = viterbiCommand final s := by
    rcases hmode with ⟨rfl, rfl⟩ | ⟨rfl, rfl⟩ <;> rfl
  have hcommand (hlengths : lengths) := hexec.trans (viterbiCommand_of_lengths hlengths)
  have hends (hlengths : lengths) := checkThenRead_ends (hcommand hlengths)
  refine ⟨fun hlengths => ⟨_, hexec.trans (viterbiCommand_of_bad_lengths hlengths), raiseErr_failsWith _ _⟩,
    fun hlengths => (hends hlengths).1, fun hlengths => (hends hlengths).2.1, fun hlengths => (hends hlengths).2.2,
    fun y hlen hholds hlengths hfit hapart => ?_⟩
  have hread := (hcommand hlengths).trans (checkThenRead_of_holds hfit hapart hlen hholds)
  have hsteps : y.length = 4 * (n / 4) := by
    obtain ⟨-, hmod, -⟩ := hlengths
    omega
  obtain ⟨u, hu, hviterbi, -⟩ := exists_viterbi_path_of_mode (hmode.imp And.right And.right) hsteps
  rw [hviterbi] at hread ⊢
  exact ⟨_, hread, pathCost u y, rfl, by rw [List.length_map, hu], complete_succeeds _ _ _ _ _,
    complete_writesOnly _ _ _ _ _⟩

end Sys2Proof.Machine

/-! # The CRC register (R260, R261)
A step is linear in the register and the bit together, and loses neither. So the register after a message and its CRC
bits is one constant, and no single bit can change without changing the register. -/

namespace Sys2Proof.Machine

/-- A step sees only the lowest bit of its element; the polynomial comes in where it differs from the register's. -/
theorem crcStep_eq (c : BitVec 16) (b : Byte) :
    crcStep c b = (c >>> 1) ^^^ (if b.getLsbD 0 ^^ c.getLsbD 0 then crcPoly else 0) := by
  have hlow (x : BitVec 16) : x &&& 1 = 1 ↔ x.getLsbD 0 = true := by
    refine (Eq.congr_left BitVec.and_one_eq_setWidth_ofBool_getLsbD).trans ?_
    cases x.getLsbD 0 <;> decide
  simp only [crcStep, hlow, BitVec.getLsbD_xor, BitVec.getLsbD_setWidth, BitVec.zeroExtend, Nat.zero_lt_succ,
    decide_true, Bool.true_and]

/-! A step is linear. -/

theorem crcStep_xor (c d : BitVec 16) (a b : Byte) :
    crcStep (c ^^^ d) (a ^^^ b) = crcStep c a ^^^ crcStep d b := by
  have hpoly (p q : Bool) :
      (if p ^^ q then crcPoly else 0) = (if p then crcPoly else 0) ^^^ (if q then crcPoly else 0) := by
    cases p <;> cases q <;> decide
  have hbits : ((a ^^^ b).getLsbD 0 ^^ (c ^^^ d).getLsbD 0) =
      ((a.getLsbD 0 ^^ c.getLsbD 0) ^^ (b.getLsbD 0 ^^ d.getLsbD 0)) := by
    simp only [BitVec.getLsbD_xor, Bool.xor_assoc, Bool.xor_left_comm]
  simp only [crcStep_eq, hbits, hpoly, BitVec.ushiftRight_xor_distrib]
  ac_rfl

/-- A register fed its own lowest bit only shifts. -/
theorem crcStep_self (c : BitVec 16) (j : Nat) : crcStep (c >>> j) (hardBit (c.getLsbD j)) = c >>> (j + 1) := by
  have hbit : (hardBit (c.getLsbD j)).getLsbD 0 = (c >>> j).getLsbD 0 := by
    rw [BitVec.getLsbD_ushiftRight]
    cases c.getLsbD j <;> rfl
  rw [crcStep_eq, hbit, Bool.xor_self, ← BitVec.shiftRight_add]
  exact BitVec.xor_zero

/-- Fed the low bits of c ^^^ x, the register c is shifted out; what is left is what x makes of the register 0. -/
theorem foldl_crcStep_bits_xor (c x : BitVec 16) (j : Nat) :
    ((List.range j).map fun i => hardBit ((c ^^^ x).getLsbD i)).foldl crcStep c =
      (c >>> j) ^^^ ((List.range j).map fun i => hardBit (x.getLsbD i)).foldl crcStep 0 := by
  induction j with
  | zero => simp
  | succ j ih =>
    simp only [List.range_succ, List.map_append, List.foldl_append, ih, List.map_cons, List.map_nil, List.foldl_cons,
      List.foldl_nil]
    rw [BitVec.getLsbD_xor, hardBit_xor, crcStep_xor, crcStep_self]

/-- The CRC over a message and its own CRC bits is a constant (R264). -/
theorem crc16_append_crcbits (m : List Byte) : crc16 (m ++ crcbits m) = 0x0F47 := by
  have hones : ((List.range 16).map fun i => hardBit (crcXorOut.getLsbD i)).foldl crcStep 0 = 0xF0B8 := by decide
  have hregister : crcRegister (m ++ crcbits m) = 0xF0B8 :=
    calc crcRegister (m ++ crcbits m)
        = (crcbits m).foldl crcStep (crcRegister m) := List.foldl_append
      _ = (crcRegister m >>> 16) ^^^ 0xF0B8 := by rw [← hones]; exact foldl_crcStep_bits_xor _ _ _
      _ = 0xF0B8 := by rw [BitVec.ushiftRight_eq_zero le_rfl, BitVec.zero_xor]
  rw [crc16, hregister]
  rfl

/-! A step loses nothing. -/

/-- The polynomial's highest bit enters where the shifted register has 0, so it shows whether the polynomial came in. -/
theorem msb_crcStep (c : BitVec 16) (b : Byte) : (crcStep c b).getLsbD 15 = (b.getLsbD 0 ^^ c.getLsbD 0) := by
  rw [crcStep_eq, BitVec.getLsbD_xor, BitVec.getLsbD_ushiftRight, BitVec.getLsbD_of_ge c (1 + 15) le_rfl,
    Bool.false_xor]
  cases b.getLsbD 0 ^^ c.getLsbD 0 <;> decide

theorem crcStep_injective (b : Byte) : Function.Injective (crcStep · b) := by
  intro c d (h : crcStep c b = crcStep d b)
  have hfeedback : (b.getLsbD 0 ^^ c.getLsbD 0) = (b.getLsbD 0 ^^ d.getLsbD 0) := by
    rw [← msb_crcStep, h, msb_crcStep]
  have hlow : c.getLsbD 0 = d.getLsbD 0 := Bool.xor_right_inj.mp hfeedback
  have hhigh : c >>> 1 = d >>> 1 := by
    rw [crcStep_eq, crcStep_eq, hfeedback] at h
    exact (BitVec.xor_left_inj _).mp h
  refine BitVec.eq_of_getLsbD_eq fun i _ => ?_
  cases i with
  | zero => exact hlow
  | succ i => simpa [Nat.add_comm] using congrArg (·.getLsbD i) hhigh

theorem foldl_crcStep_injective (m : List Byte) : Function.Injective (m.foldl crcStep) := by
  induction m with
  | nil => exact fun _ _ h => h
  | cons b m ih => exact ih.comp (crcStep_injective b)

/-- Changing an element's lowest bit changes the highest bit of the next register. -/
theorem crcStep_flip_ne (c : BitVec 16) (b : Byte) : crcStep c (b ^^^ 1) ≠ crcStep c b := by
  intro h
  have hmsb := congrArg (BitVec.getLsbD · 15) h
  rw [msb_crcStep, msb_crcStep, BitVec.getLsbD_xor] at hmsb
  simp at hmsb

theorem foldl_crcStep_modify_ne {m : List Byte} {k : Nat} (hk : k < m.length) (c : BitVec 16) :
    (m.modify k (· ^^^ 1)).foldl crcStep c ≠ m.foldl crcStep c := by
  induction m generalizing c k with
  | nil => exact absurd hk (Nat.not_lt_zero k)
  | cons b m ih =>
    cases k with
    | zero => exact (foldl_crcStep_injective m).ne (crcStep_flip_ne c b)
    | succ k => exact ih (Nat.lt_of_succ_lt_succ hk) (crcStep c b)

theorem crc16_modify_ne {m : List Byte} {k : Nat} (hk : k < m.length) : crc16 (m.modify k (· ^^^ 1)) ≠ crc16 m :=
  fun h => foldl_crcStep_modify_ne hk crcInit ((BitVec.xor_left_inj _).mp h)

/-- Settles O57: were the changed word a payload with its CRC bits, its CRC would be the constant of R264, as it was
before the change; but changing one bit changes the CRC (crc16_modify_ne). -/
theorem crcDetectsEverySingleBitChange : Obligations.CrcDetectsEverySingleBitChange := by
  unfold Obligations.CrcDetectsEverySingleBitChange
  intro b k _ hk v hmatch
  have hlen : k < (b ++ crcbits b).length := by rwa [List.length_append, crcbits_length]
  have hconstant : crc16 v = 0x0F47 :=
    calc crc16 v
        = crc16 (v.take b.length ++ crcbits (v.take b.length)) := by rw [hmatch, List.take_append_drop]
      _ = 0x0F47 := crc16_append_crcbits _
  exact crc16_modify_ne hlen (hconstant.trans (crc16_append_crcbits b).symm)

/-- On hard elements the register is the one R260 spells out. -/
theorem crcRegister_eq_of_hard {m : List Byte} (h : HardBits m) :
    crcRegister m = m.foldl
      (fun (c : BitVec 16) v => (c >>> 1) ^^^ (if c.getLsbD 0 = decide (v = 1) then 0 else 0x8408)) 0xFFFF := by
  refine List.foldl_ext _ _ _ fun c v hv => ?_
  have hbit : v.getLsbD 0 = decide (v = 1) := by
    rcases h v hv with rfl | rfl <;> rfl
  rw [crcStep_eq, hbit]
  cases c.getLsbD 0 <;> cases decide (v = 1) <;> rfl

end Sys2Proof.Machine

/-! # CRC16 and CRCCHK (R262, R263, R264) -/

namespace Sys2Proof.Machine

theorem exec_crc16 (s : State) : exec .crc16 s = checkThenRead s (s.argNat 0) (s.argNat 1) (s.argNat 2) 16
    fun m => requireHard s m (s.complete (s.argNat 2) (crcbits m) 16 (crc16 m).toNat) :=
  rfl

/-- Settles O14: the shared checks and read (checkThenRead_ends), then the value check; the CRC is R260's register
(crcRegister_eq_of_hard). -/
theorem crc16Rule : Obligations.Crc16Rule := by
  unfold Obligations.Crc16Rule
  intro s src n dst fits apart
  obtain ⟨haddress, hoverlap, huninit⟩ := checkThenRead_ends (exec_crc16 s)
  refine ⟨haddress, hoverlap, huninit, fun b hlen hholds hfit hapart => ?_⟩
  have hread := (exec_crc16 s).trans (checkThenRead_of_holds hfit hapart hlen hholds)
  constructor
  · intro hsoft
    exact ⟨_, hread.trans (requireHard_of_not_hard hsoft), raiseErr_failsWith _ _⟩
  · intro hhard
    rw [← crcRegister_eq_of_hard hhard]
    exact ⟨_, hread.trans (requireHard_of_hard hhard), complete_succeeds _ _ _ _ _, complete_writesOnly _ _ _ _ _⟩

/-! CRCCHK: one region is read, none is written. -/

section Crcchk

variable {s : State}

theorem exec_crcchk_of_unfit (hfit : ¬Fits s (s.argNat 0) (s.argNat 1 + 16)) :
    exec .crcchk s = .next (s.raiseErr .address) := by
  rw [← inRange_eq_false_iff, ← Bool.not_eq_true'] at hfit
  exact if_pos hfit

theorem exec_crcchk_of_unwritten (hfit : Fits s (s.argNat 0) (s.argNat 1 + 16))
    (hread : HasUnwritten s (s.argNat 0) (s.argNat 1 + 16)) : exec .crcchk s = .next s.meetUninit := by
  rw [← inRange_iff] at hfit
  rw [← readRange_iff_unwritten] at hread
  simp [exec, execCrcchk, hfit, hread]

/-- What is read is the payload and the received bits, so past the value check these two are compared. -/
theorem exec_crcchk_of_holds {b rx : List Byte} (hfit : Fits s (s.argNat 0) (s.argNat 1 + 16))
    (hlen : b.length = s.argNat 1) (hrx : rx.length = 16) (hholds : Holds s (s.argNat 0) (b ++ rx)) :
    exec .crcchk s = requireHard s (b ++ rx)
      ((s.complete 0 [] 0 (crc16 b).toNat).setCrcOk (crcOkFlag (crcbits b) rx)) := by
  rw [← inRange_iff] at hfit
  have hread : s.dmem.readRange (s.argNat 0) (s.argNat 1 + 16) = some (b ++ rx) :=
    readRange_iff_holds.mpr ⟨by rw [List.length_append, hlen, hrx], hholds⟩
  simp [exec, execCrcchk, requireHard, hfit, hread, List.take_left' hlen, List.drop_left' hlen]

end Crcchk

/-- Settles O15: a lemma for each check and for what follows the read. -/
theorem crcchkRule : Obligations.CrcchkRule := by
  unfold Obligations.CrcchkRule
  intro s src n fits
  refine ⟨fun hfit => ⟨_, exec_crcchk_of_unfit hfit, raiseErr_failsWith _ _⟩,
    fun hfit hread => ⟨_, exec_crcchk_of_unwritten hfit hread, meetUninit_meets _⟩,
    fun b rx hlen hrx hholds hfit => ?_⟩
  have hread := exec_crcchk_of_holds hfit hlen hrx hholds
  constructor
  · intro hsoft
    exact ⟨_, hread.trans (requireHard_of_not_hard hsoft), raiseErr_failsWith _ _⟩
  · intro hhard
    exact ⟨_, hread.trans (requireHard_of_hard hhard), rfl, rfl⟩

theorem hardBits_crcbits (m : List Byte) : HardBits (crcbits m) := by
  intro b hb
  obtain ⟨i, -, rfl⟩ := List.mem_map.mp hb
  cases (crc16 m).getLsbD i
  · exact .inl rfl
  · exact .inr rfl

/-- Settles O56: the rule of CRCCHK (O15) where the received bits are the payload's own; and the constant of R264. -/
theorem appendedCrcIsAccepted : Obligations.AppendedCrcIsAccepted := by
  unfold Obligations.AppendedCrcIsAccepted
  refine ⟨fun s b hlen hhard hholds hfit => ?_, fun b _ => crc16_append_crcbits b⟩
  have hboth : HardBits (b ++ crcbits b) := List.forall_mem_append.mpr ⟨hhard, hardBits_crcbits b⟩
  obtain ⟨-, -, hreads⟩ := crcchkRule s
  obtain ⟨-, hcompare⟩ := hreads b (crcbits b) hlen (crcbits_length b) hholds hfit
  obtain ⟨t, hexec, hends, -⟩ := hcompare hboth
  refine ⟨t, hexec, ?_, congrArg (·.status.err) hends⟩
  exact (congrArg (·.status.crcOk) hends).trans (decide_eq_true rfl)

end Sys2Proof.Machine

/-! # Bits accumulated most significant first (R283, R284)
uintValue reads a hard list as a number, bit by bit; a packed byte is the number of its group of eight. -/

namespace Sys2Proof.Machine

theorem toNat_le_one_of_hard {b : Byte} (h : b = 0 ∨ b = 1) : b.toNat ≤ 1 := by
  rcases h with rfl | rfl <;> decide

/-- One more bit doubles the number and adds the bit (R284). -/
theorem uintValue_concat (x : List Byte) {b : Byte} (hb : b = 0 ∨ b = 1) :
    uintValue (x ++ [b]) = 2 * uintValue x + b.toNat := by
  have hlow : b.toNat < 2 ^ 1 := Nat.lt_succ_of_le (toNat_le_one_of_hard hb)
  rw [uintValue, List.foldl_concat, ← Nat.shiftLeft_add_eq_or_of_lt hlow, Nat.shiftLeft_eq, Nat.mul_comm]
  rfl

/-- Σ_j x[j] · 2^(LEN - 1 - j) (R284). -/
def positionalValue (x : List Byte) : Nat :=
  ((List.range x.length).map fun j => (x.getD j 0).toNat * 2 ^ (x.length - 1 - j)).sum

theorem positionalValue_concat (x : List Byte) (b : Byte) :
    positionalValue (x ++ [b]) = 2 * positionalValue x + b.toNat := by
  have hplace (j : Nat) (hj : j ∈ List.range x.length) :
      ((x ++ [b]).getD j 0).toNat * 2 ^ (x.length - j) = 2 * ((x.getD j 0).toNat * 2 ^ (x.length - 1 - j)) := by
    have hlt := List.mem_range.mp hj
    rw [List.getD_append _ _ _ _ hlt, show x.length - j = x.length - 1 - j + 1 by omega, Nat.pow_succ]
    ring
  rw [positionalValue, positionalValue, ← List.sum_map_mul_left, ← List.map_congr_left hplace]
  simp [List.range_succ]

theorem uintValue_eq_positionalValue {x : List Byte} (h : HardBits x) : uintValue x = positionalValue x := by
  induction x using List.reverseRecOn with
  | nil => rfl
  | append_singleton x b ih =>
    obtain ⟨hx, hb⟩ := List.forall_mem_append.mp h
    rw [uintValue_concat x (hb b (List.mem_singleton_self b)), positionalValue_concat, ih hx]

theorem uintValue_lt {x : List Byte} (h : HardBits x) : uintValue x < 2 ^ x.length := by
  induction x using List.reverseRecOn with
  | nil => exact Nat.one_pos
  | append_singleton x b ih =>
    obtain ⟨hx, hb⟩ := List.forall_mem_append.mp h
    have hb := hb b (List.mem_singleton_self b)
    have hvalue := ih hx
    have hbit := toNat_le_one_of_hard hb
    rw [uintValue_concat x hb, List.length_append, List.length_singleton, Nat.pow_succ]
    omega

/-- Settles O58: both sides double and add as a bit is appended (uintValue_concat, positionalValue_concat). -/
theorem uintFieldIsPositional : Obligations.UintFieldIsPositional := by
  unfold Obligations.UintFieldIsPositional
  exact fun x hx => ⟨uintValue_eq_positionalValue hx, uintValue_lt hx, rfl, rfl⟩

/-- The number's bits are the list's, the last element the lowest. -/
theorem testBit_uintValue {x : List Byte} (h : HardBits x) {j : Nat} (hj : j < x.length) :
    (uintValue x).testBit (x.length - 1 - j) = decide (x.getD j 0 = 1) := by
  induction x using List.reverseRecOn generalizing j with
  | nil => exact absurd hj (Nat.not_lt_zero j)
  | append_singleton x b ih =>
    obtain ⟨hx, hb⟩ := List.forall_mem_append.mp h
    have hb := hb b (List.mem_singleton_self b)
    have hbit := toNat_le_one_of_hard hb
    rw [uintValue_concat x hb, List.length_append, List.length_singleton, Nat.add_sub_cancel]
    rcases Nat.lt_succ_iff_lt_or_eq.mp (by simpa using hj) with hlt | rfl
    · have hhalf : (2 * uintValue x + b.toNat) / 2 = uintValue x := by omega
      rw [List.getD_append _ _ _ _ hlt, ← ih hx hlt, show x.length - j = x.length - 1 - j + 1 by omega,
        Nat.testBit_add_one, hhalf]
    · rcases hb with rfl | rfl <;> simp [Nat.testBit_zero]

/-- The group of eight of byte k, with 0 past the end of the list (R283). -/
def byteGroup (x : List Byte) (k : Nat) : List Byte := (List.range 8).map fun j => x.getD (8 * k + j) 0

theorem hardBits_byteGroup {x : List Byte} (h : HardBits x) (k : Nat) : HardBits (byteGroup x k) := by
  intro b hb
  obtain ⟨j, -, rfl⟩ := List.mem_map.mp hb
  exact hard_getD h _

/-- A packed byte is its group read as a number. -/
theorem packedByte_eq_uintValue {x : List Byte} (h : HardBits x) (k : Nat) :
    packedByte x k = BitVec.ofNat 8 (uintValue (byteGroup x k)) := by
  rw [uintValue_eq_positionalValue (hardBits_byteGroup h k)]
  simp [packedByte, positionalValue, byteGroup, List.range_succ, Nat.shiftLeft_eq]

theorem packedByte_getLsbD {x : List Byte} (h : HardBits x) (k : Nat) {j : Nat} (hj : j < 8) :
    (packedByte x k).getLsbD (7 - j) = decide (x.getD (8 * k + j) 0 = 1) := by
  have hlen : (byteGroup x k).length = 8 := by simp [byteGroup]
  have hget : (byteGroup x k).getD j 0 = x.getD (8 * k + j) 0 := by
    simp [byteGroup, List.getD_eq_getElem?_getD, hj]
  have hbit := testBit_uintValue (hardBits_byteGroup h k) (hlen ▸ hj)
  rw [hlen, hget] at hbit
  rw [packedByte_eq_uintValue h, BitVec.getLsbD_ofNat, decide_eq_true (show 7 - j < 8 by omega), Bool.true_and]
  exact hbit

/-- Only a place of the list holds a 1. -/
theorem lt_length_of_getD_eq_one {x : List Byte} {i : Nat} (h : x.getD i 0 = 1) : i < x.length := by
  by_contra hout
  rw [List.getD_eq_default _ _ (not_lt.mp hout)] at h
  exact absurd h (by decide)

/-- Settles O59: the bits of a packed byte are those of its group's number (packedByte_getLsbD). -/
theorem packedBytesAreMsbFirst : Obligations.PackedBytesAreMsbFirst := by
  unfold Obligations.PackedBytesAreMsbFirst
  refine fun x hx => ⟨packBytes_length x, fun k j hk hj => ?_⟩
  have hbyte : (packBytes x).getD k 0 = packedByte x k := by
    simp [packBytes, List.getD_eq_getElem?_getD, hk]
  rw [hbyte, packedByte_getLsbD hx k hj, decide_eq_decide]
  exact (and_iff_right_of_imp lt_length_of_getD_eq_one).symm

end Sys2Proof.Machine

/-! # UNP's values and mismatches (R280, R281, R282, R287, R288)
What decodeFields, readDefaults and mismatchCount make of a schema, by field; then UNP past all its checks. -/

namespace Sys2Proof.Machine

/-! Where a field's bits and its value stand. -/

section Places

variable (desc : List Byte)

theorem bitOffset_succ (f : Nat) : bitOffset desc (f + 1) = bitOffset desc f + descLen desc f := by
  simp [bitOffset, List.range_succ]

/-- The slice of a field ends within the bits of all fields. -/
theorem bitOffset_add_descLen_le {f count : Nat} (hf : f < count) :
    bitOffset desc f + descLen desc f ≤ bitOffset desc count := by
  rw [← bitOffset_succ]
  exact monotone_nat_of_le_succ (fun g => bitOffset_succ desc g ▸ Nat.le_add_right _ _) hf

theorem fieldValue_eq_encodeValue (bits : List Byte) (f : Nat) : fieldValue desc bits f =
    encodeValue (descField desc f).kind ((bits.drop (bitOffset desc f)).take (descField desc f).len) := by
  simp only [fieldValue, encodeValue, descField, kindOf]
  by_cases h0 : descKind desc f = 0
  · simp only [if_pos h0]
  by_cases h1 : descKind desc f = 1
  · simp only [if_neg h0, if_pos h1]
  · simp only [if_neg h0, if_neg h1]

variable {desc}

theorem fieldValue_length {bits : List Byte} {count f : Nat} (htotal : bitOffset desc count = bits.length)
    (hf : f < count) : (fieldValue desc bits f).length = valueSize desc f := by
  have hend : bitOffset desc f + descLen desc f ≤ bits.length := htotal ▸ bitOffset_add_descLen_le desc hf
  have hslice : ((bits.drop (bitOffset desc f)).take (descField desc f).len).length = (descField desc f).len := by
    rw [List.length_take, List.length_drop]
    exact Nat.min_eq_left (Nat.le_sub_of_add_le' hend)
  rw [fieldValue_eq_encodeValue, encodeValue_length hslice, descField_size]

end Places

/-! The values of a schema, in order. -/

section Values

theorem decodeFields_append (fs gs : List Field) (bits : List Byte) :
    decodeFields (fs ++ gs) bits = decodeFields fs bits ++ decodeFields gs (bits.drop (totalBits fs)) := by
  induction fs generalizing bits with
  | nil => simp [decodeFields, totalBits]
  | cons f fs ih => simp [decodeFields, totalBits, ih]

/-- The values that the cursor of R288 yields are the fields' values by their offsets (R280). -/
theorem decodeFields_descFields (desc : List Byte) (count : Nat) (bits : List Byte) :
    decodeFields (descFields desc count) bits = (List.range count).map (fieldValue desc bits) := by
  induction count with
  | zero => rfl
  | succ count ih =>
    have hlast : descFields desc (count + 1) = descFields desc count ++ [descField desc count] := by
      simp [descFields, List.range_succ]
    rw [hlast, decodeFields_append, ih, totalBits_descFields, List.range_succ, List.map_append, List.map_singleton,
      fieldValue_eq_encodeValue]
    rfl

variable {desc bits : List Byte} {count : Nat}

theorem map_length_fieldValue (htotal : bitOffset desc count = bits.length) :
    ((List.range count).map (fieldValue desc bits)).map List.length = (List.range count).map (valueSize desc) := by
  rw [List.map_map]
  exact List.map_congr_left fun f hf => fieldValue_length htotal (List.mem_range.mp hf)

/-- The values together take W bytes (R281). -/
theorem length_flatten_fieldValue (htotal : bitOffset desc count = bits.length) :
    ((List.range count).map (fieldValue desc bits)).flatten.length = valueOffset desc count := by
  rw [← decodeFields_descFields, decodeFields_size (by rwa [totalBits_descFields]), totalSize_descFields]

/-- Among the values put one after another, that of field f stands at its offset (R281). -/
theorem fieldValue_at_valueOffset (htotal : bitOffset desc count = bits.length) {f : Nat} (hf : f < count) :
    (((List.range count).map (fieldValue desc bits)).flatten.drop (valueOffset desc f)).take (valueSize desc f) =
      fieldValue desc bits f := by
  have hoffset : valueOffset desc f =
      ((((List.range count).map (fieldValue desc bits)).map List.length).take f).sum := by
    rw [map_length_fieldValue htotal, ← List.map_take, List.take_range, Nat.min_eq_left hf.le, valueOffset]
  have hlt : f < ((List.range count).map (fieldValue desc bits)).length := by simpa using hf
  rw [hoffset, List.drop_sum_flatten, List.drop_eq_getElem_cons hlt, List.flatten_cons, List.getElem_map,
    List.getElem_range, ← fieldValue_length htotal hf, List.take_left]

end Values

/-! The defaults and the mismatches (R287). -/

/-- What a field's value is compared with: the bytes of its default region, where the field is constant. -/
def fieldDefault (m : Memory) (f : Field) : Option (List Byte) :=
  if f.isConst then m.readRange f.defAddr f.size else none

theorem readDefaults_of_written {s : State} {fs : List Field}
    (h : EveryConstant fs fun a k => ¬HasUnwritten s a k) :
    readDefaults s.dmem fs = some (fs.map (fieldDefault s.dmem)) := by
  induction fs with
  | nil => rfl
  | cons f fs ih =>
    obtain ⟨hf, hfs⟩ := List.forall_mem_cons.mp h
    rw [readDefaults, ih hfs, List.map_cons, fieldDefault]
    cases hconst : f.isConst with
    | false => rfl
    | true =>
      obtain ⟨d, hd⟩ := Option.ne_none_iff_exists'.mp (readRange_iff_unwritten.not.mpr (hf hconst))
      simp [hd]

/-- mismatchCount counts the places that have a default and a value other than it. -/
theorem mismatchCount_map {α : Type} (value : α → List Byte) (stored : α → Option (List Byte)) (l : List α) :
    mismatchCount (l.map value) (l.map stored) =
      (l.filter fun i => (stored i).isSome && decide (stored i ≠ some (value i))).length := by
  induction l with
  | nil => rfl
  | cons i l ih =>
    cases hd : stored i with
    | none => simp [mismatchCount, hd, ih]
    | some d =>
      by_cases heq : value i = d
      · simp [mismatchCount, hd, heq, ih]
      · simp [mismatchCount, hd, heq, Ne.symm heq, ih, Nat.add_comm]

theorem mismatchCount_descFields {s : State} {desc : List Byte} (bits : List Byte) {count : Nat}
    (h : ForConstants desc count fun a k => ¬HasUnwritten s a k) :
    mismatchCount (decodeFields (descFields desc count) bits) ((descFields desc count).map (fieldDefault s.dmem)) =
      mismatches s.dmem desc bits count := by
  rw [decodeFields_descFields, descFields, List.map_map, mismatchCount_map, mismatches]
  refine congrArg List.length (List.filter_congr fun f hf => ?_)
  have hdefault : fieldDefault s.dmem (descField desc f) =
      if descConst desc f then s.dmem.readRange (descDef desc f) (valueSize desc f) else none := by
    rw [fieldDefault, descField_size]
    rfl
  rw [Function.comp_apply, hdefault]
  cases hconst : descConst desc f with
  | false => rfl
  | true =>
    obtain ⟨d, hd⟩ := Option.ne_none_iff_exists'.mp
      (readRange_iff_unwritten.not.mpr (h f (List.mem_range.mp hf) hconst))
    simp [hd]

/-! Success (R288). -/

/-- Past its checks and reads, UNP writes the values of hard input bits and counts the mismatches (R288). -/
theorem unpackFields_of_hard {fs : List Field} {s : State} {bits : List Byte} {defaults : List (Option (List Byte))}
    (h : UnpPasses fs s) (hbits : s.dmem.readRange (s.argNat 0) (s.argNat 1) = some bits)
    (hdefaults : readDefaults s.dmem fs = some defaults) (hhard : HardBits bits) :
    let mism := mismatchCount (decodeFields fs bits) defaults
    unpackFields fs s = .next
      ((s.complete (s.argNat 4) (decodeFields fs bits).flatten (totalSize fs) mism).setPduValid (decide (mism = 0))) := by
  obtain ⟨hwide, htotal, hfit, hapart⟩ := h
  rw [← unpRegionsFit_iff] at hfit
  rw [← unpRegionsApart_iff] at hapart
  rw [← allHard_iff] at hhard
  simp only [unpackFields, if_neg hwide, if_neg (not_not.mpr htotal), if_neg hfit, if_neg hapart, hbits,
    hdefaults, hhard]
  rfl

/-- Settles O17: the values by field (decodeFields_descFields), their places in the output (fieldValue_at_valueOffset)
and the mismatches (mismatchCount_descFields), in the state that unpackFields_of_hard gives. -/
theorem unpUnpacks : Obligations.UnpUnpacks := by
  unfold Obligations.UnpUnpacks
  intro s desc bits src n sch count dst w mism hdesc hschema hschemaFit hlegal hnarrow htotal hsrc hdst hconst
    hapartSrc hapartSchema hlen hholds hhard
  simp only [ForConstants, imp_and, forall_and] at hconst
  obtain ⟨hconstFit, hconstApart, hwritten⟩ := hconst
  have hfit : UnpRegionsFit (descFields desc count) s := by
    rw [UnpRegionsFit, totalSize_descFields, everyConstant_descFields]
    exact ⟨hsrc, hdst, hconstFit⟩
  have hapart : UnpRegionsApart (descFields desc count) s := by
    rw [UnpRegionsApart, totalSize_descFields, everyConstant_descFields]
    exact ⟨hapartSrc, hapartSchema, hconstApart⟩
  have hpasses : UnpPasses (descFields desc count) s :=
    ⟨(not_any_tooWide_descFields hlegal).mpr hnarrow, (totalBits_descFields desc count).trans htotal, hfit, hapart⟩
  have hschemaOf := execUnp_of_schema hschemaFit (readRange_iff_holds.mpr ⟨hdesc, hschema⟩)
    (schemaOf_of_legal hdesc hlegal)
  have hunpack := unpackFields_of_hard hpasses (readRange_iff_holds.mpr ⟨hlen, hholds⟩)
    (readDefaults_of_written (everyConstant_descFields.mpr hwritten)) hhard
  rw [mismatchCount_descFields bits hwritten, decodeFields_descFields, totalSize_descFields] at hunpack
  have htotal : bitOffset desc count = bits.length := htotal.trans hlen.symm
  exact ⟨_, hschemaOf.trans hunpack, _, length_flatten_fieldValue htotal,
    fun f hf => fieldValue_at_valueOffset htotal hf, rfl, complete_writesOnly s dst _ w mism⟩

end Sys2Proof.Machine

/-! # How a block step ends (R320, R321, R322, R331)
A performance ends in an error completion, at MF_UNINIT or in a success; the successes of all commands agree on BUSY,
DONE, ERR and the model faults. -/

namespace Sys2Proof.Machine

/-- What every success leaves, whatever it writes: BUSY = 0, DONE = 1, ERR = OK, and no new model fault (R321). -/
structure CompletesOk (s t : State) : Prop where
  busy : t.status.busy = false
  done : t.status.done = true
  err : t.status.err = 0
  faults : t.faults = s.faults
  stuck : t.stuck = s.stuck

section Successes

variable {s t : State}

theorem WritesRegion.completesOk (h : WritesRegion s t) : CompletesOk s t := by
  obtain ⟨dst, out, r0, r1, -, rfl⟩ := h
  exact ⟨rfl, rfl, rfl, rfl, rfl⟩

theorem ChecksCrc.completesOk (h : ChecksCrc s t) : CompletesOk s t := by
  obtain ⟨r1, b, rfl⟩ := h
  exact ⟨rfl, rfl, rfl, rfl, rfl⟩

theorem Unpacks.completesOk (h : Unpacks s t) : CompletesOk s t := by
  obtain ⟨dst, out, r0, r1, b, -, rfl⟩ := h
  exact ⟨rfl, rfl, rfl, rfl, rfl⟩

end Successes

/-- The turn of a block with a command pending has one of three ends (R320). -/
theorem blockTurn_ends {s t : State} (hb : s.status.busy = true) (h : blockTurn s = .next t) :
    (∃ e, t = s.raiseErr e) ∨ t = s.meetUninit ∨ CompletesOk s t := by
  rcases blockTurn_cases h with ⟨hidle, -⟩ | ⟨-, -, ⟨e, -, ht⟩ | ht | hwrites | hchecks | hunpacks⟩
  · simp [hb] at hidle
  · exact .inl ⟨e, ht⟩
  · exact .inr (.inl ht)
  · exact .inr (.inr hwrites.completesOk)
  · exact .inr (.inr hchecks.completesOk)
  · exact .inr (.inr hunpacks.completesOk)

/-- Every command answers: exec_alike, for one state against itself. -/
theorem exec_answers (i : Instr) (s : State) : ∃ t, exec i s = .next t := by
  have hsame : SameInputs (argsNamed i) s s := ⟨rfl, rfl, fun _ _ => rfl⟩
  obtain ⟨e, he, -⟩ := exec_alike i hsame (fun _ => rfl)
  exact ⟨_, he⟩

/-! The step, by whose turn it is. -/

section Turns

variable {s : State}

theorem step_of_block (hn : nextTurn s = .block) : step s = blockTurn s.popTurn := by
  simp [step, hn, takeTurn]

theorem step_of_reset (hn : nextTurn s = .reset) : step s = .next s.popTurn.resetBlock := by
  simp [step, hn, takeTurn]

/-- A stuck block has no further step (R331). -/
theorem step_of_stuck (hn : nextTurn s = .block) (hb : s.status.busy = true) (hs : s.stuck = true) :
    step s = .fault .blockStuck := by
  simp [step_of_block hn, blockTurn, hb, hs]

/-- An idle block changes nothing in its turn (R337). -/
theorem step_of_idle_block (hn : nextTurn s = .block) (hb : s.status.busy = false) : step s = .next s.popTurn := by
  simp [step_of_block hn, blockTurn, hb]

/-- A host with nothing to do changes nothing in its turn (R337). -/
theorem step_of_idle_host (hn : nextTurn s = .host) (hp : s.hostProgram = []) : step s = .next s.popTurn := by
  simp [step_of_host hn, hostTurn, hp]

/-- A performance answers: the pending word is illegal, or it is a command's (R106, R320). -/
theorem step_of_blockPerforms (h : BlockPerforms s) : ∃ t, step s = .next t := by
  cases hdecode : decode s.pending with
  | error e => exact ⟨_, step_of_decode_error h hdecode⟩
  | ok i => rw [step_of_decode_ok h hdecode]; exact exec_answers i s.popTurn

/-- Only the turn of a stuck block has no next state. -/
theorem step_answers (h : ¬(nextTurn s = .block ∧ s.status.busy = true ∧ s.stuck = true)) :
    ∃ t, step s = .next t := by
  cases hn : nextTurn s with
  | host => exact ⟨_, step_of_host hn⟩
  | reset => exact ⟨_, step_of_reset hn⟩
  | block =>
    cases hb : s.status.busy with
    | false => exact ⟨_, step_of_idle_block hn hb⟩
    | true => exact step_of_blockPerforms ⟨hn, hb, Bool.eq_false_iff.mpr fun hs => h ⟨hn, hb, hs⟩⟩

/-- The three ends of a performing step, from the state with the turn taken (R320). -/
theorem step_ends {t : State} (h : BlockPerforms s) (hstep : step s = .next t) :
    (∃ e, t = s.popTurn.raiseErr e) ∨ t = s.popTurn.meetUninit ∨ CompletesOk s.popTurn t := by
  obtain ⟨hn, hb, -⟩ := h
  exact blockTurn_ends hb ((step_of_block hn).symm.trans hstep)

end Turns

/-- Settles O5: the turn of a stuck block faults (step_of_stuck), and every other step answers (step_answers). -/
theorem stepFaultsOnlyWhenStuck : Obligations.StepFaultsOnlyWhenStuck := by
  unfold Obligations.StepFaultsOnlyWhenStuck
  refine ⟨fun s r => ⟨fun hfault => ?_, fun ⟨hn, hb, hs⟩ => step_of_stuck hn hb hs⟩, fun s r hrefused => ?_,
    fun _ => step_of_idle_block, fun _ => step_of_idle_host⟩
  · by_contra hnot
    obtain ⟨t, ht⟩ := step_answers hnot
    simp [ht] at hfault
  · by_cases hstuck : nextTurn s = .block ∧ s.status.busy = true ∧ s.stuck = true
    · obtain ⟨hn, hb, hs⟩ := hstuck
      simp [step_of_stuck hn hb hs] at hrefused
    · obtain ⟨t, ht⟩ := step_answers hstuck
      simp [ht] at hrefused

/-- Settles O18: exec_answers, and the three ends of a performance (step_ends). -/
theorem everyCommandEnds : Obligations.EveryCommandEnds := by
  unfold Obligations.EveryCommandEnds
  refine ⟨exec_answers, fun s h => ?_⟩
  obtain ⟨t, hstep⟩ := step_of_blockPerforms h
  refine ⟨t, hstep, ?_⟩
  have ⟨_, _, hs⟩ := h
  rcases step_ends h hstep with ⟨e, rfl⟩ | rfl | hok
  · exact .inl ⟨rfl, rfl, rfl, hs⟩
  · exact .inr (meetUninit_meets _)
  · exact .inl ⟨hok.busy, hok.done, hok.faults, hok.stuck.trans hs⟩

/-- Settles O25: of the three ends only MF_UNINIT leaves BUSY = 1, and it leaves the block stuck; the host's turn changes
neither (HostChanges), and the block has none. -/
theorem uninitLeavesTheBlockStuck : Obligations.UninitLeavesTheBlockStuck := by
  unfold Obligations.UninitLeavesTheBlockStuck
  refine ⟨fun s t h hstep hbusy => ?_, fun s t hs hb hreset hstep => ?_⟩
  · rcases step_ends h hstep with ⟨e, rfl⟩ | rfl | hok
    · simp at hbusy
    · exact ⟨meetUninit_meets _, fun hn => step_of_stuck hn hbusy rfl⟩
    · simp [hok.busy] at hbusy
  · cases hn : nextTurn s with
    | reset => exact absurd hn hreset
    | block => simp [step_of_stuck hn hb hs] at hstep
    | host =>
      cases (step_of_host hn).symm.trans hstep
      have hc := hostTurn_changes s.popTurn
      exact ⟨hc.stuck.trans hs, hc.busy_kept hb⟩

end Sys2Proof.Machine

/-! # The status code of a step (R38, R311, R313, R322) -/

namespace Sys2Proof.Machine

/-- Settles O19: from ERR = OK only an error completion leads to another code. -/
theorem errorCompletionIsPrecise : Obligations.ErrorCompletionIsPrecise := by
  unfold Obligations.ErrorCompletionIsPrecise
  intro s t h hok hstep herr
  rcases step_ends h hstep with ⟨e, rfl⟩ | rfl | hcompletes
  · exact raiseErr_failsWith _ e
  · exact absurd hok herr
  · exact absurd hcompletes.err herr

/-- A command that raises only the listed errors ends with OK, one of their codes, or MF_UNINIT. -/
theorem CommandCases.err_mem {codes : List ErrCode} {success : State → Prop} {s t : State}
    (h : CommandCases codes success s t) (hsuccess : success t → CompletesOk s t) :
    MeetsUninit s t ∨ t.status.err = 0 ∨ t.status.err ∈ codes.map ErrCode.code := by
  rcases h with ⟨e, he, rfl⟩ | rfl | ht
  · exact .inr (.inr (List.mem_map_of_mem he))
  · exact .inl (meetUninit_meets s)
  · exact .inr (.inl (hsuccess ht).err)

/-- Settles O20: the errors each command raises (Laws/Exec) have the codes R313 lists for it. -/
theorem commandsProduceTheirCodes : Obligations.CommandsProduceTheirCodes := by
  unfold Obligations.CommandsProduceTheirCodes
  intro i s t h
  cases i with
  | h2s => exact (execH2S_cases h).err_mem WritesRegion.completesOk
  | s2h => exact (execS2H_cases h).err_mem WritesRegion.completesOk
  | scrseq => exact (execScrseq_cases h).err_mem WritesRegion.completesOk
  | scrHard => exact (scrambleCommand_cases h).err_mem WritesRegion.completesOk
  | scrSoft => exact (scrambleCommand_cases h).err_mem WritesRegion.completesOk
  | dil => exact (execDil_cases h).err_mem WritesRegion.completesOk
  | dpn rate => exact (execDpn_cases h).err_mem WritesRegion.completesOk
  | vitZero => exact (viterbiCommand_cases h).err_mem WritesRegion.completesOk
  | vitMin => exact (viterbiCommand_cases h).err_mem WritesRegion.completesOk
  | crc16 => exact (execCrc16_cases h).err_mem WritesRegion.completesOk
  | crcchk => exact (execCrcchk_cases h).err_mem ChecksCrc.completesOk
  | unp => exact (execUnp_cases h).err_mem Unpacks.completesOk

/-- The host's turn leaves ERR alone, or starts a command, whose ERR is OK (R38). -/
theorem HostChanges.err {s t : State} (hc : HostChanges s t) : t.status.err = s.status.err ∨ t.status.err = 0 := by
  rcases hc.commandSide with ⟨hstatus, -⟩ | ⟨keep, hstatus, -⟩ | ⟨-, w, rfl, -⟩
  · exact .inl (by rw [hstatus])
  · exact .inl (by rw [hstatus])
  · exact .inr rfl

/-- The block's turn leaves ERR alone or sets it to a code of R310. -/
theorem blockTurn_err {s t : State} (h : blockTurn s = .next t) :
    t.status.err = s.status.err ∨ legalErr t.status.err := by
  cases hb : s.status.busy with
  | false => exact .inl (by rw [blockTurn_idle h hb])
  | true =>
    rcases blockTurn_ends hb h with ⟨e, rfl⟩ | rfl | hok
    · exact .inr e.code_legal
    · exact .inl rfl
    · exact .inr (.inl hok.err)

/-- Settles O21: each agent's turn keeps ERR or sets a code of R310, and a reset sets OK. -/
theorem reservedCodesAreNeverReached : Obligations.ReservedCodesAreNeverReached := by
  unfold Obligations.ReservedCodesAreNeverReached
  intro s t hlegal hstep
  rcases step_cases hstep with ⟨-, rfl⟩ | ⟨-, hblock⟩ | ⟨-, rfl⟩
  · rcases (hostTurn_changes s.popTurn).err with herr | herr
    · rw [herr]; exact hlegal
    · exact .inl herr
  · rcases blockTurn_err hblock with herr | herr
    · rw [herr]; exact hlegal
    · exact herr
  · exact .inl rfl

end Sys2Proof.Machine

/-! # The reset state (R350, R351) -/

namespace Sys2Proof.Machine

/-- The reset state is what a reset leaves of it, so what holds after every reset holds of it. -/
theorem State.resetBlock_reset : State.reset.resetBlock = State.reset := rfl

/-- A reset sets every register and latch to its reset value and leaves every byte of DMEM unwritten. -/
theorem State.resetBlock_isReset (s : State) : IsReset s.resetBlock := by
  have hargs (k : Fin 8) : readReg s.resetBlock (.arg k) = 0 := by fin_cases k <;> rfl
  have hstatus : State.reset.status.word = 0 := by decide
  exact ⟨rfl, hstatus, rfl, rfl, hargs, rfl, rfl, rfl, rfl, rfl, fun _ => rfl⟩

/-- Settles O37: the reset state and a reset turn alike, by resetBlock_isReset. -/
theorem resetValues : Obligations.ResetValues := by
  unfold Obligations.ResetValues
  refine ⟨?_, fun s hn => ⟨_, step_of_reset hn, s.popTurn.resetBlock_isReset⟩⟩
  rw [← State.resetBlock_reset]
  exact State.reset.resetBlock_isReset

/-- Settles O40: a reset meets the invariant from any state, so from the reset state (resetBlock_inv). -/
theorem resetMeetsTheInvariant : Obligations.ResetMeetsTheInvariant := by
  unfold Obligations.ResetMeetsTheInvariant
  rw [← State.resetBlock_reset]
  exact State.reset.resetBlock_inv

end Sys2Proof.Machine
